-- ==== Sys2Proof/Word.lean ====
section
/-!
DEFINITION. The word types of the machine: the byte of memory (20_memory.md R50), the 16-bit
"word" of a packed operand (00_scope.md R16) and the 64-bit address.
-/

namespace Sys2Proof

/-- One byte of memory or of an instruction. -/
abbrev Byte := BitVec 8

/-- The spec's "word": one 16-bit lane of a packed operand (00_scope.md R16). -/
abbrev Word := BitVec 16

/-- A linear address, an offset or a general register. Outside 64-bit mode only the low 32 bits
of an address are used (20_memory.md R50, 10_state.md R26). -/
abbrev Addr := BitVec 64

end Sys2Proof
end

