-- ==== Sys2Proof/Machine/Lanes.lean ====
section
/-!
DEFINITION. The lane arithmetic of 40_lane_arithmetic.md: lanes, `mullo16`, the packed product and
the masked selection of 43_vpmullw_evex.md R140.
-/

namespace Sys2Proof.Machine

/-- Lane `j` of a packed operand, bits `16j+15 : 16j` (40_lane_arithmetic.md R110). -/
def lane {w : Nat} (x : BitVec w) (j : Nat) : Word := x.extractLsb' (16 * j) 16

/-- `TEMP`, the 32-bit intermediate product of two words read as signed (R111). -/
def product32 (a b : Word) : BitVec 32 := BitVec.ofInt 32 (a.toInt * b.toInt)

/-- `mullo16(a, b)`: the low 16 bits of the signed product (R111). -/
def mullo16 (a b : Word) : Word := (product32 a b).extractLsb' 0 16

/-- The `w`-bit value whose lanes `0 .. n-1` are `f 0 .. f (n-1)` and whose other lanes are 0
(R110). -/
def packLanes (w : Nat) (f : Nat → Word) : Nat → BitVec w
  | 0 => 0
  | n + 1 => packLanes w f n ||| (f n).setWidth w <<< (16 * n)

/-- `PMULLW_KL(x, y)`, `KL = w / 16` (R117). -/
def pmullw {w : Nat} (x y : BitVec w) : BitVec w :=
  packLanes w (fun j => mullo16 (lane x j) (lane y j)) (w / 16)

/-- The masked product of 43_vpmullw_evex.md R140: a selected lane takes the product, another one
0 (zeroing) or the old value (merging). -/
def pmullwMasked {w : Nat} (sel : Nat → Bool) (z : Bool) (old x y : BitVec w) : BitVec w :=
  packLanes w
    (fun j => if sel j then mullo16 (lane x j) (lane y j) else if z then 0 else lane old j) (w / 16)

end Sys2Proof.Machine
end

