-- ==== Sys2Proof/Config.lean ====
section
/-!
DEFINITION. What an implementation fixes (the spec's named parameters, 00_scope.md R6 to R9), as
plain data that the state carries and no step changes, so that a statement about every state is a
statement about every value of the parameters; and the free values, opaque constants without a
body.
-/

namespace Sys2Proof

/-- `MAXVL`, the width of one full vector register (00_scope.md R6, U1). -/
inductive MaxVL where
  | w128 | w256 | w512
  deriving DecidableEq, Repr

/-- The width in bits. -/
def MaxVL.bits : MaxVL → Nat
  | .w128 => 128
  | .w256 => 256
  | .w512 => 512

/-- The CPUID feature flags of 00_scope.md R8 (U2). -/
structure Features where
  mmx      : Bool
  sse2     : Bool
  avx      : Bool
  avx2     : Bool
  avx512bw : Bool
  avx512vl : Bool
  avx10_1  : Bool
  deriving DecidableEq, Repr

/-- The parameters of the implementation. -/
structure Config where
  /-- `MAXVL` (R6). -/
  maxvl : MaxVL
  /-- The feature set (R8). -/
  features : Features
  /-- `FaultSuppression` (43_vpmullw_evex.md R141, U8): only the bytes of selected lanes are
  checked and read. -/
  faultSuppression : Bool
  /-- How many low bits of a 64-bit address are significant: an address is canonical when it is
  the sign extension of its low `canonBits` bits (20_memory.md R62; with 64 every address is).
  DESIGN CHOICE: the spec states the requirement and not the width; log entry 14. -/
  canonBits : Nat
  /-- The alignment whose violation raises `#AC(0)` for a VEX form when alignment checking is
  enabled, if any (20_memory.md R54 and 90_conflicts.md C9 leave it to `ExcCond`; log entry 13). -/
  acVex : Option Nat
  /-- The same for an EVEX form. -/
  acEvex : Option Nat
  deriving DecidableEq, Repr

namespace Config

/-- FREE VALUE. Which of several DIFFERENT segment-override prefixes of one instruction that may
count does: the argument is the list of the segment numbers in the order of the prefixes, the answer
an index into it (taken modulo its length). DESIGN CHOICE, log entry 18. -/
opaque overridePick : List Nat → Nat

/-- FREE VALUE. The x87 tag word after the MMX form (decision D5, U9; log entry 10). -/
opaque freeX87Tag : Nat → BitVec 16

/-- FREE VALUE. The x87 top-of-stack field after the MMX form (decision D5, U9; log entry 10). -/
opaque freeX87Top : Nat → BitVec 3

/-- FREE VALUE. Bits 79:64 of the x87 register that aliases the written MMX register
(decision D5, U9; log entry 10). -/
opaque freeX87High : Nat → BitVec 16

end Config

/-- The prefix scheme of a form (30_encoding.md R82). -/
inductive Encoding where
  | legacy | vex | evex
  deriving DecidableEq, Repr

/-- `NVEC(Mode64, encoding)`, how many vector registers a form can name: the suggested
instantiation of 10_state.md R21 (decision D4, GK12; log entry 4). -/
def Config.nvec : Bool → Encoding → Nat
  | false, _ => 8
  | true, .evex => 32
  | true, _ => 16

end Sys2Proof
end

