-- ==== Sys2Proof/Syntax.lean ====
section
/-!
DEFINITION. The abstract syntax: one constructor of `Instr` per row of spec/opcode_table.json,
holding the decoded form of 30_encoding.md R85 (`Decoded`): destination, sources, write-mask,
zeroing flag and the length in bytes.
-/

namespace Sys2Proof

/-- A vector register number, `V[0] .. V[31]` (10_state.md R20, R21). -/
abbrev VReg := Fin 32

/-- An MMX technology register number (10_state.md R23). -/
abbrev MReg := Fin 8

/-- An opmask register number (10_state.md R24). -/
abbrev KReg := Fin 8

/-- A general register number, RAX = 0 .. R15 = 15 (10_state.md R25). -/
abbrev GReg := Fin 16

/-- The segment registers, numbered 0 to 5 in this order (10_state.md R25). -/
inductive SReg where
  | es | cs | ss | ds | fs | gs
  deriving DecidableEq, Repr

/-- The number of a segment register (10_state.md R25). -/
def SReg.num : SReg → Fin 6
  | .es => 0
  | .cs => 1
  | .ss => 2
  | .ds => 3
  | .fs => 4
  | .gs => 5

/-- The base of a memory operand (30_encoding.md R78.1, R78.2): none, the address of the next
instruction, or a general register. -/
inductive Base where
  | none
  | rip
  | reg (r : GReg)
  deriving DecidableEq, Repr

/-- The scaled index of a memory operand: `reg * 2^scale` (R78.2). -/
structure Index where
  reg   : GReg
  scale : Fin 4
  deriving DecidableEq, Repr

/-- An addressing form (30_encoding.md R78). -/
structure MemOperand where
  /-- The address size is 32 bits (otherwise 64). -/
  addr32 : Bool
  /-- The segment: the default one, or the one a segment-override prefix names (R78.5). -/
  seg : SReg
  base : Base
  index : Option Index
  /-- The displacement after sign extension to 32 bits and after the EVEX scaling of R83; it is
  sign-extended further when it is added (for a SIB byte without base PRESUMED, log entry 32). -/
  disp : BitVec 32
  deriving DecidableEq, Repr

/-- Operand `r/m` of a vector form: `Src2` of R85, its memory case before `EffAddr`. -/
inductive Src where
  | reg (n : VReg)
  | mem (m : MemOperand)
  deriving DecidableEq, Repr

/-- Operand `r/m` of the MMX form. -/
inductive MmxSrc where
  | reg (n : MReg)
  | mem (m : MemOperand)
  deriving DecidableEq, Repr

/-- The seven forms (30_encoding.md R85). -/
inductive Form where
  | mmx64 | sse128 | vex128 | vex256 | evex128 | evex256 | evex512
  deriving DecidableEq, Repr

/-- `VL`, the operand width in bits (00_scope.md R7). -/
def Form.vl : Form → Nat
  | .mmx64 => 64
  | .sse128 | .vex128 | .evex128 => 128
  | .vex256 | .evex256 => 256
  | .evex512 => 512

/-- `KL = VL / 16`, the number of lanes (00_scope.md R7). -/
def Form.kl (f : Form) : Nat := f.vl / 16

/-- The size of the memory operand in bytes (20_memory.md R52). -/
def Form.bytes (f : Form) : Nat := f.vl / 8

/-- The prefix scheme (30_encoding.md R71, R75). -/
def Form.encoding : Form → Encoding
  | .mmx64 | .sse128 => .legacy
  | .vex128 | .vex256 => .vex
  | .evex128 | .evex256 | .evex512 => .evex

/-- The factor of an 8-bit displacement: `VL / 8` in the EVEX forms, 1 otherwise
(30_encoding.md R83). -/
def Form.dispScale (f : Form) : Nat :=
  match f.encoding with
  | .evex => f.vl / 8
  | _ => 1

/-- The instructions, one constructor per row of the opcode table. -/
inductive Instr where
  /-- `PMULLW mm, mm/m64`, `NP 0F D5 /r` (41_pmullw_legacy.md R120). -/
  | pmullwMmx64 (d : MReg) (s2 : MmxSrc) (len : Nat)
  /-- `PMULLW xmm1, xmm2/m128`, `66 0F D5 /r` (R121). -/
  | pmullwSse128 (d : VReg) (s2 : Src) (len : Nat)
  /-- `VPMULLW xmm1, xmm2, xmm3/m128`, `VEX.128.66.0F.WIG D5 /r` (42_vpmullw_vex.md R130). -/
  | vpmullwVex128 (d s1 : VReg) (s2 : Src) (len : Nat)
  /-- `VPMULLW ymm1, ymm2, ymm3/m256`, `VEX.256.66.0F.WIG D5 /r` (R131). -/
  | vpmullwVex256 (d s1 : VReg) (s2 : Src) (len : Nat)
  /-- `VPMULLW xmm1 {k1}{z}, xmm2, xmm3/m128`, `EVEX.128.66.0F.WIG D5 /r` (43_vpmullw_evex.md
  R142); mask 0 is "no writemask". -/
  | vpmullwEvex128 (d s1 : VReg) (s2 : Src) (mask : KReg) (z : Bool) (len : Nat)
  /-- `VPMULLW ymm1 {k1}{z}, ymm2, ymm3/m256`, `EVEX.256.66.0F.WIG D5 /r` (R143). -/
  | vpmullwEvex256 (d s1 : VReg) (s2 : Src) (mask : KReg) (z : Bool) (len : Nat)
  /-- `VPMULLW zmm1 {k1}{z}, zmm2, zmm3/m512`, `EVEX.512.66.0F.WIG D5 /r` (R144). -/
  | vpmullwEvex512 (d s1 : VReg) (s2 : Src) (mask : KReg) (z : Bool) (len : Nat)
  deriving DecidableEq, Repr

/-- The form of an instruction (R85). -/
def Instr.form : Instr → Form
  | .pmullwMmx64 .. => .mmx64
  | .pmullwSse128 .. => .sse128
  | .vpmullwVex128 .. => .vex128
  | .vpmullwVex256 .. => .vex256
  | .vpmullwEvex128 .. => .evex128
  | .vpmullwEvex256 .. => .evex256
  | .vpmullwEvex512 .. => .evex512

/-- The length in bytes (30_encoding.md R86). -/
def Instr.len : Instr → Nat
  | .pmullwMmx64 _ _ len => len
  | .pmullwSse128 _ _ len => len
  | .vpmullwVex128 _ _ _ len => len
  | .vpmullwVex256 _ _ _ len => len
  | .vpmullwEvex128 _ _ _ _ _ len => len
  | .vpmullwEvex256 _ _ _ _ _ len => len
  | .vpmullwEvex512 _ _ _ _ _ len => len

/-- The same instruction in a spelling of another length (R86). -/
def Instr.withLen (i : Instr) (len : Nat) : Instr :=
  match i with
  | .pmullwMmx64 d s2 _ => .pmullwMmx64 d s2 len
  | .pmullwSse128 d s2 _ => .pmullwSse128 d s2 len
  | .vpmullwVex128 d s1 s2 _ => .vpmullwVex128 d s1 s2 len
  | .vpmullwVex256 d s1 s2 _ => .vpmullwVex256 d s1 s2 len
  | .vpmullwEvex128 d s1 s2 mask z _ => .vpmullwEvex128 d s1 s2 mask z len
  | .vpmullwEvex256 d s1 s2 mask z _ => .vpmullwEvex256 d s1 s2 mask z len
  | .vpmullwEvex512 d s1 s2 mask z _ => .vpmullwEvex512 d s1 s2 mask z len

/-- The memory operand, if operand `r/m` is one (20_memory.md R51). -/
def Instr.memOperand : Instr → Option MemOperand
  | .pmullwMmx64 _ (.mem m) _ => some m
  | .pmullwMmx64 _ (.reg _) _ => none
  | .pmullwSse128 _ s2 _ | .vpmullwVex128 _ _ s2 _ | .vpmullwVex256 _ _ s2 _
  | .vpmullwEvex128 _ _ s2 _ _ _ | .vpmullwEvex256 _ _ s2 _ _ _
  | .vpmullwEvex512 _ _ s2 _ _ _ =>
    match s2 with
    | .mem m => some m
    | .reg _ => none

end Sys2Proof
end

