-- ==== Sys2Proof/Decode.lean ====
section
/-!
DEFINITION. The decoder, from bytes to `Instr` (30_encoding.md R70 to R87, the decode procedure of
R85), total and refusing by name, and after it the encoder, written from the same layouts. The
byte layouts are the spec's general knowledge GK5 to GK11 (decision D1; log entry 1).
-/

namespace Sys2Proof

/-! ## Bit fields -/

/-- The field `b[lo+w-1 : lo]` (00_scope.md R11). -/
def field (b : Byte) (lo w : Nat) : BitVec w := b.extractLsb' lo w

/-- Bit `i` of a byte. -/
def bit (b : Byte) (i : Nat) : Bool := b.getLsbD i

/-- A 5-bit vector register number `h4 : h3 : r` (30_encoding.md R79). -/
def vregOf (h4 h3 : Bool) (r : BitVec 3) : VReg :=
  (BitVec.ofBool h4 ++ BitVec.ofBool h3 ++ r : BitVec 5).toFin

/-- A 4-bit general register number `h3 : r` (R78). -/
def gregOf (h3 : Bool) (r : BitVec 3) : GReg := (BitVec.ofBool h3 ++ r : BitVec 4).toFin

/-- A 3-bit register number: an MMX register (R75) or an opmask register (R81). -/
def reg3Of (r : BitVec 3) : Fin 8 := r.toFin

/-! ## Reasons not to decode -/

/-- Why bytes are not decoded to an instruction. -/
inductive DecodeError where
  /-- The encoding raises `#UD` (R87). -/
  | invalidOpcode
  /-- The bytes are not one of the seven forms (R87, D23). -/
  | otherInstruction
  /-- `0F D5` preceded by `F2` or `F3` (R87, D28). -/
  | repeatPrefix
  /-- 16-bit addressing (R78, R87, D27). -/
  | address16
  /-- Outside 64-bit mode, an extension bit of VEX or EVEX names a register above 7 (R80, R81). -/
  | extensionOutside64
  /-- EVEX with P0 bit 3 set or P1 bit 2 clear (R81, D23). -/
  | evexFixedBits
  /-- More than 15 bytes (R86). -/
  | tooLong
  /-- The bytes end before the instruction does. -/
  | truncated
  deriving DecidableEq, Repr

/-! ## Legacy prefixes and REX (R85 steps 1 and 2) -/

/-- The legacy prefixes seen (R85.1). -/
structure Prefixes where
  opSize   : Bool
  addrSize : Bool
  lock     : Bool
  repne    : Bool
  rep      : Bool
  /-- The segment-override prefixes, in the order of the bytes. -/
  segs     : List SReg
  deriving DecidableEq, Repr

/-- No prefix seen. -/
def Prefixes.empty : Prefixes := ⟨false, false, false, false, false, []⟩

/-- The segment that a segment-override prefix names (R78.5). -/
def overrideSeg (b : Byte) : Option SReg :=
  if b = 0x26#8 then some .es
  else if b = 0x2E#8 then some .cs
  else if b = 0x36#8 then some .ss
  else if b = 0x3E#8 then some .ds
  else if b = 0x64#8 then some .fs
  else if b = 0x65#8 then some .gs
  else none

/-- The prefixes with one more byte taken in, or nothing when the byte is no legacy prefix
(R85.1). -/
def Prefixes.add (p : Prefixes) (b : Byte) : Option Prefixes :=
  if b = 0x66#8 then some { p with opSize := true }
  else if b = 0x67#8 then some { p with addrSize := true }
  else if b = 0xF0#8 then some { p with lock := true }
  else if b = 0xF2#8 then some { p with repne := true }
  else if b = 0xF3#8 then some { p with rep := true }
  else match overrideSeg b with
    | some sg => some { p with segs := p.segs ++ [sg] }
    | none => none

/-- Scan the legacy prefixes, in any order (R85.1). -/
def scanPrefixes : Prefixes → List Byte → Prefixes × List Byte
  | p, [] => (p, [])
  | p, b :: bs =>
    match p.add b with
    | some p' => scanPrefixes p' bs
    | none => (p, b :: bs)

/-- An override of FS or GS. -/
def SReg.isFsGs (sg : SReg) : Bool := sg == .fs || sg == .gs

/-- The overrides that count: in 64-bit mode those of FS and GS where there are any, since only they
change the address there (R78.5), else all of them. -/
def Prefixes.countingSegs (m64 : Bool) (p : Prefixes) : List SReg :=
  if m64 && p.segs.any SReg.isFsGs then p.segs.filter SReg.isFsGs else p.segs

/-- The segment override in force: none, the one named, or, of several different ones that count,
one of them, which the spec leaves open (log entry 18). -/
def Prefixes.override (m64 : Bool) (p : Prefixes) : Option SReg :=
  match p.countingSegs m64 with
  | [] => none
  | sg :: rest =>
    if rest.all (· == sg) then some sg
    else (sg :: rest)[Config.overridePick ((sg :: rest).map (·.num.val)) % (sg :: rest).length]?

/-- The bits of a REX prefix that count here: W is ignored (R85.2, R85.3). -/
structure Rex where
  r : Bool
  x : Bool
  b : Bool
  deriving DecidableEq, Repr

/-- In 64-bit mode a byte `40` to `4F` is a REX prefix (R85.2). -/
def takeRex (m64 : Bool) : List Byte → Option Rex × List Byte
  | [] => (none, [])
  | b :: bs =>
    if m64 && field b 4 4 == 4#4 then (some ⟨bit b 2, bit b 1, bit b 0⟩, bs) else (none, b :: bs)

/-! ## The opcode part (R85 steps 3 to 5) -/

/-- What the bytes up to the opcode `D5` say. The extension bits are the true, un-inverted ones
(R79); `r'` and `v'` are 0 but for EVEX. -/
structure Header where
  form : Form
  r'   : Bool
  r    : Bool
  x    : Bool
  b    : Bool
  /-- The first source, `V' : vvvv`. -/
  s1   : VReg
  mask : KReg
  z    : Bool
  deriving DecidableEq, Repr

/-- After `0F`: the MMX form or the legacy 128-bit form (R85.3, R75, R71). `F2` or `F3` is refused
(D28), LOCK is `#UD` (GK25). -/
def parseLegacy (p : Prefixes) (rex : Option Rex) : List Byte → Except DecodeError (Header × List Byte)
  | [] => .error .truncated
  | op :: bs =>
    if op ≠ 0xD5#8 then .error .otherInstruction
    else if p.repne || p.rep then .error .repeatPrefix
    else if p.lock then .error .invalidOpcode
    else
      let rx := rex.getD ⟨false, false, false⟩
      .ok (⟨if p.opSize then .sse128 else .mmx64, false, rx.r, rx.x, rx.b, 0, 0, false⟩, bs)

/-- The last VEX byte and the opcode, given `R`, `X`, `B` (R80): `pp = 01`, opcode `D5`, `L`
selects the form, and outside 64-bit mode no register above 7. -/
def parseVexTail (m64 r x b : Bool) : List Byte → Except DecodeError (Header × List Byte)
  | p :: op :: bs =>
    if field p 0 2 ≠ 1#2 ∨ op ≠ 0xD5#8 then .error .otherInstruction
    else if !m64 && (b || !bit p 6) then .error .extensionOutside64
    else
      .ok (⟨if bit p 2 then .vex256 else .vex128, false, r, x, b,
        vregOf false (!bit p 6) (~~~ field p 3 3), 0, false⟩, bs)
  | _ => .error .truncated

/-- After `C5`, the two-byte VEX prefix (R80). -/
def parseVex2 (m64 : Bool) : List Byte → Except DecodeError (Header × List Byte)
  | [] => .error .truncated
  | p :: bs => parseVexTail m64 (!bit p 7) false false (p :: bs)

/-- After `C4`, the three-byte VEX prefix (R80): `mmmmm = 00001`, W ignored. -/
def parseVex3 (m64 : Bool) : List Byte → Except DecodeError (Header × List Byte)
  | [] => .error .truncated
  | p :: bs =>
    if field p 0 5 ≠ 1#5 then .error .otherInstruction
    else parseVexTail m64 (!bit p 7) (!bit p 6) (!bit p 5) bs

/-- The form that `L'L` selects (R81); `11` is none. -/
def evexForm (ll : BitVec 2) : Option Form :=
  if ll = 0#2 then some .evex128
  else if ll = 1#2 then some .evex256
  else if ll = 2#2 then some .evex512
  else none

/-- After `62`, the EVEX prefix (R81) and its illegal settings (R87). -/
def parseEvex (m64 : Bool) : List Byte → Except DecodeError (Header × List Byte)
  | p0 :: p1 :: p2 :: op :: bs =>
    if bit p0 3 || !bit p1 2 then .error .evexFixedBits
    else if field p0 0 3 ≠ 1#3 ∨ field p1 0 2 ≠ 1#2 ∨ op ≠ 0xD5#8 then .error .otherInstruction
    else if !m64 && !(bit p0 5 && bit p0 4 && bit p2 3 && bit p1 6) then .error .extensionOutside64
    else if bit p2 4 || (bit p2 7 && field p2 0 3 == 0#3) then .error .invalidOpcode
    else match evexForm (field p2 5 2) with
      | none => .error .invalidOpcode
      | some f =>
        .ok (⟨f, !bit p0 4, !bit p0 7, !bit p0 6, !bit p0 5,
          vregOf (!bit p2 3) (!bit p1 6) (~~~ field p1 3 3), reg3Of (field p2 0 3), bit p2 7⟩, bs)
  | _ => .error .truncated

/-- Whether `C4`, `C5` or `62` is a VEX or EVEX prefix: always in 64-bit mode, outside it only when
bits 7:6 of the next byte are `11` (R80, R81, R85 steps 4 and 5), which is not known where no byte
follows. -/
def prefixSelected (m64 : Bool) (bs : List Byte) : Except DecodeError Bool :=
  if m64 then .ok true
  else match bs with
    | [] => .error .truncated
    | b :: _ => .ok (field b 6 2 == 3#2)

/-- A `66`, `F2`, `F3`, `F0` or REX prefix has been seen: `#UD` before VEX or EVEX (R85.4). -/
def forbidsVex (p : Prefixes) (rex : Option Rex) : Bool :=
  p.opSize || p.lock || p.repne || p.rep || rex.isSome

/-- The opcode part of the instruction (R85 steps 3 to 5). -/
def parseHeader (m64 : Bool) (p : Prefixes) (rex : Option Rex) :
    List Byte → Except DecodeError (Header × List Byte)
  | [] => .error .truncated
  | b :: bs =>
    if b = 0x0F#8 then parseLegacy p rex bs
    else if b = 0xC5#8 ∨ b = 0xC4#8 ∨ b = 0x62#8 then
      match prefixSelected m64 bs with
      | .error e => .error e
      | .ok false => .error .otherInstruction
      | .ok true =>
        if forbidsVex p rex then .error .invalidOpcode
        else if b = 0xC5#8 then parseVex2 m64 bs
        else if b = 0xC4#8 then parseVex3 m64 bs
        else parseEvex m64 bs
    else .error .otherInstruction

/-! ## ModRM, SIB and displacement (R77, R78, R83; R85 step 6) -/

/-- Operand `r/m` as ModRM gives it: a register's low three bits, or a memory operand. -/
inductive RmOperand where
  | reg (rm : BitVec 3)
  | mem (m : MemOperand)
  deriving DecidableEq, Repr

/-- The default segment of a base register (R78.5). -/
def Base.defaultSeg : Base → SReg
  | .reg r => if r = 4 ∨ r = 5 then .ss else .ds
  | _ => .ds

/-- Four bytes, little-endian, as one displacement (R78.3). -/
def disp32Of (b0 b1 b2 b3 : Byte) : BitVec 32 := b3 ++ b2 ++ b1 ++ b0

/-- The displacement that follows: four bytes when `wide`, else by `mod` (R78.3); an 8-bit one is
sign-extended and multiplied by `n` (R83). -/
def takeDisp (mod : BitVec 2) (wide : Bool) (n : Nat) (bs : List Byte) :
    Except DecodeError (BitVec 32 × List Byte) :=
  if wide || mod == 2#2 then
    match bs with
    | b0 :: b1 :: b2 :: b3 :: rest => .ok (disp32Of b0 b1 b2 b3, rest)
    | _ => .error .truncated
  else if mod = 1#2 then
    match bs with
    | b :: rest => .ok (b.signExtend 32 * BitVec.ofNat 32 n, rest)
    | [] => .error .truncated
  else .ok (0, bs)

/-- What stands around the ModRM byte: the mode, the addressing and the extension bits. -/
structure RmContext where
  m64      : Bool
  addr16   : Bool
  addr32   : Bool
  override : Option SReg
  x        : Bool
  b        : Bool
  /-- The factor of an 8-bit displacement. -/
  scale    : Nat
  deriving DecidableEq, Repr

/-- Base and index once known, the displacement still to read (R78.3 to R78.5). -/
def RmContext.finish (c : RmContext) (mod : BitVec 2) (wide : Bool) (base : Base)
    (index : Option Index) (bs : List Byte) : Except DecodeError (RmOperand × List Byte) :=
  match takeDisp mod wide c.scale bs with
  | .error e => .error e
  | .ok (d, rest) =>
    .ok (.mem ⟨c.addr32, c.override.getD base.defaultSeg, base, index, d⟩, rest)

/-- A memory operand (R78.1, R78.2). -/
def parseMem (c : RmContext) (mod : BitVec 2) (rm : BitVec 3) (bs : List Byte) :
    Except DecodeError (RmOperand × List Byte) :=
  if rm = 4#3 then
    match bs with
    | [] => .error .truncated
    | sib :: rest =>
      let index := gregOf c.x (field sib 3 3)
      let index := if index = 4 then none else some ⟨index, (field sib 6 2).toFin⟩
      if field sib 0 3 = 5#3 ∧ mod = 0#2 then c.finish mod true .none index rest
      else c.finish mod false (.reg (gregOf c.b (field sib 0 3))) index rest
  else if rm = 5#3 ∧ mod = 0#2 then
    c.finish mod true (if c.m64 then .rip else .none) none bs
  else c.finish mod false (.reg (gregOf c.b rm)) none bs

/-- The ModRM byte and what follows it: the reg field and operand `r/m` (R77). 16-bit addressing
is refused (D27), for a memory operand. -/
def parseModRM (c : RmContext) : List Byte → Except DecodeError (BitVec 3 × RmOperand × List Byte)
  | [] => .error .truncated
  | modrm :: bs =>
    if field modrm 6 2 = 3#2 then .ok (field modrm 3 3, .reg (field modrm 0 3), bs)
    else if c.addr16 then .error .address16
    else match parseMem c (field modrm 6 2) (field modrm 0 3) bs with
      | .error e => .error e
      | .ok (op, rest) => .ok (field modrm 3 3, op, rest)

/-! ## Register numbers (R79; R85 step 7) and the whole decoder -/

/-- Operand `r/m` of a vector form: `B : rm`, in the EVEX forms `X : B : rm` (R79). -/
def Header.src (h : Header) : RmOperand → Src
  | .reg rm => .reg (vregOf (h.x && h.form.encoding == .evex) h.b rm)
  | .mem m => .mem m

/-- Operand `r/m` of the MMX form: three bits, REX.B ignored (R75). -/
def mmxSrcOf : RmOperand → MmxSrc
  | .reg rm => .reg (reg3Of rm)
  | .mem m => .mem m

/-- The decoded instruction (R85 step 7). -/
def Header.instr (h : Header) (reg : BitVec 3) (op : RmOperand) (len : Nat) : Instr :=
  let d := vregOf h.r' h.r reg
  match h.form with
  | .mmx64 => .pmullwMmx64 (reg3Of reg) (mmxSrcOf op) len
  | .sse128 => .pmullwSse128 d (h.src op) len
  | .vex128 => .vpmullwVex128 d h.s1 (h.src op) len
  | .vex256 => .vpmullwVex256 d h.s1 (h.src op) len
  | .evex128 => .vpmullwEvex128 d h.s1 (h.src op) h.mask h.z len
  | .evex256 => .vpmullwEvex256 d h.s1 (h.src op) h.mask h.z len
  | .evex512 => .vpmullwEvex512 d h.s1 (h.src op) h.mask h.z len

/-- The context of the ModRM byte (R78): the address size is 64 bits in 64-bit mode without `67`,
else 32; outside 64-bit mode `67` or a 16-bit code segment means 16-bit addressing. -/
def rmContext (m64 code16 : Bool) (p : Prefixes) (h : Header) : RmContext where
  m64 := m64
  addr16 := !m64 && (code16 || p.addrSize)
  addr32 := !m64 || p.addrSize
  override := p.override m64
  x := h.x
  b := h.b
  scale := h.form.dispScale

/-- The decoder (R85): the instruction at the head of the bytes, in 64-bit mode or not, in a
16-bit code segment or not. -/
def decode (m64 code16 : Bool) (bs : List Byte) : Except DecodeError Instr :=
  let (p, afterPrefixes) := scanPrefixes Prefixes.empty bs
  let (rex, afterRex) := takeRex m64 afterPrefixes
  match parseHeader m64 p rex afterRex with
  | .error e => .error e
  | .ok (h, afterOpcode) =>
    match parseModRM (rmContext m64 code16 p h) afterOpcode with
    | .error e => .error e
    | .ok (reg, op, rest) =>
      let len := bs.length - rest.length
      if 15 < len then .error .tooLong else .ok (h.instr reg op len)

/-! ## The opcode table's words -/

/-- Byte `i` of a word of `nbits` bits, the first byte in bits 7:0; every bit at or above `nbits`
is 0. -/
def tableByte (nbits w i : Nat) : Byte := BitVec.ofNat 8 (w % 2 ^ nbits / 2 ^ (8 * i))

/-- The first 15 bytes (the longest instruction, R86) of such a word. -/
def tableBytes (nbits w : Nat) : List Byte := (List.range 15).map (tableByte nbits w)

/-- The instruction the decoder reads from a word of the opcode table, in 64-bit mode. -/
def decodeTableWord (nbits w : Nat) : Option Instr :=
  match decode true false (tableBytes nbits w) with
  | .ok i => some i
  | .error _ => none

/-! ## The encoder, from the same layouts

`encode m64 i` is the shortest spelling of `i`, brought to the length `i.len` by redundant
segment-override prefixes (R87: they have no effect beyond the length): the operand's own segment
for a memory operand, DS for a register operand. -/

/-- The low three bits of a register number. -/
def low3 {n : Nat} (r : Fin n) : BitVec 3 := BitVec.ofNat 3 r.val

/-- Bit 3 of a register number. -/
def hi3 {n : Nat} (r : Fin n) : Bool := r.val.testBit 3

/-- Bit 4 of a register number. -/
def hi4 {n : Nat} (r : Fin n) : Bool := r.val.testBit 4

/-- The ModRM byte (R77). -/
def modrmByte (mod : BitVec 2) (reg rm : BitVec 3) : Byte := (mod ++ reg ++ rm : BitVec 8)

/-- The SIB byte (R78.2). -/
def sibByte (scale : BitVec 2) (index base : BitVec 3) : Byte := (scale ++ index ++ base : BitVec 8)

/-- Four bytes of a displacement, little-endian (R78.3). -/
def dispBytes (d : BitVec 32) : List Byte :=
  [d.extractLsb' 0 8, d.extractLsb' 8 8, d.extractLsb' 16 8, d.extractLsb' 24 8]

/-- How the displacement is spelled, with `mod` and its bytes: nothing for 0 where the base allows
it, one byte where the value is `sext(disp8) * n`, else four (R78.3, R83). -/
def dispSpelling (n : Nat) (base3 : BitVec 3) (d : BitVec 32) : BitVec 2 × List Byte :=
  let q := BitVec.ofInt 8 (d.toInt / (n : Int))
  if d = 0 ∧ base3 ≠ 5#3 then (0#2, [])
  else if q.signExtend 32 * BitVec.ofNat 32 n = d then (1#2, [q])
  else (2#2, dispBytes d)

/-- ModRM, SIB and displacement of a memory operand (R78), `n` the factor of an 8-bit
displacement. -/
def memBytes (m64 : Bool) (n : Nat) (reg : BitVec 3) (m : MemOperand) : List Byte :=
  match m.base, m.index with
  | .rip, _ => modrmByte 0#2 reg 5#3 :: dispBytes m.disp
  | .none, none =>
    if m64 then modrmByte 0#2 reg 4#3 :: sibByte 0#2 4#3 5#3 :: dispBytes m.disp
    else modrmByte 0#2 reg 5#3 :: dispBytes m.disp
  | .none, some ix =>
    modrmByte 0#2 reg 4#3 :: sibByte (BitVec.ofFin ix.scale) (low3 ix.reg) 5#3 :: dispBytes m.disp
  | .reg b, none =>
    let sp := dispSpelling n (low3 b) m.disp
    if low3 b = 4#3 then modrmByte sp.1 reg 4#3 :: sibByte 0#2 4#3 4#3 :: sp.2
    else modrmByte sp.1 reg (low3 b) :: sp.2
  | .reg b, some ix =>
    let sp := dispSpelling n (low3 b) m.disp
    modrmByte sp.1 reg 4#3 :: sibByte (BitVec.ofFin ix.scale) (low3 ix.reg) (low3 b) :: sp.2

/-- The extension bit of the base register (R78). -/
def MemOperand.bBit (m : MemOperand) : Bool :=
  match m.base with
  | .reg b => hi3 b
  | _ => false

/-- The extension bit of the index register (R78). -/
def MemOperand.xBit (m : MemOperand) : Bool :=
  match m.index with
  | some ix => hi3 ix.reg
  | none => false

/-- Extension bit `B` of operand `r/m` (R79). -/
def Src.bBit : Src → Bool
  | .reg n => hi3 n
  | .mem m => m.bBit

/-- Extension bit `X` of operand `r/m`: the index of a memory operand, bit 4 of a register of an
EVEX form (R79). -/
def Src.xBit : Src → Bool
  | .reg n => hi4 n
  | .mem m => m.xBit

/-- ModRM and what follows it, for an operand `r/m` of a vector form (R77). -/
def Src.bytes (m64 : Bool) (n : Nat) (reg : BitVec 3) : Src → List Byte
  | .reg s => [modrmByte 3#2 reg (low3 s)]
  | .mem m => memBytes m64 n reg m

/-- ModRM and what follows it, for operand `r/m` of the MMX form (R75, R77). -/
def MmxSrc.bytes (m64 : Bool) (reg : BitVec 3) : MmxSrc → List Byte
  | .reg s => [modrmByte 3#2 reg (low3 s)]
  | .mem m => memBytes m64 1 reg m

/-- A REX prefix where one of its bits is needed (R76, R79). -/
def rexBytes (r x b : Bool) : List Byte :=
  if r || x || b then [(4#4 ++ 0#1 ++ BitVec.ofBool r ++ BitVec.ofBool x ++ BitVec.ofBool b : BitVec 8)]
  else []

/-- The VEX prefix with the opcode `D5`, in two bytes where `X = B = 0` (R80). -/
def vexBytes (r x b l : Bool) (s1 : VReg) : List Byte :=
  let tail : BitVec 7 :=
    BitVec.ofBool (!hi3 s1) ++ ~~~ low3 s1 ++ BitVec.ofBool l ++ 1#2
  if x || b then
    [0xC4#8, (BitVec.ofBool (!r) ++ BitVec.ofBool (!x) ++ BitVec.ofBool (!b) ++ 1#5 : BitVec 8),
      (0#1 ++ tail : BitVec 8), 0xD5#8]
  else [0xC5#8, (BitVec.ofBool (!r) ++ tail : BitVec 8), 0xD5#8]

/-- The EVEX prefix with the opcode `D5` (R81), W = 0 and b = 0. -/
def evexBytes (d s1 : VReg) (x b : Bool) (ll : BitVec 2) (mask : KReg) (z : Bool) : List Byte :=
  [0x62#8,
    (BitVec.ofBool (!hi3 d) ++ BitVec.ofBool (!x) ++ BitVec.ofBool (!b) ++ BitVec.ofBool (!hi4 d)
      ++ 1#4 : BitVec 8),
    (0#1 ++ BitVec.ofBool (!hi3 s1) ++ ~~~ low3 s1 ++ 5#3 : BitVec 8),
    (BitVec.ofBool z ++ ll ++ 0#1 ++ BitVec.ofBool (!hi4 s1) ++ low3 mask : BitVec 8),
    0xD5#8]

/-- The address-size prefix where the operand needs it (R78). -/
def addrSizeBytes (m64 : Bool) : Option MemOperand → List Byte
  | some m => if m64 && m.addr32 then [0x67#8] else []
  | none => []

/-- The spelling of an instruction after the redundant or overriding segment prefixes. -/
def encodeBody (m64 : Bool) (i : Instr) : List Byte :=
  addrSizeBytes m64 i.memOperand ++
  match i with
  | .pmullwMmx64 d (.reg s) _ => [0x0F#8, 0xD5#8] ++ (MmxSrc.reg s).bytes m64 (low3 d)
  | .pmullwMmx64 d (.mem m) _ =>
    rexBytes false m.xBit m.bBit ++ [0x0F#8, 0xD5#8] ++ (MmxSrc.mem m).bytes m64 (low3 d)
  | .pmullwSse128 d (.reg s) _ =>
    [0x66#8] ++ rexBytes (hi3 d) false (hi3 s) ++ [0x0F#8, 0xD5#8]
      ++ (Src.reg s).bytes m64 1 (low3 d)
  | .pmullwSse128 d (.mem m) _ =>
    [0x66#8] ++ rexBytes (hi3 d) m.xBit m.bBit ++ [0x0F#8, 0xD5#8]
      ++ (Src.mem m).bytes m64 1 (low3 d)
  | .vpmullwVex128 d s1 s2 _ =>
    vexBytes (hi3 d) s2.xBit s2.bBit false s1 ++ s2.bytes m64 1 (low3 d)
  | .vpmullwVex256 d s1 s2 _ =>
    vexBytes (hi3 d) s2.xBit s2.bBit true s1 ++ s2.bytes m64 1 (low3 d)
  | .vpmullwEvex128 d s1 s2 k z _ =>
    evexBytes d s1 s2.xBit s2.bBit 0#2 k z ++ s2.bytes m64 16 (low3 d)
  | .vpmullwEvex256 d s1 s2 k z _ =>
    evexBytes d s1 s2.xBit s2.bBit 1#2 k z ++ s2.bytes m64 32 (low3 d)
  | .vpmullwEvex512 d s1 s2 k z _ =>
    evexBytes d s1 s2.xBit s2.bBit 2#2 k z ++ s2.bytes m64 64 (low3 d)

/-- The segment-override prefix of a segment (R78.5). -/
def overrideByte : SReg → Byte
  | .es => 0x26#8
  | .cs => 0x2E#8
  | .ss => 0x36#8
  | .ds => 0x3E#8
  | .fs => 0x64#8
  | .gs => 0x65#8

/-- The prefix that pads an instruction: the operand's segment, DS for a register operand. -/
def padByte (i : Instr) : Byte :=
  match i.memOperand with
  | some m => overrideByte m.seg
  | none => overrideByte .ds

/-- How many override prefixes the instruction needs: one where its segment is not the default. -/
def overrideNeeded (i : Instr) : Nat :=
  match i.memOperand with
  | some m => if m.seg = m.base.defaultSeg then 0 else 1
  | none => 0

/-- The bytes of a well-formed instruction, `i.len` of them. -/
def encode (m64 : Bool) (i : Instr) : List Byte :=
  List.replicate (i.len - (encodeBody m64 i).length) (padByte i) ++ encodeBody m64 i

/-- The length of the shortest spelling (30_encoding.md R86). -/
def minLen (m64 : Bool) (i : Instr) : Nat := (encodeBody m64 i).length + overrideNeeded i

end Sys2Proof
end

