-- ==== Sys2Proof/Machine/State.lean ====
section
/-!
DEFINITION. The state of the machine, as plain data, with every piece the spec names
(INVENTORY.md, State); the reasons to fault and to refuse; the state at the start of a run.
-/

namespace Sys2Proof.Machine

/-- The operating mode. The spec carries the one Boolean `Mode64` (10_state.md R29), which is
`mode64`; the exception tables of 60_exceptions.md R155 and R156 also consult real-address and
virtual-8086 mode; `protectedMode` is every other mode (log entry 26). -/
inductive Mode where
  | realAddress | virtual8086 | protectedMode | mode64
  deriving DecidableEq, Repr

/-- A segment register (10_state.md R25, 30_encoding.md R78.5). -/
structure Segment where
  base : Addr
  /-- The offsets that are an "illegal address" of this segment (60_exceptions.md R155), as
  half-open ranges: plain data for what the spec leaves to the platform (log entry 16). -/
  illegal : List (Nat × Nat)
  deriving DecidableEq, Repr

/-- The x87 fields that the MMX form leaves open (10_state.md R23, D5) and the pending exception
of 60_exceptions.md R158 (log entry 10). -/
structure X87 where
  tag : BitVec 16
  top : BitVec 3
  /-- Bits 79:64 of the eight data registers. -/
  high : Vector (BitVec 16) 8
  /-- An unmasked x87 floating-point exception is pending. -/
  pending : Bool
  deriving DecidableEq, Repr

/-- An exception that the parameter `Translate` may name (20_memory.md R60). PRESUMED, log entry 36:
the code of a page fault has 32 bits, where the spec does not say. -/
inductive XlateFault where
  | ss
  | gp
  | pf (code : BitVec 32)
  | ac
  deriving DecidableEq, Repr

/-- What a region of the parameter `Translate` is. -/
inductive RegionKind where
  /-- Ordinary memory at the locations from `loc` on. -/
  | ordinary (loc : Addr)
  /-- `Translate` names an exception (20_memory.md R60). -/
  | faulting (x : XlateFault)
  /-- Reads have side effects (20_memory.md R56). -/
  | device
  deriving DecidableEq, Repr

/-- At which privilege levels a region of `Translate` applies (60_exceptions.md R164). -/
inductive RegionScope where
  | always | user | supervisor
  deriving DecidableEq, Repr

/-- One region of the parameter `Translate`: `size` bytes of linear addresses from `base` on. -/
structure Region where
  base  : Addr
  size  : Nat
  scope : RegionScope
  kind  : RegionKind
  deriving DecidableEq, Repr

/-- Memory: (address, byte) pairs, in the canonical form of `Memory.wf` (Machine/Ops.lean). -/
abbrev Memory := List Host.Cell

/-- The state of the machine. -/
structure State where
  /-- The implementation's parameters (00_scope.md R6 to R9); no step changes them. -/
  cfg : Config
  /-- The operating mode (10_state.md R29). -/
  mode : Mode
  /-- The code segment is a 16-bit one (30_encoding.md R78). -/
  code16 : Bool
  /-- The current privilege level (10_state.md R28). -/
  cpl : BitVec 2
  /-- The address of the instruction being executed (10_state.md R26). -/
  pc : Addr
  /-- `V[0] .. V[31]` (10_state.md R20), MAXVL bits of each in use (log entry 3). -/
  vec : Vector (BitVec 512) 32
  /-- `MM[0] .. MM[7]` (10_state.md R23). -/
  mm : Vector (BitVec 64) 8
  /-- `K[0] .. K[7]` (10_state.md R24). -/
  kmask : Vector (BitVec 64) 8
  /-- RAX .. R15 (10_state.md R25). -/
  gpr : Vector (BitVec 64) 16
  /-- ES, CS, SS, DS, FS, GS (10_state.md R25). -/
  segs : Vector Segment 6
  /-- EFLAGS / RFLAGS (10_state.md R27, R28). -/
  rflags : BitVec 64
  /-- MXCSR (10_state.md R27): named by the spec, neither read nor written. -/
  mxcsr : BitVec 32
  /-- CR0 (10_state.md R28). -/
  cr0 : BitVec 64
  /-- CR2 (60_exceptions.md R154): written by nothing here, since a fault has no next state (log
  entry 25). -/
  cr2 : BitVec 64
  /-- CR4 (10_state.md R28). -/
  cr4 : BitVec 64
  /-- XCR0 (10_state.md R28). -/
  xcr0 : BitVec 64
  /-- The x87 fields (10_state.md R23). -/
  x87 : X87
  /-- The parameter `Translate` (20_memory.md R60, R56): the first region that holds an address
  decides; an address in none is ordinary memory at its own location (log entry 15). -/
  xlate : List Region
  /-- Memory (20_memory.md R50), the program's bytes among it (R59). -/
  mem : Memory
  /-- THE MODEL'S OWN FIELD: how many times the MMX form has drawn free values for the x87 fields
  (log entry 10). -/
  draws : Nat
  deriving DecidableEq, Repr

/-- The exceptions (60_exceptions.md R154). Each is raised by a form of the instruction (or by its
illegal encoding), as R153, R155, R156 and R158 say, and ends the run with nothing changed (R157).
All are safe: the spec describes no handler, so the model stops where the machine would go on in
one (decision D15). -/
inductive Fault where
  /-- `#UD`, vector 6: raised by the decoder and by every form. Safe. -/
  | invalidOpcode
  /-- `#NM`, vector 7: raised by every form when CR0.TS is set. Safe. -/
  | deviceNotAvailable
  /-- `#SS(0)`, vector 12: raised by a memory operand. Safe. -/
  | stackSegment
  /-- `#GP(0)`, vector 13: raised by a memory operand. Safe. -/
  | generalProtection
  /-- `#PF(code)`, vector 14: raised by a memory operand; `addr` is the faulting linear address
  that CR2 records. Safe. PRESUMED, log entry 36: `code` has 32 bits, where the spec does not say. -/
  | pageFault (code : BitVec 32) (addr : Addr)
  /-- `#MF`, vector 16: raised by the MMX form. Safe. -/
  | x87FloatingPoint
  /-- `#AC(0)`, vector 17: raised by a memory operand. Safe. -/
  | alignmentCheck
  deriving DecidableEq, Repr

/-- Why a step is refused: the spec gives the bytes or the situation no meaning (00_scope.md R15).
All are safe: the model stops where the machine may go on. -/
inductive Refusal where
  /-- An instruction of the opcode table without a meaning: raised by `exec` alone, for none now.
  Safe. -/
  | notModelled (mnemonic : String)
  /-- The bytes are no form of this instruction (00_scope.md R5, 30_encoding.md R87, D23): raised
  by the fetch. Safe. -/
  | otherInstruction
  /-- `0F D5` preceded by `F2` or `F3` (R87, D28): raised by the fetch. Safe. -/
  | repeatPrefix
  /-- 16-bit addressing (R78, R87, D27): raised by the fetch. Safe. -/
  | address16
  /-- An extension bit that names a register above 7 outside 64-bit mode (R80, R81, D23): raised
  by the fetch. Safe. -/
  | extensionOutside64
  /-- EVEX with P0 bit 3 set or P1 bit 2 clear (R81, D23): raised by the fetch. Safe. -/
  | evexFixedBits
  /-- More than 15 bytes (R86): raised by the fetch. Safe. -/
  | tooLong
  /-- The instruction's bytes reach the top of the address space (10_state.md R26, D6): raised by
  the fetch. Safe. -/
  | pcWraps
  /-- A memory operand in a region whose reads have side effects (20_memory.md R56, D25): raised
  by a memory operand. Safe. -/
  | sideEffectMemory
  deriving DecidableEq, Repr

/-- What ends an execution without a next state (00_scope.md R15). -/
inductive Stop where
  | fault (f : Fault)
  | refuse (r : Refusal)
  deriving DecidableEq, Repr

/-- The parameters at the start of a run: every feature, `MAXVL = 512` (the conventions of
95_test_vectors.md). DESIGN CHOICE, log entries 2, 13, 14. -/
def Config.atReset : Config where
  maxvl := .w512
  features := ⟨true, true, true, true, true, true, true⟩
  faultSuppression := true
  canonBits := 48
  acVex := none
  acEvex := none

/-- The state at the start of a run. The spec gives no reset value (10_state.md R33): each value
is named in log entry 2, 5, 6, 7, 10, 13, 14, 15, 16 or 19. -/
def State.reset : State where
  cfg := Config.atReset
  mode := .mode64
  code16 := false
  cpl := 0
  pc := 0x0000FFF0
  vec := Vector.replicate 32 0
  mm := Vector.replicate 8 0
  kmask := Vector.replicate 8 0
  gpr := Vector.replicate 16 0
  segs := #v[⟨0, []⟩, ⟨0xFFFF0000, []⟩, ⟨0, []⟩, ⟨0, []⟩, ⟨0, []⟩, ⟨0, []⟩]
  rflags := 0x2
  mxcsr := 0x1F80
  cr0 := 0x60000010
  cr2 := 0
  cr4 := 0x40200
  xcr0 := 0xE7
  x87 := ⟨0x5555, 0, Vector.replicate 8 0, false⟩
  xlate := []
  mem := []
  draws := 0

end Sys2Proof.Machine
end

