-- ==== Sys2Proof/Machine/Flags.lean ====
section
/-!
DEFINITION. Flags and control bits. The instruction affects no flag (10_state.md R27, 40_lane_arithmetic.md
R114: "Flags Affected None."), so there is no flag computation; the bits here are the ones the
exception conditions consult (10_state.md R28, GK20).
-/

namespace Sys2Proof.Machine

/-- 64-bit mode, the spec's `Mode64` (10_state.md R29). -/
def State.mode64 (s : State) : Bool := s.mode == .mode64

/-- Real-address or virtual-8086 mode (60_exceptions.md R155). -/
def State.real (s : State) : Bool := s.mode == .realAddress || s.mode == .virtual8086

/-- CR0.EM, bit 2. -/
def State.cr0EM (s : State) : Bool := s.cr0.getLsbD 2

/-- CR0.TS, bit 3. -/
def State.cr0TS (s : State) : Bool := s.cr0.getLsbD 3

/-- CR0.AM, bit 18. -/
def State.cr0AM (s : State) : Bool := s.cr0.getLsbD 18

/-- CR4.OSFXSR, bit 9. -/
def State.cr4OSFXSR (s : State) : Bool := s.cr4.getLsbD 9

/-- CR4.OSXSAVE, bit 18. -/
def State.cr4OSXSAVE (s : State) : Bool := s.cr4.getLsbD 18

/-- XCR0[2:1] = 11b: SSE and AVX state. -/
def State.xcr0Avx (s : State) : Bool := s.xcr0.extractLsb' 1 2 == 3#2

/-- XCR0[7:5] = 111b: opmask, ZMM_Hi256 and Hi16_ZMM state. -/
def State.xcr0Avx512 (s : State) : Bool := s.xcr0.extractLsb' 5 3 == 7#3

/-- EFLAGS.AC, bit 18. -/
def State.flagAC (s : State) : Bool := s.rflags.getLsbD 18

/-- Alignment checking is enabled: CR0.AM = 1, EFLAGS.AC = 1 and CPL = 3 (20_memory.md R54). -/
def State.alignmentChecking (s : State) : Bool := s.cr0AM && s.flagAC && s.cpl == 3

end Sys2Proof.Machine
end

