-- ==== Sys2Proof/Machine/Ops.lean ====
section
/-!
DEFINITION. The named operations over memory and registers, and the raising of an exception.
-/

namespace Sys2Proof.Machine

/-! ## Outcomes and exceptions -/

/-- TAKING AN EXCEPTION: `raise #XX(code)` ends the instruction with the outcome `Fault(#XX, code)`
and no change to any state (00_scope.md R14, 60_exceptions.md R157). The spec describes neither an
entry (R161) nor a return (R162), so there is no next state. -/
def raise {α : Type} (f : Fault) : Except Stop α := .error (.fault f)

/-- The outcome of an execution (00_scope.md R15). -/
def outcome : Except Stop State → Host.Outcome State Fault Refusal
  | .ok s => .next s
  | .error (.fault f) => .fault f
  | .error (.refuse r) => .refused r

/-- The vector number of an exception (60_exceptions.md R154). -/
def vectorOf : Fault → Nat
  | .invalidOpcode => 6
  | .deviceNotAvailable => 7
  | .stackSegment => 12
  | .generalProtection => 13
  | .pageFault _ _ => 14
  | .x87FloatingPoint => 16
  | .alignmentCheck => 17

/-- The error code of an exception, if it has one (60_exceptions.md R154). PRESUMED, log entry 36:
a code has 32 bits, where the spec does not say. -/
def errorCodeOf : Fault → Option (BitVec 32)
  | .stackSegment | .generalProtection | .alignmentCheck => some 0
  | .pageFault code _ => some code
  | .invalidOpcode | .deviceNotAvailable | .x87FloatingPoint => none

/-- What a decoding error does: `#UD` is raised, the rest is refused by name (30_encoding.md R87).
Bytes that end too early (`window` of them were there) ran into the 15-byte limit (R86) or into
the top of the address space (10_state.md R26). -/
def decodeStop (window : Nat) : DecodeError → Stop
  | .invalidOpcode => .fault .invalidOpcode
  | .otherInstruction => .refuse .otherInstruction
  | .repeatPrefix => .refuse .repeatPrefix
  | .address16 => .refuse .address16
  | .extensionOutside64 => .refuse .extensionOutside64
  | .evexFixedBits => .refuse .evexFixedBits
  | .tooLong => .refuse .tooLong
  | .truncated => .refuse (if window < 15 then .pcWraps else .tooLong)

/-! ## Memory -/

/-- What a byte that nothing has written reads as. DESIGN CHOICE, log entry 7. -/
def unlistedByte : Byte := 0

/-- The canonical form: addresses strictly rising and below `2^64`, no entry equal to what an
unlisted address reads as. -/
def Memory.wf : Memory → Bool
  | [] => true
  | [(a, b)] => a < 2 ^ 64 && b != unlistedByte
  | (a, b) :: (a', b') :: rest =>
    a < a' && b != unlistedByte && Memory.wf ((a', b') :: rest)

/-- The byte at a location (20_memory.md R50). -/
def Memory.read : Memory → Nat → Byte
  | [], _ => unlistedByte
  | (a', b) :: rest, a => if a' = a then b else Memory.read rest a

/-- An entry put before a tail, left out where it says nothing. -/
def Memory.cons (a : Nat) (b : Byte) (rest : Memory) : Memory :=
  if b = unlistedByte then rest else (a, b) :: rest

/-- One byte written, the canonical form kept. -/
def Memory.write : Memory → Nat → Byte → Memory
  | [], a, b => Memory.cons a b []
  | (a', b') :: rest, a, b =>
    if a < a' then Memory.cons a b ((a', b') :: rest)
    else if a = a' then Memory.cons a b rest
    else (a', b') :: Memory.write rest a b

/-- Bytes written at rising addresses: `MemWrite` (00_scope.md R13), which no form uses
(20_memory.md R51); the launch of a program uses it (log entry 8). -/
def Memory.writeBytes : Memory → Nat → List Byte → Memory
  | m, _, [] => m
  | m, a, b :: bs => Memory.writeBytes (m.write a b) (a + 1) bs

/-- `n` bytes as one value, little-endian (20_memory.md R53, D7): byte `i` in bits `8i+7 : 8i`. -/
def packBytes (w : Nat) (f : Nat → Byte) : Nat → BitVec w
  | 0 => 0
  | n + 1 => packBytes w f n ||| (f n).setWidth w <<< (8 * n)

/-! ## Registers -/

/-- `V[n]` (00_scope.md R12). -/
def State.getV (s : State) (n : VReg) : BitVec 512 := s.vec[n]

/-- `V[n] <- v`, all of its bits. -/
def State.setV (s : State) (n : VReg) (v : BitVec 512) : State := { s with vec := s.vec.set n v }

/-- `V[n][w-1:0]` (00_scope.md R12). -/
def State.readV (s : State) (w : Nat) (n : VReg) : BitVec w := (s.getV n).setWidth w

/-- `V[n][w-1:0] <- v` and `V[n][MAXVL-1:w] <- 0` (42_vpmullw_vex.md R130, R131, 43_vpmullw_evex.md
R140). -/
def State.writeZeroing (s : State) (n : VReg) {w : Nat} (v : BitVec w) : State :=
  s.setV n (v.setWidth 512)

/-- `V[n][127:0] <- v`, the bits above unchanged (41_pmullw_legacy.md R121, 90_conflicts.md C3). -/
def State.writeLow (s : State) (n : VReg) (v : BitVec 128) : State :=
  s.setV n ((s.getV n).extractLsb' 128 384 ++ v : BitVec 512)

/-- `MM[n]`. -/
def State.getMM (s : State) (n : MReg) : BitVec 64 := s.mm[n]

/-- `MM[n] <- v`. -/
def State.setMM (s : State) (n : MReg) (v : BitVec 64) : State := { s with mm := s.mm.set n v }

/-- `K[n]`. -/
def State.getK (s : State) (n : KReg) : BitVec 64 := s.kmask[n]

/-- General register `n` (10_state.md R25). -/
def State.getG (s : State) (n : GReg) : BitVec 64 := s.gpr[n]

/-- A segment register. -/
def State.getSeg (s : State) (sg : SReg) : Segment := s.segs[sg.num]

/-- The x87 fields after the MMX form has written `MM[d]`: tag word, top-of-stack and the high
bits of the register that aliases `MM[d]` are free values (10_state.md R23, decision D5, U9; log
entry 10). -/
def State.drawX87 (s : State) (d : MReg) : State :=
  { s with
    x87 :=
      { s.x87 with
        tag := Config.freeX87Tag s.draws
        top := Config.freeX87Top s.draws
        high := s.x87.high.set d (Config.freeX87High s.draws) }
    draws := s.draws + 1 }

/-! ## Addresses and the program counter -/

/-- The address width `AW` (20_memory.md R50). -/
def State.addrBits (s : State) : Nat := if s.mode64 then 64 else 32

/-- The low 32 bits, zero-extended. -/
def low32 (a : Addr) : Addr := (a.setWidth 32).setWidth 64

/-- An address cut to `AW` bits (20_memory.md R50; log entry 17). -/
def State.linear (s : State) (a : Addr) : Addr := if s.mode64 then a else low32 a

/-- `pc <- pc + len` (10_state.md R26). -/
def State.advance (s : State) (len : Nat) : State :=
  { s with pc := s.linear (s.pc + BitVec.ofNat 64 len) }

end Sys2Proof.Machine
end

