-- ==== Sys2Proof/Machine/Exceptions.lean ====
section
/-!
DEFINITION. The part of the parameter `ExcCond` that does not look at the memory operand
(60_exceptions.md R152 to R158, the suggested instantiation; log entry 11): classes 1 to 3 of the
priority order of R159.
-/

namespace Sys2Proof.Machine

/-- The CPUID condition of a form (00_scope.md R8). -/
def featureOk (f : Form) (c : Features) : Bool :=
  match f with
  | .mmx64 => c.mmx
  | .sse128 => c.sse2
  | .vex128 => c.avx
  | .vex256 => c.avx2
  | .evex128 | .evex256 => (c.avx512vl && c.avx512bw) || c.avx10_1
  | .evex512 => c.avx512bw || c.avx10_1

/-- A form is available: its CPUID condition holds (R8) and a vector form has `VL ≤ MAXVL`
(00_scope.md R6). -/
def available (f : Form) (c : Config) : Bool :=
  featureOk f c.features && (f == .mmx64 || f.vl ≤ c.maxvl.bits)

/-- The `#UD` conditions of mode and control registers (60_exceptions.md R155, R156, R158). -/
def controlUD (f : Form) (s : State) : Bool :=
  match f with
  | .mmx64 => s.cr0EM
  | .sse128 => s.cr0EM || !s.cr4OSFXSR
  | .vex128 | .vex256 => s.real || !s.cr4OSXSAVE || !s.xcr0Avx
  | .evex128 | .evex256 | .evex512 => s.real || !s.cr4OSXSAVE || !s.xcr0Avx || !s.xcr0Avx512

/-- The first exception that applies before the memory operand is looked at (R159, classes 1 to
3): `#UD`, then `#NM`, then, for the MMX form, `#MF`. A refusal of the bytes came before these (log
entry 33). -/
def excCond (f : Form) (s : State) : Option Fault :=
  if !available f s.cfg || controlUD f s then some .invalidOpcode
  else if s.cr0TS then some .deviceNotAvailable
  else if f == .mmx64 && s.x87.pending then some .x87FloatingPoint
  else none

end Sys2Proof.Machine
end

