-- ==== Sys2Proof/Machine/Operands.lean ====
section
/-!
DEFINITION. Operand `r/m`: the effective address (30_encoding.md R78, the suggested instantiation
of `EffAddr`, 20_memory.md R61), the checks on it in the order of 60_exceptions.md R159, and the
read (20_memory.md R52, R53, R60).
-/

namespace Sys2Proof.Machine

/-! ## The effective address -/

/-- The base of an addressing form; the instruction pointer is that of the next instruction
(30_encoding.md R78.1). -/
def baseValue (b : Base) (len : Nat) (s : State) : Addr :=
  match b with
  | .none => 0
  | .rip => s.pc + BitVec.ofNat 64 len
  | .reg r => s.getG r

/-- `index * 2^scale` (R78.4). -/
def indexValue (ix : Option Index) (s : State) : Addr :=
  match ix with
  | none => 0
  | some i => s.getG i.reg <<< i.scale.val

/-- `offset = base + index * 2^scale + disp`, cut to the address size (R78.4). The displacement is
sign-extended, as R78.1 and R78.3 say of the address of the next instruction and of `mod` 01 and 10;
PRESUMED of a SIB byte without base (R78.2), where R78 does not say, log entry 32. -/
def memOffset (m : MemOperand) (len : Nat) (s : State) : Addr :=
  let o := baseValue m.base len s + indexValue m.index s + m.disp.signExtend 64
  if m.addr32 then low32 o else o

/-- The base of a segment; in 64-bit mode those of CS, DS, ES and SS are zero (R78.5). -/
def segmentBase (sg : SReg) (s : State) : Addr :=
  if s.mode64 && sg != .fs && sg != .gs then 0 else (s.getSeg sg).base

/-- `ea = segment base + offset`, the linear address of the operand's first byte (R78.5). -/
def effAddr (m : MemOperand) (len : Nat) (s : State) : Addr :=
  s.linear (segmentBase m.seg s + memOffset m len s)

/-- The linear address of byte `i` of an operand at `ea` (00_scope.md R13; log entry 17). -/
def byteAddr (s : State) (ea : Addr) (i : Nat) : Addr := s.linear (ea + BitVec.ofNat 64 i)

/-! ## Address checks -/

/-- A canonical address: the sign extension of its low `n` bits (20_memory.md R62; log entry
14). -/
def canonical (n : Nat) (a : Addr) : Bool := (a.setWidth n).signExtend 64 == a

/-- An "illegal address" in a segment (60_exceptions.md R155; log entry 16): some byte's offset is
in an illegal range. -/
def offsetIllegal (sg : Segment) (off : Nat) : Bool :=
  sg.illegal.any fun r => r.1 ≤ off && off < r.2

/-- Byte `i` of the operand has an illegal offset in the segment or, in 64-bit mode, a
non-canonical address (60_exceptions.md R155, R156). DESIGN CHOICE, log entry 35: the offset of the
byte wraps modulo `2^AW`, where the spec does not say. -/
def byteIllegal (m : MemOperand) (len : Nat) (s : State) (i : Nat) : Bool :=
  offsetIllegal (s.getSeg m.seg) (s.linear (memOffset m len s + BitVec.ofNat 64 i)).toNat ||
    (s.mode64 && !canonical s.cfg.canonBits (byteAddr s (effAddr m len s) i))

/-- In real-address and virtual-8086 mode byte `i` lies outside offsets 0 to 0xFFFF
(60_exceptions.md R155). -/
def byteBeyond64K (m : MemOperand) (len : Nat) (s : State) (i : Nat) : Bool :=
  s.real && 0xFFFF < (memOffset m len s).toNat + i

/-- The legacy 128-bit form needs `ea mod 16 = 0` (20_memory.md R54, D8). -/
def misaligned16 (f : Form) (m : MemOperand) (len : Nat) (s : State) : Bool :=
  f == .sse128 && (effAddr m len s).toNat % 16 != 0

/-- The alignment that `#AC(0)` checks (20_memory.md R54): 8 for the MMX form, nothing for the
legacy 128-bit form, the parameters of log entry 13 for VEX and EVEX. -/
def acAlignment (f : Form) (c : Config) : Option Nat :=
  match f with
  | .mmx64 => some 8
  | .sse128 => none
  | .vex128 | .vex256 => c.acVex
  | .evex128 | .evex256 | .evex512 => c.acEvex

/-- `#AC(0)` from the alignment of the operand (20_memory.md R54). -/
def misalignedAC (f : Form) (m : MemOperand) (len : Nat) (s : State) : Bool :=
  match acAlignment f s.cfg with
  | none => false
  | some n => s.alignmentChecking && (effAddr m len s).toNat % n != 0

/-! ## The parameter `Translate` -/

/-- A region's scope takes in the current privilege level (60_exceptions.md R164). -/
def RegionScope.applies (sc : RegionScope) (cpl : BitVec 2) : Bool :=
  match sc with
  | .always => true
  | .user => cpl == 3
  | .supervisor => cpl != 3

/-- A region holds a linear address. -/
def Region.holds (r : Region) (cpl : BitVec 2) (a : Addr) : Bool :=
  r.scope.applies cpl && (a - r.base).toNat < r.size

/-- What `Translate` says of one byte. -/
inductive ByteAccess where
  /-- The byte stands at this location. -/
  | location (loc : Addr)
  | faulting (x : XlateFault)
  | device
  deriving DecidableEq, Repr

/-- `Translate` of one byte (20_memory.md R60): the first region that holds the address, else the
address itself. DESIGN CHOICE, log entry 34: a location that a region gives has 64 bits in every mode,
and is not cut to `AW` bits outside 64-bit mode, where the spec does not say. -/
def translateByte (s : State) (a : Addr) : ByteAccess :=
  match s.xlate.find? fun r => r.holds s.cpl a with
  | none => .location a
  | some r =>
    match r.kind with
    | .ordinary loc => .location (loc + (a - r.base))
    | .faulting x => .faulting x
    | .device => .device

/-- `Translate` names `#SS(0)` or `#GP(0)` for the byte at `a`. -/
def xlateAddressFault (s : State) (a : Addr) : Option Fault :=
  match translateByte s a with
  | .faulting .ss => some .stackSegment
  | .faulting .gp => some .generalProtection
  | _ => none

/-- `Translate` names `#PF(code)` for the byte at `a`. -/
def xlatePageFault (s : State) (a : Addr) : Option Fault :=
  match translateByte s a with
  | .faulting (.pf code) => some (.pageFault code a)
  | _ => none

/-- `Translate` names `#AC(0)` for the byte at `a`. -/
def xlateAlignmentFault (s : State) (a : Addr) : Bool := translateByte s a == .faulting .ac

/-- The byte at `a` is in a region whose reads have side effects (20_memory.md R56). -/
def isDevice (s : State) (a : Addr) : Bool := translateByte s a == .device

/-- The byte that a read of linear address `a` gives. -/
def byteAt (s : State) (a : Addr) : Byte :=
  match translateByte s a with
  | .location loc => s.mem.read loc.toNat
  | _ => unlistedByte

/-! ## The checks in the order of R159, and the read -/

/-- The exception of a bad address (60_exceptions.md R155): `#SS(0)` in the stack segment, else
`#GP(0)`. -/
def addressFault (m : MemOperand) : Fault :=
  if m.seg = .ss then .stackSegment else .generalProtection

/-- Class 4 of R159: `#SS(0)` or `#GP(0)` for the bytes `acc` of the operand (log entry 12). -/
def segmentFault (f : Form) (m : MemOperand) (len : Nat) (s : State) (acc : List Nat) :
    Option Fault :=
  if acc.any (byteIllegal m len s) then some (addressFault m)
  else if acc.any (byteBeyond64K m len s) then some .generalProtection
  else if misaligned16 f m len s then some .generalProtection
  else acc.findSome? fun i => xlateAddressFault s (byteAddr s (effAddr m len s) i)

/-- Class 5 of R159: `#PF(code)`, that of the lowest byte of `acc` (log entry 12). -/
def pageFaultOf (m : MemOperand) (len : Nat) (s : State) (acc : List Nat) : Option Fault :=
  acc.findSome? fun i => xlatePageFault s (byteAddr s (effAddr m len s) i)

/-- Class 6 of R159: `#AC(0)`. DEDUCED, log entry 22: where no byte is accessed no alignment is
asked. -/
def alignmentFault (f : Form) (m : MemOperand) (len : Nat) (s : State) (acc : List Nat) :
    Option Fault :=
  if (misalignedAC f m len s && !acc.isEmpty) ||
      acc.any (fun i => xlateAlignmentFault s (byteAddr s (effAddr m len s) i)) then
    some .alignmentCheck
  else none

/-- The exception of the memory operand, classes 4 to 6 of R159. -/
def memFault (f : Form) (m : MemOperand) (len : Nat) (s : State) (acc : List Nat) : Option Fault :=
  match segmentFault f m len s acc with
  | some e => some e
  | none =>
    match pageFaultOf m len s acc with
    | some e => some e
    | none => alignmentFault f m len s acc

/-- All `VL / 8` bytes of the operand (20_memory.md R52). -/
def allBytes (f : Form) : List Nat := List.range f.bytes

/-- Some byte of the operand, whether its lane is selected or not, is in a region whose reads have
side effects (20_memory.md R56, R66). -/
def operandInDevice (f : Form) (m : MemOperand) (len : Nat) (s : State) : Bool :=
  (allBytes f).any fun i => isDevice s (byteAddr s (effAddr m len s) i)

/-- `MemRead(ea, VL/8)` (00_scope.md R13, 20_memory.md R53, R56, R60): the checks, then the bytes
`acc`, little-endian; a byte outside `acc` is not read (43_vpmullw_evex.md R141). -/
def loadOperand (w : Nat) (f : Form) (m : MemOperand) (len : Nat) (s : State) (acc : List Nat) :
    Except Stop (BitVec w) :=
  match memFault f m len s acc with
  | some e => raise e
  | none =>
    if operandInDevice f m len s then
      .error (.refuse .sideEffectMemory)
    else
      .ok (packBytes w
        (fun i => if i ∈ acc then byteAt s (byteAddr s (effAddr m len s) i) else unlistedByte)
        f.bytes)

/-- The second source of a vector form: a register or the memory operand (30_encoding.md R77). -/
def readSrc (w : Nat) (f : Form) (src : Src) (len : Nat) (s : State) (acc : List Nat) :
    Except Stop (BitVec w) :=
  match src with
  | .reg n => .ok (s.readV w n)
  | .mem m => loadOperand w f m len s acc

/-- The source of the MMX form (41_pmullw_legacy.md R120). -/
def readMmxSrc (src : MmxSrc) (len : Nat) (s : State) : Except Stop (BitVec 64) :=
  match src with
  | .reg n => .ok (s.getMM n)
  | .mem m => loadOperand 64 .mmx64 m len s (allBytes .mmx64)

/-! ## One execution -/

/-- The frame of every meaning: the exceptions of classes 1 to 3 (R159), the second source, then
the write `k` of the destination from it, then the program counter (10_state.md R26). Nothing has
changed when the outcome is no next state (60_exceptions.md R157). -/
def execute {w : Nat} (f : Form) (len : Nat) (s : State) (src : Except Stop (BitVec w))
    (k : BitVec w → State) : Host.Outcome State Fault Refusal :=
  match excCond f s with
  | some e => outcome (raise e)
  | none =>
    match src with
    | .error st => outcome (.error st)
    | .ok y => outcome (.ok ((k y).advance len))

end Sys2Proof.Machine
end

