-- ==== Sys2Proof/Machine/Evex.lean ====
section
/-!
DEFINITION. The EVEX-encoded forms with write-masking (43_vpmullw_evex.md).
-/

namespace Sys2Proof.Machine

/-- Lane `j` is selected: there is no write-mask (mask 0) or bit `j` of the mask register is 1
(43_vpmullw_evex.md R140, 10_state.md R24). -/
def laneSelected (mask : KReg) (s : State) (j : Nat) : Bool :=
  mask == 0 || (s.getK mask).getLsbD j

/-- The bytes of the memory operand that are checked and read (43_vpmullw_evex.md R141): under
`FaultSuppression` those of the selected lanes, else all. DEDUCED, log entry 22: this narrows every
exception of the operand, the address checks included. -/
def accessedBytes (f : Form) (mask : KReg) (s : State) : List Nat :=
  if s.cfg.faultSuppression then (allBytes f).filter fun i => laneSelected mask s (i / 2)
  else allBytes f

/-- `EVEX_PMULLW(VL, d, s1, s2, mask, z)` (43_vpmullw_evex.md R140) at `VL = w`; `z` without a
write-mask is `#UD` (30_encoding.md R87). -/
def evexPmullw (w : Nat) (f : Form) (d s1 : VReg) (s2 : Src) (mask : KReg) (z : Bool) (len : Nat)
    (s : State) : Host.Outcome State Fault Refusal :=
  if z && mask == 0 then outcome (raise .invalidOpcode)
  else
    execute f len s (readSrc w f s2 len s (accessedBytes f mask s)) fun y =>
      s.writeZeroing d (pmullwMasked (laneSelected mask s) z (s.readV w d) (s.readV w s1) y)

/-- `VPMULLW xmm1 {k1}{z}, xmm2, xmm3/m128` (43_vpmullw_evex.md R142). -/
def execVpmullwEvex128 (d s1 : VReg) (s2 : Src) (mask : KReg) (z : Bool) (len : Nat) (s : State) :
    Host.Outcome State Fault Refusal :=
  evexPmullw 128 .evex128 d s1 s2 mask z len s

/-- `VPMULLW ymm1 {k1}{z}, ymm2, ymm3/m256` (43_vpmullw_evex.md R143). -/
def execVpmullwEvex256 (d s1 : VReg) (s2 : Src) (mask : KReg) (z : Bool) (len : Nat) (s : State) :
    Host.Outcome State Fault Refusal :=
  evexPmullw 256 .evex256 d s1 s2 mask z len s

/-- `VPMULLW zmm1 {k1}{z}, zmm2, zmm3/m512` (43_vpmullw_evex.md R144). -/
def execVpmullwEvex512 (d s1 : VReg) (s2 : Src) (mask : KReg) (z : Bool) (len : Nat) (s : State) :
    Host.Outcome State Fault Refusal :=
  evexPmullw 512 .evex512 d s1 s2 mask z len s

end Sys2Proof.Machine
end

