-- ==== Sys2Proof/Machine/Legacy.lean ====
section
/-!
DEFINITION. The forms encoded without VEX or EVEX (41_pmullw_legacy.md).
-/

namespace Sys2Proof.Machine

/-- `PMULLW mm, mm/m64` (41_pmullw_legacy.md R120): four lanes; the x87 fields are drawn
(decision D5). -/
def execPmullwMmx64 (d : MReg) (s2 : MmxSrc) (len : Nat) (s : State) :
    Host.Outcome State Fault Refusal :=
  execute .mmx64 len s (readMmxSrc s2 len s) fun y =>
    (s.setMM d (pmullw (s.getMM d) y)).drawX87 d

/-- `PMULLW xmm1, xmm2/m128` (41_pmullw_legacy.md R121): eight lanes, the bits above 127 of the
destination unchanged. -/
def execPmullwSse128 (d : VReg) (s2 : Src) (len : Nat) (s : State) :
    Host.Outcome State Fault Refusal :=
  execute .sse128 len s (readSrc 128 .sse128 s2 len s (allBytes .sse128)) fun y =>
    s.writeLow d (pmullw (s.readV 128 d) y)

end Sys2Proof.Machine
end

