-- ==== Sys2Proof/Machine/Vex.lean ====
section
/-!
DEFINITION. The VEX-encoded forms (42_vpmullw_vex.md).
-/

namespace Sys2Proof.Machine

/-- The operation of both VEX forms at `VL = w`: the product of the sources, the bits above `VL`
zeroed (42_vpmullw_vex.md R130, R131). -/
def vexPmullw (w : Nat) (f : Form) (d s1 : VReg) (s2 : Src) (len : Nat) (s : State) :
    Host.Outcome State Fault Refusal :=
  execute f len s (readSrc w f s2 len s (allBytes f)) fun y =>
    s.writeZeroing d (pmullw (s.readV w s1) y)

/-- `VPMULLW xmm1, xmm2, xmm3/m128` (42_vpmullw_vex.md R130). -/
def execVpmullwVex128 (d s1 : VReg) (s2 : Src) (len : Nat) (s : State) :
    Host.Outcome State Fault Refusal :=
  vexPmullw 128 .vex128 d s1 s2 len s

/-- `VPMULLW ymm1, ymm2, ymm3/m256` (42_vpmullw_vex.md R131; the zeroing is the spec's decision
D20, log entry 23). -/
def execVpmullwVex256 (d s1 : VReg) (s2 : Src) (len : Nat) (s : State) :
    Host.Outcome State Fault Refusal :=
  vexPmullw 256 .vex256 d s1 s2 len s

end Sys2Proof.Machine
end

