-- ==== Sys2Proof/Machine/Dispatch.lean ====
section
/-!
DEFINITION. One arm per constructor of `Instr`, each one direct call of the instruction's meaning.
-/

namespace Sys2Proof.Machine

def exec (i : Instr) (s : State) : Host.Outcome State Fault Refusal :=
  match i with
  | .pmullwMmx64 d s2 len => Sys2Proof.Machine.execPmullwMmx64 d s2 len s
  | .pmullwSse128 d s2 len => Sys2Proof.Machine.execPmullwSse128 d s2 len s
  | .vpmullwVex128 d s1 s2 len => Sys2Proof.Machine.execVpmullwVex128 d s1 s2 len s
  | .vpmullwVex256 d s1 s2 len => Sys2Proof.Machine.execVpmullwVex256 d s1 s2 len s
  | .vpmullwEvex128 d s1 s2 mask z len => Sys2Proof.Machine.execVpmullwEvex128 d s1 s2 mask z len s
  | .vpmullwEvex256 d s1 s2 mask z len => Sys2Proof.Machine.execVpmullwEvex256 d s1 s2 mask z len s
  | .vpmullwEvex512 d s1 s2 mask z len => Sys2Proof.Machine.execVpmullwEvex512 d s1 s2 mask z len s

end Sys2Proof.Machine
end

