-- ==== Sys2Proof/Machine/Fetch.lean ====
section
/-!
DEFINITION. Fetching the instruction at `pc` (10_state.md R26, 30_encoding.md R85, R86): its bytes
stand in memory at `pc`, untranslated (20_memory.md R59, 60_exceptions.md R159; log entry 9).
-/

namespace Sys2Proof.Machine

/-- How many bytes the decoder may look at: 15 (R86), fewer before the top of the address space
(10_state.md R26, D6). -/
def windowSize (s : State) : Nat := min 15 (2 ^ s.addrBits - s.pc.toNat)

/-- The bytes at `pc`, in increasing address order (20_memory.md R53). -/
def fetchWindow (s : State) : List Byte :=
  (List.range (windowSize s)).map fun i => s.mem.read (s.pc.toNat + i)

/-- The decoded instruction at `pc`; one that reaches the top of the address space is refused
(10_state.md R26, D6; log entry 20). DESIGN CHOICE: these refusals and the decoder's come before the
exceptions of an execution, the `#UD` of features, mode and control registers among them, where the
spec gives no order, log entry 33. -/
def fetch (s : State) : Except Stop Instr :=
  match decode s.mode64 s.code16 (fetchWindow s) with
  | .error e => .error (decodeStop (windowSize s) e)
  | .ok i => if 2 ^ s.addrBits ≤ s.pc.toNat + i.len then .error (.refuse .pcWraps) else .ok i

end Sys2Proof.Machine
end

