-- ==== Sys2Proof/Machine/Step.lean ====
section
/-!
DEFINITION. One step: execute the instruction at `pc` (00_scope.md R17).
-/

namespace Sys2Proof.Machine

/-- Fetch, decode and execute the instruction at `pc`. What the fetch refuses is refused before any
exception condition of the form is looked at (DESIGN CHOICE, log entry 33). -/
def step (s : State) : Host.Outcome State Fault Refusal :=
  match fetch s with
  | .error st => outcome (.error st)
  | .ok i => exec i s

/-- `s` with a word of the opcode table, and zeros above it up to the longest instruction, stored
where `step` fetches (log entry 8). -/
def State.withFetchWord (s : State) (nbits w : Nat) : State :=
  { s with mem := s.mem.writeBytes s.pc.toNat ((tableBytes nbits w).take (windowSize s)) }

end Sys2Proof.Machine
end

