-- ==== Sys2Proof/WellFormed.lean ====
section
/-!
DEFINITION. When an instruction is well formed: its registers are ones its form reaches in the
mode (10_state.md R21), its addressing form is one that 30_encoding.md R78 can express, zeroing
has a write-mask (R87) and its length is one that R86 allows.
-/

namespace Sys2Proof

/-- A vector register the form reaches (10_state.md R21). -/
def VReg.ok (m64 : Bool) (e : Encoding) (r : VReg) : Bool := r.val < Config.nvec m64 e

/-- A general register that exists in the mode (10_state.md R25). -/
def GReg.ok (m64 : Bool) (r : GReg) : Bool := m64 || r.val < 8

/-- A base the mode has: the instruction pointer only in 64-bit mode (R78.1). -/
def Base.ok (m64 : Bool) : Base → Bool
  | .none => true
  | .rip => m64
  | .reg r => GReg.ok m64 r

/-- An addressing form that R78 expresses: register 4 is no index (R78.2), the instruction pointer
takes none (R78.1), and outside 64-bit mode addresses have 32 bits. -/
def MemOperand.ok (m64 : Bool) (m : MemOperand) : Bool :=
  (m64 || m.addr32) && m.base.ok m64 &&
  match m.index with
  | none => true
  | some ix => ix.reg ≠ 4 && GReg.ok m64 ix.reg && m.base ≠ .rip

/-- Operand `r/m` of a vector form. -/
def Src.ok (m64 : Bool) (e : Encoding) : Src → Bool
  | .reg n => VReg.ok m64 e n
  | .mem m => m.ok m64

/-- Operand `r/m` of the MMX form: every MMX register is reachable in every mode (10_state.md
R23). -/
def MmxSrc.ok (m64 : Bool) : MmxSrc → Bool
  | .reg _ => true
  | .mem m => m.ok m64

/-- Zeroing needs a write-mask (30_encoding.md R87). -/
def maskingOk (mask : KReg) (z : Bool) : Bool := !z || mask ≠ 0

/-- Zeroing without a write-mask is no setting of an EVEX form (R87). -/
def Instr.maskOk : Instr → Bool
  | .pmullwMmx64 .. | .pmullwSse128 .. | .vpmullwVex128 .. | .vpmullwVex256 .. => true
  | .vpmullwEvex128 _ _ _ k z _ | .vpmullwEvex256 _ _ _ k z _ | .vpmullwEvex512 _ _ _ k z _ =>
    maskingOk k z

/-- The operands of an instruction. -/
def Instr.operandsOk (m64 : Bool) : Instr → Bool
  | .pmullwMmx64 _ s2 _ => s2.ok m64
  | .pmullwSse128 d s2 _ => VReg.ok m64 .legacy d && s2.ok m64 .legacy
  | .vpmullwVex128 d s1 s2 _ | .vpmullwVex256 d s1 s2 _ =>
    VReg.ok m64 .vex d && VReg.ok m64 .vex s1 && s2.ok m64 .vex
  | .vpmullwEvex128 d s1 s2 k z _ | .vpmullwEvex256 d s1 s2 k z _
  | .vpmullwEvex512 d s1 s2 k z _ =>
    VReg.ok m64 .evex d && VReg.ok m64 .evex s1 && s2.ok m64 .evex && maskingOk k z

/-- A length that some spelling of the instruction has (R86). -/
def Instr.lenOk (m64 : Bool) (i : Instr) : Bool := minLen m64 i ≤ i.len && i.len ≤ 15

/-- The instruction is well formed. -/
def Instr.wellFormed (m64 : Bool) (i : Instr) : Bool := i.operandsOk m64 && i.lenOk m64

end Sys2Proof
end

