-- ==== Sys2Proof/Safety.lean ====
section
/-!
DEFINITION. The vocabulary of the statements: the invariant of the machine, the no-fault premises
of 60_exceptions.md R152 and 70_reset_and_hazards.md R182, the values of operand `r/m`, and what
an execution leaves alone (10_state.md R32).
-/

namespace Sys2Proof.Machine

/-! ## The invariant -/

/-- Memory is in its canonical form, no vector register has a bit at or above `MAXVL` (10_state.md
R20), and outside 64-bit mode the program counter has 32 bits (10_state.md R26). -/
abbrev State.Inv (s : State) : Prop :=
  s.mem.wf = true ∧ (∀ n : VReg, (s.getV n).toNat < 2 ^ s.cfg.maxvl.bits) ∧
    (s.mode64 = false → s.pc.toNat < 2 ^ 32)

/-! ## When a form executes (70_reset_and_hazards.md R182) -/

/-- The CPUID condition of the form and `VL ≤ MAXVL` (00_scope.md R6, R8). -/
abbrev Present (f : Form) (c : Config) : Prop :=
  match f with
  | .mmx64 => c.features.mmx = true
  | .sse128 => c.features.sse2 = true
  | .vex128 => c.features.avx = true
  | .vex256 => c.features.avx2 = true ∧ c.maxvl ≠ .w128
  | .evex128 =>
    (c.features.avx512vl = true ∧ c.features.avx512bw = true) ∨ c.features.avx10_1 = true
  | .evex256 =>
    ((c.features.avx512vl = true ∧ c.features.avx512bw = true) ∨ c.features.avx10_1 = true) ∧
      c.maxvl ≠ .w128
  | .evex512 => (c.features.avx512bw = true ∨ c.features.avx10_1 = true) ∧ c.maxvl = .w512

/-- What the operating system has set up, but for CR0.TS (70_reset_and_hazards.md R182,
60_exceptions.md R155, R156, R158). -/
abbrev Enabled (f : Form) (s : State) : Prop :=
  match f with
  | .mmx64 => s.cr0EM = false
  | .sse128 => s.cr0EM = false ∧ s.cr4OSFXSR = true
  | .vex128 | .vex256 => s.real = false ∧ s.cr4OSXSAVE = true ∧ s.xcr0Avx = true
  | .evex128 | .evex256 | .evex512 =>
    s.real = false ∧ s.cr4OSXSAVE = true ∧ s.xcr0Avx = true ∧ s.xcr0Avx512 = true

/-- The form executes without `#UD`, `#NM` or `#MF` (70_reset_and_hazards.md R182,
60_exceptions.md R158). -/
abbrev Ready (f : Form) (s : State) : Prop :=
  Present f s.cfg ∧ Enabled f s ∧ s.cr0TS = false ∧ (f = .mmx64 → s.x87.pending = false)

/-! ## The memory operand -/

/-- `Translate` gives a location. -/
def ByteAccess.isLocation : ByteAccess → Bool
  | .location _ => true
  | _ => false

/-- Byte `i` of the operand has a legal address (60_exceptions.md R155). -/
abbrev ByteLegal (m : MemOperand) (len : Nat) (s : State) (i : Nat) : Prop :=
  byteIllegal m len s i = false ∧ byteBeyond64K m len s i = false

/-- Byte `i` of the operand is readable ordinary memory: a legal address, and `Translate` gives
its location. -/
abbrev ByteReadable (m : MemOperand) (len : Nat) (s : State) (i : Nat) : Prop :=
  ByteLegal m len s i ∧
    (translateByte s (byteAddr s (effAddr m len s) i)).isLocation = true

/-- The alignment that the form asks of its operand (20_memory.md R54): 16 bytes for the legacy
128-bit form, and what `#AC(0)` checks when alignment checking is enabled. -/
abbrev Aligned (f : Form) (m : MemOperand) (len : Nat) (s : State) : Prop :=
  (f = .sse128 → (effAddr m len s).toNat % 16 = 0) ∧
    (s.alignmentChecking = true →
      ∀ n ∈ acAlignment f s.cfg, (effAddr m len s).toNat % n = 0)

/-- No byte of the operand is in a region whose reads have side effects (20_memory.md R56). -/
abbrev NotInDevice (f : Form) (m : MemOperand) (len : Nat) (s : State) : Prop :=
  ∀ i < f.vl / 8, translateByte s (byteAddr s (effAddr m len s) i) ≠ .device

/-- The memory operand can be read, the bytes `acc` of it being accessed. That the bytes outside
`acc` may have illegal addresses, and that nothing accessed needs no alignment, is the model's
reading (log entry 22). -/
abbrev Readable (f : Form) (m : MemOperand) (len : Nat) (s : State) (acc : List Nat) : Prop :=
  (∀ i ∈ acc, ByteReadable m len s i) ∧ (acc = [] ∨ Aligned f m len s) ∧ NotInDevice f m len s

/-- Operand `r/m` can be read: always when it is a register. -/
abbrev SrcReady (f : Form) (src : Src) (len : Nat) (s : State) (acc : List Nat) : Prop :=
  match src with
  | .reg _ => True
  | .mem m => Readable f m len s acc

/-- The MMX form's operand `r/m` can be read. -/
abbrev MmxSrcReady (src : MmxSrc) (len : Nat) (s : State) : Prop :=
  match src with
  | .reg _ => True
  | .mem m => Readable .mmx64 m len s (allBytes .mmx64)

/-- The lane that a memory operand holds: low byte at `ea + 2j`, high byte at `ea + 2j + 1`
(20_memory.md R53). -/
def memLane (m : MemOperand) (len : Nat) (s : State) (j : Nat) : Word :=
  byteAt s (byteAddr s (effAddr m len s) (2 * j + 1)) ++
    byteAt s (byteAddr s (effAddr m len s) (2 * j))

/-- Lane `j` of operand `r/m` of a vector form. -/
def srcLane (src : Src) (len : Nat) (s : State) (j : Nat) : Word :=
  match src with
  | .reg n => lane (s.getV n) j
  | .mem m => memLane m len s j

/-- Lane `j` of operand `r/m` of the MMX form. -/
def mmxSrcLane (src : MmxSrc) (len : Nat) (s : State) (j : Nat) : Word :=
  match src with
  | .reg n => lane (s.getMM n) j
  | .mem m => memLane m len s j

/-- The low 16 bits of the signed product, as a number modulo `2^16` (40_lane_arithmetic.md
R111). -/
def lowProduct (a b : Word) : Word := BitVec.ofInt 16 (a.toInt * b.toInt)

/-- The bytes of the memory operand that an instruction accesses (20_memory.md R52,
43_vpmullw_evex.md R141). -/
def accessed (i : Instr) (s : State) : List Nat :=
  match i with
  | .pmullwMmx64 .. | .pmullwSse128 .. | .vpmullwVex128 .. | .vpmullwVex256 .. => allBytes i.form
  | .vpmullwEvex128 _ _ _ mask _ _ | .vpmullwEvex256 _ _ _ mask _ _
  | .vpmullwEvex512 _ _ _ mask _ _ => accessedBytes i.form mask s

/-! ## Frames (10_state.md R32) -/

/-- `t` differs from `s` in vector register `d` and the program counter at most, and every byte of
memory reads as before. -/
abbrev OnlyVectorChanged (d : VReg) (s t : State) : Prop :=
  (∀ n, n ≠ d → t.getV n = s.getV n) ∧ t = { s with vec := t.vec, pc := t.pc } ∧
    ∀ a, t.mem.read a = s.mem.read a

/-- `t` differs from `s` in MMX register `d`, the program counter and the x87 fields (which are
free values, log entry 10) at most, and every byte of memory reads as before. The pending x87
exception and the high bits of the other x87 registers stay. -/
abbrev OnlyMmxChanged (d : MReg) (s t : State) : Prop :=
  (∀ n, n ≠ d → t.getMM n = s.getMM n) ∧
    t = { s with mm := t.mm, pc := t.pc, x87 := t.x87, draws := t.draws } ∧
    t.x87.pending = s.x87.pending ∧
    (∀ n : MReg, n ≠ d → t.x87.high[n] = s.x87.high[n]) ∧
    ∀ a, t.mem.read a = s.mem.read a

/-! ## What a form does when it completes -/

/-- The VEX form `mk` of width `w` completes (42_vpmullw_vex.md R130, R131): every lane of the
destination is the low half of the signed product of the source lanes, the bits above are zero,
nothing else but the program counter changes, and that moves past the instruction. -/
def VexCompletes (w : Nat) (f : Form) (mk : VReg → VReg → Src → Nat → Instr) : Prop :=
  ∀ (d s1 : VReg) (s2 : Src) (len : Nat) (s : State),
    Ready f s → SrcReady f s2 len s (allBytes f) →
    ∃ t, exec (mk d s1 s2 len) s = .next t ∧
      (∀ j < w / 16,
        lane (t.getV d) j = lowProduct (lane (s.getV s1) j) (srcLane s2 len s j)) ∧
      (t.getV d).extractLsb' w (512 - w) = 0 ∧
      OnlyVectorChanged d s t ∧
      t.pc = s.linear (s.pc + BitVec.ofNat 64 len)

/-- The EVEX form `mk` of width `w` completes (43_vpmullw_evex.md R140): a lane is selected when
there is no write-mask (mask 0) or its mask bit is 1 and then takes the low half of the signed
product; another lane becomes 0 (zeroing) or keeps its value (merging); the bits above are zero,
nothing else but the program counter changes, and that moves past the instruction. Under
`FaultSuppression` only the bytes of selected lanes need legal addresses, and without such a lane
no alignment is asked: the MODEL'S reading, log entry 22. -/
def EvexCompletes (w : Nat) (f : Form) (mk : VReg → VReg → Src → KReg → Bool → Nat → Instr) :
    Prop :=
  ∀ (d s1 : VReg) (s2 : Src) (mask : KReg) (z : Bool) (len : Nat) (s : State),
    Ready f s → (z = true → mask ≠ 0) → SrcReady f s2 len s (accessedBytes f mask s) →
    ∃ t, exec (mk d s1 s2 mask z len) s = .next t ∧
      (∀ j < w / 16,
        lane (t.getV d) j =
          if mask = 0 ∨ (s.getK mask).getLsbD j = true then
            lowProduct (lane (s.getV s1) j) (srcLane s2 len s j)
          else if z = true then 0 else lane (s.getV d) j) ∧
      (t.getV d).extractLsb' w (512 - w) = 0 ∧
      OnlyVectorChanged d s t ∧
      t.pc = s.linear (s.pc + BitVec.ofNat 64 len)

/-- A row of the table of 40_lane_arithmetic.md R116, its columns in order. -/
structure ResultRow where
  a : Word
  b : Word
  /-- `sint(a)`. -/
  sa : Int
  /-- `sint(b)`. -/
  sb : Int
  /-- The exact product. -/
  p : Int
  /-- `TEMP[31:0]`. -/
  temp : BitVec 32
  /-- `TEMP[15:0]`. -/
  result : Word
  deriving DecidableEq, Repr

/-- A byte of a legacy prefix (30_encoding.md R85.1). -/
def isLegacyPrefix (b : Byte) : Bool :=
  [0x66#8, 0x67#8, 0xF0#8, 0xF2#8, 0xF3#8, 0x2E#8, 0x36#8, 0x3E#8, 0x26#8, 0x64#8, 0x65#8].contains b

/-- The prefixes that have no effect beyond the length with a register operand (30_encoding.md R87,
last sentence): segment overrides and `67`. -/
def neutralPrefixes : List Byte := [0x26#8, 0x2E#8, 0x36#8, 0x3E#8, 0x64#8, 0x65#8, 0x67#8]

/-- One more prefix `p` is redundant before the instruction `i` (30_encoding.md R87, last
sentence). -/
def RedundantBefore (i : Instr) (p : Byte) : Prop :=
  (i.memOperand = none ∧ p ∈ neutralPrefixes) ∨ (i.form = .sse128 ∧ p = 0x66#8)

/-- The bytes up to the opcode `D5` of each form outside 64-bit mode, other prefixes apart, with
legal settings (30_encoding.md R71, R75, R80, R81, R87). -/
def OpcodeOutside64 (head : List Byte) : Prop :=
  head = [0x0F#8, 0xD5#8] ∨ head = [0x66#8, 0x0F#8, 0xD5#8] ∨
    (∃ p : Byte, p.extractLsb' 6 2 = 3 ∧ p.extractLsb' 0 2 = 1 ∧ head = [0xC5#8, p, 0xD5#8]) ∨
    (∃ p : Byte, p.getLsbD 6 = true ∧ p.extractLsb' 0 2 = 1 ∧
      head = [0xC4#8, 0xE1#8, p, 0xD5#8]) ∨
    ∃ p1 p2 : Byte, p1.getLsbD 6 = true ∧ p1.getLsbD 2 = true ∧ p1.extractLsb' 0 2 = 1 ∧
      p2.getLsbD 3 = true ∧ p2.getLsbD 4 = false ∧ p2.extractLsb' 5 2 ≠ 3 ∧
      (p2.getLsbD 7 = true → p2.extractLsb' 0 3 ≠ 0) ∧
      head = [0x62#8, 0xF1#8, p1, p2, 0xD5#8]

end Sys2Proof.Machine
end

