-- ==== Sys2Proof/Certificates/Slice0/Obligations.lean ====
section
/-!
DEFINITION. The statements for the provers. Each docstring names the rule of spec/ it formalises.
-/

open Sys2Proof Sys2Proof.Machine

/-! ## Lane arithmetic (40_lane_arithmetic.md) -/

/-- R111: `p = sint_16(a) * sint_16(b)`, `TEMP = bits_32(p)`, the result is `TEMP[15:0]`. -/
def Obligations.Mullo16KeepsLowHalfOfSignedProduct : Prop :=
  ∀ a b : Word,
    product32 a b = BitVec.ofInt 32 (a.toInt * b.toInt) ∧
      mullo16 a b = (BitVec.ofInt 32 (a.toInt * b.toInt)).setWidth 16

/-- R112: the product lies between -1073709056 and 1073741824, `sint_32(TEMP) = p`, and the only
information lost is `TEMP[31:16]`. -/
def Obligations.ProductFitsThe32BitIntermediate : Prop :=
  ∀ a b : Word,
    -1073709056 ≤ a.toInt * b.toInt ∧ a.toInt * b.toInt ≤ 1073741824 ∧
      (product32 a b).toInt = a.toInt * b.toInt ∧
      product32 a b = (product32 a b).extractLsb' 16 16 ++ mullo16 a b

/-- R113: the result does not depend on reading the factors as signed. -/
def Obligations.Mullo16IgnoresSignedness : Prop :=
  ∀ a b : Word,
    mullo16 a b = BitVec.ofNat 16 (a.toNat * b.toNat) ∧
      mullo16 a b = BitVec.ofInt 16 (a.toInt * b.toInt)

/-- R115: the laws of the ring of integers modulo `2^16`. -/
def Obligations.Mullo16RingLaws : Prop :=
  ∀ a b c : Word,
    mullo16 a b = mullo16 b a ∧
      mullo16 (mullo16 a b) c = mullo16 a (mullo16 b c) ∧
      mullo16 a 0x0000 = 0x0000 ∧ mullo16 a 0x0001 = a ∧
      mullo16 a 0xFFFF = -a ∧ mullo16 0x8000 0xFFFF = 0x8000 ∧
      mullo16 a (b + c) = mullo16 a b + mullo16 a c ∧
      ∀ k < 16, mullo16 a (BitVec.ofNat 16 (2 ^ k)) = BitVec.ofNat 16 (a.toNat * 2 ^ k) ∧
        mullo16 a (BitVec.ofNat 16 (2 ^ k)) = a <<< k

/-- R116: the table of results at every sign combination and at the extremes. -/
def Obligations.Mullo16ResultTable : Prop :=
  ∀ row ∈ ([
      ⟨0x0000, 0x0000, 0, 0, 0, 0x00000000, 0x0000⟩,
      ⟨0x0000, 0xFFFF, 0, -1, 0, 0x00000000, 0x0000⟩,
      ⟨0x0001, 0x1234, 1, 4660, 4660, 0x00001234, 0x1234⟩,
      ⟨0x1234, 0x5678, 4660, 22136, 103153760, 0x06260060, 0x0060⟩,
      ⟨0xFFFE, 0x0003, -2, 3, -6, 0xFFFFFFFA, 0xFFFA⟩,
      ⟨0x0003, 0xFFFE, 3, -2, -6, 0xFFFFFFFA, 0xFFFA⟩,
      ⟨0xFFFE, 0xFFFD, -2, -3, 6, 0x00000006, 0x0006⟩,
      ⟨0xFFFF, 0xFFFF, -1, -1, 1, 0x00000001, 0x0001⟩,
      ⟨0xFFFF, 0x1234, -1, 4660, -4660, 0xFFFFEDCC, 0xEDCC⟩,
      ⟨0x7FFF, 0x7FFF, 32767, 32767, 1073676289, 0x3FFF0001, 0x0001⟩,
      ⟨0x7FFF, 0x0002, 32767, 2, 65534, 0x0000FFFE, 0xFFFE⟩,
      ⟨0x8000, 0x8000, -32768, -32768, 1073741824, 0x40000000, 0x0000⟩,
      ⟨0x8000, 0x7FFF, -32768, 32767, -1073709056, 0xC0008000, 0x8000⟩,
      ⟨0x8000, 0xFFFF, -32768, -1, 32768, 0x00008000, 0x8000⟩,
      ⟨0x8000, 0x0002, -32768, 2, -65536, 0xFFFF0000, 0x0000⟩,
      ⟨0x4000, 0x0004, 16384, 4, 65536, 0x00010000, 0x0000⟩,
      ⟨0xABCD, 0xEF01, -21555, -4351, 93785805, 0x05970ECD, 0x0ECD⟩] : List ResultRow),
    row.a.toInt = row.sa ∧ row.b.toInt = row.sb ∧ row.sa * row.sb = row.p ∧
      product32 row.a row.b = row.temp ∧ mullo16 row.a row.b = row.result

/-- R117, R110: lane `j` of the packed product is the product of the lanes `j`. -/
def Obligations.PackedProductIsLanewise : Prop :=
  ∀ (w : Nat) (x y : BitVec w), ∀ j < w / 16,
    lane (pmullw x y) j = mullo16 (lane x j) (lane y j)

/-- 95_test_vectors.md section 2.6: the product of concatenations is the concatenation of the
products, so a narrower form computes the low part of a wider one. -/
def Obligations.PackedProductSplitsAtLanes : Prop :=
  ∀ (k1 k0 : Nat) (x1 y1 : BitVec (16 * k1)) (x0 y0 : BitVec (16 * k0)),
    pmullw (x1 ++ x0) (y1 ++ y0) = pmullw x1 y1 ++ pmullw x0 y0

/-! ## The seven forms complete -/

/-- 41_pmullw_legacy.md R120 (operands, pseudocode, flags). The x87 fields are free values (D5, log
entry 10): nothing is said of them but what stays. -/
def Obligations.MmxFormCompletes : Prop :=
  ∀ (d : MReg) (s2 : MmxSrc) (len : Nat) (s : State),
    Ready .mmx64 s → MmxSrcReady s2 len s →
    ∃ t, exec (.pmullwMmx64 d s2 len) s = .next t ∧
      (∀ j < 4,
        lane (t.getMM d) j = lowProduct (lane (s.getMM d) j) (mmxSrcLane s2 len s j)) ∧
      OnlyMmxChanged d s t ∧
      t.pc = s.linear (s.pc + BitVec.ofNat 64 len)

/-- 41_pmullw_legacy.md R121 (operands, pseudocode, upper bits, flags): bits 511:128 of the
destination stay. -/
def Obligations.Sse128FormCompletes : Prop :=
  ∀ (d : VReg) (s2 : Src) (len : Nat) (s : State),
    Ready .sse128 s → SrcReady .sse128 s2 len s (allBytes .sse128) →
    ∃ t, exec (.pmullwSse128 d s2 len) s = .next t ∧
      (∀ j < 8, lane (t.getV d) j = lowProduct (lane (s.getV d) j) (srcLane s2 len s j)) ∧
      (t.getV d).extractLsb' 128 384 = (s.getV d).extractLsb' 128 384 ∧
      OnlyVectorChanged d s t ∧
      t.pc = s.linear (s.pc + BitVec.ofNat 64 len)

/-- 42_vpmullw_vex.md R130 (operands, pseudocode, upper bits, flags). -/
def Obligations.Vex128FormCompletes : Prop := VexCompletes 128 .vex128 .vpmullwVex128

/-- 42_vpmullw_vex.md R131 (operands, pseudocode, flags; the upper bits by decision D20, log entry
23). -/
def Obligations.Vex256FormCompletes : Prop := VexCompletes 256 .vex256 .vpmullwVex256

/-- 43_vpmullw_evex.md R140, R142. The premises ask legal addresses of the accessed bytes only, and
alignment only where there are some: under `FaultSuppression` that is the MODEL'S reading, log entry
22, and not the rules' words. -/
def Obligations.Evex128FormCompletes : Prop := EvexCompletes 128 .evex128 .vpmullwEvex128

/-- 43_vpmullw_evex.md R140, R143. The premises ask legal addresses of the accessed bytes only, and
alignment only where there are some: under `FaultSuppression` that is the MODEL'S reading, log entry
22, and not the rules' words. -/
def Obligations.Evex256FormCompletes : Prop := EvexCompletes 256 .evex256 .vpmullwEvex256

/-- 43_vpmullw_evex.md R140, R144. The premises ask legal addresses of the accessed bytes only, and
alignment only where there are some: under `FaultSuppression` that is the MODEL'S reading, log entry
22, and not the rules' words. -/
def Obligations.Evex512FormCompletes : Prop := EvexCompletes 512 .evex512 .vpmullwEvex512

/-- R130, R131, R140: without a write-mask an EVEX form of 128 or 256 bits does what the VEX form of
that width does. (Both parameters for `#AC(0)`, log entry 13, must agree.) -/
def Obligations.UnmaskedEvexActsAsVex : Prop :=
  ∀ (d s1 : VReg) (s2 : Src) (len : Nat) (s : State), s.cfg.acVex = s.cfg.acEvex →
    (Ready .vex128 s → Ready .evex128 s →
      exec (.vpmullwEvex128 d s1 s2 0 false len) s = exec (.vpmullwVex128 d s1 s2 len) s) ∧
    (Ready .vex256 s → Ready .evex256 s →
      exec (.vpmullwEvex256 d s1 s2 0 false len) s = exec (.vpmullwVex256 d s1 s2 len) s)

/-- R140, 10_state.md R24 (U20): only bits `KL-1:0` of the mask register count. -/
def Obligations.OnlyLowMaskBitsCount : Prop :=
  ∀ (d s1 : VReg) (s2 : Src) (mask : KReg) (z : Bool) (len : Nat) (s t : State)
    (km : Vector (BitVec 64) 8),
    ((∀ j < 8, km[mask].getLsbD j = (s.getK mask).getLsbD j) →
      exec (.vpmullwEvex128 d s1 s2 mask z len) s = .next t →
      exec (.vpmullwEvex128 d s1 s2 mask z len) { s with kmask := km } =
        .next { t with kmask := km }) ∧
    ((∀ j < 16, km[mask].getLsbD j = (s.getK mask).getLsbD j) →
      exec (.vpmullwEvex256 d s1 s2 mask z len) s = .next t →
      exec (.vpmullwEvex256 d s1 s2 mask z len) { s with kmask := km } =
        .next { t with kmask := km }) ∧
    ((∀ j < 32, km[mask].getLsbD j = (s.getK mask).getLsbD j) →
      exec (.vpmullwEvex512 d s1 s2 mask z len) s = .next t →
      exec (.vpmullwEvex512 d s1 s2 mask z len) { s with kmask := km } =
        .next { t with kmask := km })

/-- R141, last sentence: the bytes of an unselected lane never reach the result. Memory may be
replaced by any other that reads the same at the bytes of the selected lanes of the form. -/
def Obligations.UnselectedLanesOfMemoryDoNotMatter : Prop :=
  ∀ (d s1 : VReg) (m : MemOperand) (mask : KReg) (z : Bool) (len : Nat) (s t : State)
    (mem' : Memory),
    let same (lanes : Nat) : Prop := ∀ j < lanes, laneSelected mask s j = true → ∀ k, k / 2 = j →
      byteAt { s with mem := mem' } (byteAddr s (effAddr m len s) k) =
        byteAt s (byteAddr s (effAddr m len s) k)
    (same 8 → exec (.vpmullwEvex128 d s1 (.mem m) mask z len) s = .next t →
      exec (.vpmullwEvex128 d s1 (.mem m) mask z len) { s with mem := mem' } =
        .next { t with mem := mem' }) ∧
    (same 16 → exec (.vpmullwEvex256 d s1 (.mem m) mask z len) s = .next t →
      exec (.vpmullwEvex256 d s1 (.mem m) mask z len) { s with mem := mem' } =
        .next { t with mem := mem' }) ∧
    (same 32 → exec (.vpmullwEvex512 d s1 (.mem m) mask z len) s = .next t →
      exec (.vpmullwEvex512 d s1 (.mem m) mask z len) { s with mem := mem' } =
        .next { t with mem := mem' })

/-! ## What nothing changes -/

/-- 10_state.md R32 for every instruction that completes: the destination register and the program
counter change and nothing else; for the MMX form the x87 fields too, as free values (D5, log entry
10). -/
def Obligations.ExecChangesOnlyItsDestination : Prop :=
  ∀ (i : Instr) (s t : State), exec i s = .next t →
    t.pc = s.linear (s.pc + BitVec.ofNat 64 i.len) ∧
    match i with
    | .pmullwMmx64 d _ _ => OnlyMmxChanged d s t
    | .pmullwSse128 d _ _ | .vpmullwVex128 d _ _ _ | .vpmullwVex256 d _ _ _
    | .vpmullwEvex128 d _ _ _ _ _ | .vpmullwEvex256 d _ _ _ _ _
    | .vpmullwEvex512 d _ _ _ _ _ => OnlyVectorChanged d s t

/-- R27: no flag and no bit of MXCSR is written, and none is read for the result (EFLAGS.AC, bit 18,
takes part in the alignment check alone). -/
def Obligations.FlagsAreNeitherWrittenNorRead : Prop :=
  ∀ (i : Instr) (s t : State), exec i s = .next t →
    t.rflags = s.rflags ∧ t.mxcsr = s.mxcsr ∧
      (∀ mx, exec i { s with mxcsr := mx } = .next { t with mxcsr := mx }) ∧
      ∀ fl : BitVec 64, fl.getLsbD 18 = s.rflags.getLsbD 18 →
        exec i { s with rflags := fl } = .next { t with rflags := fl }

/-- R24, R25, R28, R51 over a whole step: memory, mask registers, general and segment registers,
control registers, the mode and the parameters are never written. -/
def Obligations.StepWritesNoMemoryAndNoControlState : Prop :=
  ∀ s t : State, step s = .next t →
    (∀ a, t.mem.read a = s.mem.read a) ∧ t.mem = s.mem ∧ t.kmask = s.kmask ∧ t.gpr = s.gpr ∧
      t.segs = s.segs ∧ t.rflags = s.rflags ∧ t.mxcsr = s.mxcsr ∧ t.cr0 = s.cr0 ∧
      t.cr2 = s.cr2 ∧ t.cr4 = s.cr4 ∧ t.xcr0 = s.xcr0 ∧ t.cpl = s.cpl ∧ t.mode = s.mode ∧
      t.code16 = s.code16 ∧ t.xlate = s.xlate ∧ t.cfg = s.cfg

/-- R26, R86: a step that completes moves the program counter by the length of the instruction that
the bytes at `pc` decode to, 3 to 15 bytes, and does not wrap. (That it stays strictly below the top
of the address space is the model's reading of R26, log entry 20.) -/
def Obligations.StepAdvancesPcByTheLength : Prop :=
  ∀ s t : State, step s = .next t →
    ∃ i, decode s.mode64 s.code16 (fetchWindow s) = .ok i ∧ 3 ≤ i.len ∧ i.len ≤ 15 ∧
      t.pc.toNat = s.pc.toNat + i.len ∧ s.pc.toNat + i.len < 2 ^ s.addrBits

/-! ## Exceptions (60_exceptions.md) -/

/-- R8, R153: a form whose CPUID condition is false, or whose vector length exceeds `MAXVL` (R6),
raises `#UD`. -/
def Obligations.AbsentFormRaisesUD : Prop :=
  ∀ (i : Instr) (s : State), ¬ Present i.form s.cfg → exec i s = .fault .invalidOpcode

/-- R155, R156, R158: the mode and control-register conditions of `#UD`. -/
def Obligations.DisabledFormRaisesUD : Prop :=
  ∀ (i : Instr) (s : State), ¬ Enabled i.form s → exec i s = .fault .invalidOpcode

/-- R87, R156: zeroing without a write-mask raises `#UD`. -/
def Obligations.ZeroingWithoutMaskRaisesUD : Prop :=
  ∀ (i : Instr) (s : State), i.maskOk = false → exec i s = .fault .invalidOpcode

/-- R155, R156, R158, R159: without a cause of `#UD`, CR0.TS raises `#NM`. -/
def Obligations.TaskSwitchedRaisesNM : Prop :=
  ∀ (i : Instr) (s : State), Present i.form s.cfg → Enabled i.form s → i.maskOk = true →
    s.cr0TS = true → exec i s = .fault .deviceNotAvailable

/-- R158, R159: without a cause of `#UD` or `#NM`, a pending x87 exception raises `#MF` in the MMX
form, whatever its operand. -/
def Obligations.PendingX87RaisesMF : Prop :=
  ∀ (d : MReg) (s2 : MmxSrc) (len : Nat) (s : State), Present .mmx64 s.cfg → Enabled .mmx64 s →
    s.cr0TS = false → s.x87.pending = true →
    exec (.pmullwMmx64 d s2 len) s = .fault .x87FloatingPoint

/-- R155, R156, R158: an accessed byte with an illegal offset in its segment or, in 64-bit mode, with
a non-canonical address raises `#SS(0)` in the stack segment and `#GP(0)` elsewhere. (What is
illegal and how wide an address is are parameters, log entries 14 and 16. A byte's offset wraps modulo
the address width, log entry 35. That this `#SS(0)` is
reported and not the `#GP(0)` of a misaligned legacy operand or of an offset beyond 0xFFFF, where
both apply, is the model's choice, log entry 12.) -/
def Obligations.BadAddressRaisesSSOrGP : Prop :=
  ∀ (i : Instr) (s : State) (m : MemOperand) (k : Nat), Ready i.form s → i.maskOk = true →
    i.memOperand = some m → k ∈ accessed i s →
    (offsetIllegal (s.getSeg m.seg)
        (s.linear (memOffset m i.len s + BitVec.ofNat 64 k)).toNat = true ∨
      (s.mode64 = true ∧
        canonical s.cfg.canonBits (byteAddr s (effAddr m i.len s) k) = false)) →
    exec i s = .fault (if m.seg = .ss then .stackSegment else .generalProtection)

/-- R155, R158: in real-address and virtual-8086 mode a byte of the operand outside offsets 0 to
0xFFFF raises `#GP(0)`. -/
def Obligations.BeyondOffset64KRaisesGP : Prop :=
  ∀ (i : Instr) (s : State) (m : MemOperand) (k : Nat), Ready i.form s →
    i.memOperand = some m → s.real = true → k ∈ accessed i s →
    (∀ j ∈ accessed i s, byteIllegal m i.len s j = false) →
    0xFFFF < (memOffset m i.len s).toNat + k → exec i s = .fault .generalProtection

/-- 20_memory.md R54: the legacy 128-bit form with a memory operand requires `ea mod 16 = 0` and
raises `#GP(0)` otherwise. -/
def Obligations.MisalignedSse128RaisesGP : Prop :=
  ∀ (d : VReg) (m : MemOperand) (len : Nat) (s : State), Ready .sse128 s →
    (∀ k < 16, ByteLegal m len s k) → (effAddr m len s).toNat % 16 ≠ 0 →
    exec (.pmullwSse128 d (.mem m) len) s = .fault .generalProtection

/-- R155, R156, R158, R159, 20_memory.md R60: where no address fault applies, the page fault that
`Translate` names for an accessed byte, and for none below it (log entry 12), is raised with its
code and address. (That under `FaultSuppression` the addresses of unselected lanes raise no `#SS` or
`#GP` is log entry 22; the width of the code is log entry 36.) -/
def Obligations.PageFaultIsRaised : Prop :=
  ∀ (i : Instr) (s : State) (m : MemOperand) (k : Nat) (code : BitVec 32), Ready i.form s →
    i.maskOk = true → i.memOperand = some m →
    (∀ j ∈ accessed i s, ByteLegal m i.len s j ∧
      translateByte s (byteAddr s (effAddr m i.len s) j) ≠ .faulting .ss ∧
      translateByte s (byteAddr s (effAddr m i.len s) j) ≠ .faulting .gp) →
    (i.form = .sse128 → (effAddr m i.len s).toNat % 16 = 0) →
    k ∈ accessed i s →
    translateByte s (byteAddr s (effAddr m i.len s) k) = .faulting (.pf code) →
    (∀ j ∈ accessed i s, j < k → ∀ c,
      translateByte s (byteAddr s (effAddr m i.len s) j) ≠ .faulting (.pf c)) →
    exec i s = .fault (.pageFault code (byteAddr s (effAddr m i.len s) k))

/-- 20_memory.md R60, 60_exceptions.md R159: where no address fault of the model's own checks
applies, the `#SS(0)` or `#GP(0)` that `Translate` names for an accessed byte, and for none below it
(log entry 12), is raised; where `Translate` names none of these and no page fault, its `#AC(0)`
is. (That under `FaultSuppression` the bytes of unselected lanes raise none of these is log entry
22.) -/
def Obligations.TranslateExceptionsAreRaised : Prop :=
  ∀ (i : Instr) (s : State) (m : MemOperand) (k : Nat), Ready i.form s → i.maskOk = true →
    i.memOperand = some m → (∀ j ∈ accessed i s, ByteLegal m i.len s j) →
    (i.form = .sse128 → (effAddr m i.len s).toNat % 16 = 0) → k ∈ accessed i s →
    let said (j : Nat) : ByteAccess := translateByte s (byteAddr s (effAddr m i.len s) j)
    ((∀ j ∈ accessed i s, j < k → said j ≠ .faulting .ss ∧ said j ≠ .faulting .gp) →
      (said k = .faulting .ss → exec i s = .fault .stackSegment) ∧
        (said k = .faulting .gp → exec i s = .fault .generalProtection)) ∧
    ((∀ j ∈ accessed i s, said j ≠ .faulting .ss ∧ said j ≠ .faulting .gp ∧
        ∀ code, said j ≠ .faulting (.pf code)) →
      said k = .faulting .ac → exec i s = .fault .alignmentCheck)

/-- 20_memory.md R54, R158: the MMX form raises `#AC(0)` for `ea mod 8 ≠ 0` when alignment checking
is enabled (CR0.AM = 1, EFLAGS.AC = 1, CPL = 3) and no earlier exception applies. -/
def Obligations.MisalignedMmxRaisesAC : Prop :=
  ∀ (d : MReg) (m : MemOperand) (len : Nat) (s : State), Ready .mmx64 s →
    (∀ k < 8, ByteReadable m len s k) →
    s.cr0.getLsbD 18 = true → s.rflags.getLsbD 18 = true → s.cpl = 3 →
    (effAddr m len s).toNat % 8 ≠ 0 →
    exec (.pmullwMmx64 d (.mem m) len) s = .fault .alignmentCheck

/-- 20_memory.md R56: an operand with any of its `VL / 8` bytes in a region whose reads have side
effects is refused, whether that byte's lane is selected or not, where no exception applies. (That an
exception comes first is log entry 24. That under `FaultSuppression` none applies to bytes of
unselected lanes, nor an alignment where no lane is selected, is log entry 22.) -/
def Obligations.SideEffectMemoryIsRefused : Prop :=
  ∀ (i : Instr) (s : State) (m : MemOperand) (k : Nat), Ready i.form s → i.maskOk = true →
    i.memOperand = some m →
    (∀ j ∈ accessed i s, ByteLegal m i.len s j ∧
      ∀ x, translateByte s (byteAddr s (effAddr m i.len s) j) ≠ .faulting x) →
    (accessed i s = [] ∨ Aligned i.form m i.len s) → k < i.form.vl / 8 →
    translateByte s (byteAddr s (effAddr m i.len s) k) = .device →
    exec i s = .refused .sideEffectMemory

/-- R141: under `FaultSuppression` exactly the bytes `ea + 2j`, `ea + 2j + 1` of selected lanes `j`
are accessed, without it all `VL / 8` bytes. -/
def Obligations.FaultSuppressionSelectsTheBytes : Prop :=
  ∀ (f : Form) (mask : KReg) (s : State) (k : Nat),
    k ∈ accessedBytes f mask s ↔
      k < f.vl / 8 ∧ (s.cfg.faultSuppression = true →
        mask = 0 ∨ (s.getK mask).getLsbD (k / 2) = true)

/-- R154: vector numbers and error codes. (That a code has 32 bits is presumed, log entry 36.) -/
def Obligations.ExceptionNumbers : Prop :=
  (vectorOf .invalidOpcode = 6 ∧ errorCodeOf .invalidOpcode = none) ∧
    (vectorOf .deviceNotAvailable = 7 ∧ errorCodeOf .deviceNotAvailable = none) ∧
    (vectorOf .stackSegment = 12 ∧ errorCodeOf .stackSegment = some 0) ∧
    (vectorOf .generalProtection = 13 ∧ errorCodeOf .generalProtection = some 0) ∧
    (∀ code addr, vectorOf (.pageFault code addr) = 14 ∧
      errorCodeOf (.pageFault code addr) = some code) ∧
    (vectorOf .x87FloatingPoint = 16 ∧ errorCodeOf .x87FloatingPoint = none) ∧
    (vectorOf .alignmentCheck = 17 ∧ errorCodeOf .alignmentCheck = some 0)

/-! ## The memory operand -/

/-- 30_encoding.md R78.4, R78.5: `offset = base + index * 2^scale + disp` cut to the address size,
`ea = segment base + offset` cut to the address width; in 64-bit mode only FS and GS have a base.
(That the displacement of a SIB byte without base is sign-extended is presumed, log entry 32.) -/
def Obligations.EffectiveAddressFormula : Prop :=
  ∀ (m : MemOperand) (len : Nat) (s : State),
    let base : Int :=
      match m.base with
      | .none => 0
      | .rip => s.pc.toNat + len
      | .reg r => (s.getG r).toNat
    let index : Int :=
      match m.index with
      | none => 0
      | some ix => (s.getG ix.reg).toNat * 2 ^ ix.scale.val
    let segment : Int :=
      if s.mode64 = true ∧ m.seg ≠ .fs ∧ m.seg ≠ .gs then 0 else (s.getSeg m.seg).base.toNat
    let offset : Int := (base + index + m.disp.toInt) % (if m.addr32 then 2 ^ 32 else 2 ^ 64)
    ((memOffset m len s).toNat : Int) = offset ∧
      ((effAddr m len s).toNat : Int) = (segment + offset) % 2 ^ s.addrBits

/-- 20_memory.md R53: `v[8i+7:8i]` is the byte at address `a + i`. -/
def Obligations.MemoryOperandIsLittleEndian : Prop :=
  ∀ (f : Form) (m : MemOperand) (len : Nat) (s : State) (v : BitVec f.vl),
    loadOperand f.vl f m len s (allBytes f) = .ok v →
    ∀ k < f.vl / 8,
      v.extractLsb' (8 * k) 8 = byteAt s (s.linear (effAddr m len s + BitVec.ofNat 64 k))

/-! ## Decoding (30_encoding.md) -/

/-- R70 to R86: the decoder reads back every well-formed instruction from its encoding, whatever
bytes follow. -/
def Obligations.DecodeOfEncodeIsIdentity : Prop :=
  ∀ (m64 code16 : Bool) (i : Instr) (rest : List Byte), i.wellFormed m64 = true →
    (m64 = true ∨ code16 = false) → decode m64 code16 (encode m64 i ++ rest) = .ok i

/-- R21, R78, R79, R86, R87: what the decoder gives is well formed: its registers are ones the mode
reaches, its masking is legal, its length is between the shortest spelling and 15. -/
def Obligations.DecodedInstructionsAreWellFormed : Prop :=
  ∀ (m64 code16 : Bool) (bs : List Byte) (i : Instr), decode m64 code16 bs = .ok i →
    i.wellFormed m64 = true

/-- R85, R86: decoding consumes `len` bytes and depends on no byte after them; fewer of them are no
instruction yet. -/
def Obligations.DecodeDependsOnlyOnItsBytes : Prop :=
  ∀ (m64 code16 : Bool) (bs : List Byte) (i : Instr), decode m64 code16 bs = .ok i →
    i.len ≤ bs.length ∧ (∀ rest, decode m64 code16 (bs.take i.len ++ rest) = .ok i) ∧
      ∀ k < i.len, decode m64 code16 (bs.take k) = .error .truncated

/-- R86, R87, last sentence: a redundant prefix (a segment override or `67` with a register operand,
`66` once more before the legacy 128-bit form) has no effect beyond the length; with more than 15
bytes the sequence is refused. -/
def Obligations.RedundantPrefixesOnlyAddLength : Prop :=
  ∀ (m64 code16 : Bool) (bs : List Byte) (i : Instr) (p : Byte) (n : Nat),
    decode m64 code16 bs = .ok i → RedundantBefore i p →
    decode m64 code16 (List.replicate n p ++ bs) =
      if i.len + n ≤ 15 then .ok (i.withLen (i.len + n)) else .error .tooLong

/-- 95_test_vectors.md section 2.7: words written out from the encodings decode to what they stand
for (V7.1, V7.4, V7.8, V7.10, V7.17, V7.25, V7.31, V7.35, V7.37). -/
def Obligations.WrittenOutWordsDecode : Prop :=
  decode true false [0x66, 0x0F, 0xD5, 0xC1] = .ok (.pmullwSse128 0 (.reg 1) 4) ∧
    decode true false [0x66, 0x44, 0x0F, 0xD5, 0xCA] = .ok (.pmullwSse128 9 (.reg 2) 5) ∧
    decode true false [0x66, 0x0F, 0xD5, 0x0D, 0x00, 0x01, 0x00, 0x00] =
      .ok (.pmullwSse128 1 (.mem ⟨false, .ds, .rip, none, 0x100⟩) 8) ∧
    decode true false [0x66, 0x0F, 0xD5, 0x8C, 0x88, 0x78, 0x56, 0x34, 0x12] =
      .ok (.pmullwSse128 1 (.mem ⟨false, .ds, .reg 0, some ⟨1, 2⟩, 0x12345678⟩) 9) ∧
    decode true false [0x0F, 0xD5, 0xC1] = .ok (.pmullwMmx64 0 (.reg 1) 3) ∧
    decode true false [0xC4, 0x41, 0x25, 0xD5, 0xD4] = .ok (.vpmullwVex256 10 11 (.reg 12) 5) ∧
    decode true false [0x62, 0xF1, 0x6D, 0xAF, 0xD5, 0xCB] =
      .ok (.vpmullwEvex256 1 2 (.reg 3) 7 true 6) ∧
    decode true false [0x62, 0xA1, 0x6D, 0x40, 0xD5, 0xCB] =
      .ok (.vpmullwEvex512 17 18 (.reg 19) 0 false 6) ∧
    decode true false [0x62, 0xF1, 0x6D, 0x48, 0xD5, 0x48, 0x01] =
      .ok (.vpmullwEvex512 1 2 (.mem ⟨false, .ds, .reg 0, none, 0x40⟩) 0 false 7)

/-- R76, R79, R85: in 64-bit mode and in the legacy encoding REX.R reaches XMM8 to XMM15, without it
the destination is XMM0 to XMM7; outside 64-bit mode there is no REX (R85.2); REX before VEX or EVEX
is `#UD` (R85.4). (The bytes are the layouts of log entry 1.) -/
def Obligations.RexRReachesUpperRegisters : Prop :=
  ∀ (code16 : Bool) (reg rm : BitVec 3) (rest : List Byte),
    decode true code16 ([0x66, 0x44, 0x0F, 0xD5, modrmByte 3 reg rm] ++ rest) =
        .ok (.pmullwSse128 (Fin.ofNat 32 (8 + reg.toNat)) (.reg (Fin.ofNat 32 rm.toNat)) 5) ∧
      decode true code16 ([0x66, 0x0F, 0xD5, modrmByte 3 reg rm] ++ rest) =
        .ok (.pmullwSse128 (Fin.ofNat 32 reg.toNat) (.reg (Fin.ofNat 32 rm.toNat)) 4) ∧
      decode false code16 ([0x66, 0x44, 0x0F, 0xD5, modrmByte 3 reg rm] ++ rest) =
        .error .otherInstruction ∧
      ∀ b ∈ [0xC4#8, 0xC5#8, 0x62#8], decode true code16 (0x44 :: b :: rest) = .error .invalidOpcode

/-- R87: a LOCK prefix on a legacy form, among any legacy prefixes without `F2` and `F3`, with or
without a REX prefix after them, is `#UD`. (That `#UD` comes before the refusals of 16-bit
addressing and of more than 15 bytes is the model's choice, log entry 21.) -/
def Obligations.LockedLegacyFormIsUD : Prop :=
  ∀ (m64 code16 : Bool) (ps rest : List Byte), (∀ p ∈ ps, isLegacyPrefix p = true) →
    0xF0#8 ∈ ps → 0xF2#8 ∉ ps → 0xF3#8 ∉ ps →
    decode m64 code16 (ps ++ 0x0F :: 0xD5 :: rest) = .error .invalidOpcode ∧
      ∀ low : BitVec 4,
        decode true code16 (ps ++ (4#4 ++ low : BitVec 8) :: 0x0F :: 0xD5 :: rest) =
          .error .invalidOpcode

/-- R85.3, R87, D28: `0F D5` after `F2` or `F3`, with or without a REX prefix between, is refused.
(That it is this refusal, and with `F0` no `#UD`, is the model's choice, log entry 21.) -/
def Obligations.RepeatPrefixIsRefused : Prop :=
  ∀ (m64 code16 : Bool) (ps rest : List Byte), (∀ p ∈ ps, isLegacyPrefix p = true) →
    (0xF2#8 ∈ ps ∨ 0xF3#8 ∈ ps) →
    decode m64 code16 (ps ++ 0x0F :: 0xD5 :: rest) = .error .repeatPrefix ∧
      ∀ low : BitVec 4,
        decode true code16 (ps ++ (4#4 ++ low : BitVec 8) :: 0x0F :: 0xD5 :: rest) =
          .error .repeatPrefix

/-- R85.4, R85.5, R87: `66`, `F2`, `F3`, `F0` or REX before a VEX or EVEX prefix is `#UD`. In 64-bit
mode `C4`, `C5` and `62` are always such a prefix; outside it when bits 7:6 of the next byte are
`11`, and otherwise the bytes are another instruction. (That `#UD` comes before the refusals of
other maps, fixed bits and more than 15 bytes is the model's choice, log entry 21.) -/
def Obligations.PrefixBeforeVexIsUD : Prop :=
  ∀ (code16 : Bool) (ps rest : List Byte) (b : Byte), (∀ p ∈ ps, isLegacyPrefix p = true) →
    b ∈ [0xC4#8, 0xC5#8, 0x62#8] →
    ((0x66#8 ∈ ps ∨ 0xF0#8 ∈ ps ∨ 0xF2#8 ∈ ps ∨ 0xF3#8 ∈ ps) →
      decode true code16 (ps ++ b :: rest) = .error .invalidOpcode ∧
        ∀ next : Byte, next.extractLsb' 6 2 = 3 →
          decode false code16 (ps ++ b :: next :: rest) = .error .invalidOpcode) ∧
    (∀ low : BitVec 4,
      decode true code16 (ps ++ ((4#4 ++ low : BitVec 8) :: b :: rest)) = .error .invalidOpcode) ∧
    (∀ next : Byte, next.extractLsb' 6 2 ≠ 3 →
      decode false code16 (ps ++ b :: next :: rest) = .error .otherInstruction) ∧
    decode false code16 (ps ++ [b]) = .error .truncated

/-- R80, R81, R87, D23: outside 64-bit mode a VEX form whose stored `¬B` is 0 or whose `vvvv` is above
7, and an EVEX form with any of the stored `¬B`, `¬R'`, `¬V'` equal to 0 or `vvvv` above 7, is
refused. (That the EVEX refusal comes before the `#UD` of its other settings is the model's choice,
log entry 21.) -/
def Obligations.ExtensionBitsOutside64AreRefused : Prop :=
  ∀ (code16 : Bool) (b p p0 p1 p2 : Byte) (rest : List Byte),
    (b.extractLsb' 6 2 = 3 → b.extractLsb' 0 5 = 1 → p.extractLsb' 0 2 = 1 →
      (b.getLsbD 5 = false ∨ p.getLsbD 6 = false) →
      decode false code16 (0xC4 :: b :: p :: 0xD5 :: rest) = .error .extensionOutside64) ∧
    (p0.extractLsb' 6 2 = 3 → p0.getLsbD 3 = false → p0.extractLsb' 0 3 = 1 →
      p1.getLsbD 2 = true → p1.extractLsb' 0 2 = 1 →
      (p0.getLsbD 5 = false ∨ p0.getLsbD 4 = false ∨ p2.getLsbD 3 = false ∨ p1.getLsbD 6 = false) →
      decode false code16 (0x62 :: p0 :: p1 :: p2 :: 0xD5 :: rest) = .error .extensionOutside64)

/-- R81, R87: an EVEX form with `b = 1`, with `z = 1` and `aaa = 000`, or with `L'L = 11` is `#UD`;
one with P0 bit 3 = 1 or P1 bit 2 = 0 is refused. -/
def Obligations.IllegalEvexSettings : Prop :=
  ∀ (code16 : Bool) (p0 p1 p2 : Byte) (rest : List Byte),
    (p0.getLsbD 3 = false → p1.getLsbD 2 = true → p0.extractLsb' 0 3 = 1 →
      p1.extractLsb' 0 2 = 1 →
      (p2.getLsbD 4 = true ∨ (p2.getLsbD 7 = true ∧ p2.extractLsb' 0 3 = 0) ∨
        p2.extractLsb' 5 2 = 3) →
      decode true code16 (0x62 :: p0 :: p1 :: p2 :: 0xD5 :: rest) = .error .invalidOpcode) ∧
    ((p0.getLsbD 3 = true ∨ p1.getLsbD 2 = false) →
      decode true code16 (0x62 :: p0 :: p1 :: p2 :: 0xD5 :: rest) = .error .evexFixedBits)

/-- R80, R81, R87: the W bit of the three-byte VEX prefix and of the EVEX prefix has no effect. -/
def Obligations.WBitHasNoEffect : Prop :=
  ∀ (m64 code16 : Bool) (b p0 p p2 : Byte) (rest : List Byte),
    decode m64 code16 (0xC4 :: b :: (p ^^^ 0x80) :: rest) =
        decode m64 code16 (0xC4 :: b :: p :: rest) ∧
      decode m64 code16 (0x62 :: p0 :: (p ^^^ 0x80) :: p2 :: rest) =
        decode m64 code16 (0x62 :: p0 :: p :: p2 :: rest)

/-- R78, R87, D27: outside 64-bit mode a memory operand of any form with the prefix `67`, or in a
16-bit code segment, is refused (with `67` in a 16-bit code segment too, log entry 19; before the
refusal of more than 15 bytes, log entry 21); with a register operand neither has an effect, `67`
but on the length. -/
def Obligations.SixteenBitAddressingIsRefused : Prop :=
  ∀ (code16 : Bool) (mod : BitVec 2) (reg rm : BitVec 3) (rest : List Byte),
    (∀ ps head : List Byte, (∀ p ∈ ps, p ∈ neutralPrefixes) → OpcodeOutside64 head →
      (mod ≠ 3 → (0x67#8 ∈ ps ∨ code16 = true) →
        decode false code16 (ps ++ head ++ modrmByte mod reg rm :: rest) = .error .address16) ∧
      (ps.length + head.length + 1 ≤ 15 →
        ∃ i, decode false false (head ++ modrmByte 3 reg rm :: rest) = .ok i ∧
          i.memOperand = none ∧ i.len = head.length + 1 ∧
          decode false code16 (ps ++ head ++ modrmByte 3 reg rm :: rest) =
            .ok (i.withLen (ps.length + i.len)))) ∧
    decode false code16 (0x67 :: 0x66 :: 0x0F :: 0xD5 :: modrmByte 3 reg rm :: rest) =
      .ok (.pmullwSse128 (Fin.ofNat 32 reg.toNat) (.reg (Fin.ofNat 32 rm.toNat)) 5)

/-- R83: with `mod = 01` the displacement is `sext(disp8) * N`, `N` = 16, 32, 64 in the EVEX forms,
and is not scaled in the legacy, MMX and VEX forms. -/
def Obligations.Disp8IsScaledInEvexForms : Prop :=
  ∀ (code16 : Bool) (d8 : Byte) (rest : List Byte),
    let at_ (n : Nat) : MemOperand := ⟨false, .ds, .reg 0, none, BitVec.ofInt 32 (d8.toInt * n)⟩
    decode true code16 (0x62 :: 0xF1 :: 0x6D :: 0x08 :: 0xD5 :: 0x48 :: d8 :: rest) =
        .ok (.vpmullwEvex128 1 2 (.mem (at_ 16)) 0 false 7) ∧
      decode true code16 (0x62 :: 0xF1 :: 0x6D :: 0x28 :: 0xD5 :: 0x48 :: d8 :: rest) =
        .ok (.vpmullwEvex256 1 2 (.mem (at_ 32)) 0 false 7) ∧
      decode true code16 (0x62 :: 0xF1 :: 0x6D :: 0x48 :: 0xD5 :: 0x48 :: d8 :: rest) =
        .ok (.vpmullwEvex512 1 2 (.mem (at_ 64)) 0 false 7) ∧
      decode true code16 (0xC5 :: 0xE9 :: 0xD5 :: 0x48 :: d8 :: rest) =
        .ok (.vpmullwVex128 1 2 (.mem (at_ 1)) 5) ∧
      decode true code16 (0xC5 :: 0xED :: 0xD5 :: 0x48 :: d8 :: rest) =
        .ok (.vpmullwVex256 1 2 (.mem (at_ 1)) 5) ∧
      decode true code16 (0x66 :: 0x0F :: 0xD5 :: 0x48 :: d8 :: rest) =
        .ok (.pmullwSse128 1 (.mem (at_ 1)) 5) ∧
      decode true code16 (0x0F :: 0xD5 :: 0x48 :: d8 :: rest) =
        .ok (.pmullwMmx64 1 (.mem (at_ 1)) 4)

/-- R78.5: in 64-bit mode only FS and GS overrides change the address: among any overrides one of FS
(GS), and none of GS (FS), makes the segment FS (GS), and without either of them the segment is one
whose base is zero. (Which of several others it is, and that exceptions follow the same segment, is
log entry 18.) -/
def Obligations.FsGsOverrideCountsIn64BitMode : Prop :=
  ∀ (code16 : Bool) (segs : List SReg) (rest : List Byte), segs.length ≤ 11 →
    let decoded := decode true code16
      (segs.map overrideByte ++ 0x66 :: 0x0F :: 0xD5 :: 0x08 :: rest)
    let instr (sg : SReg) : Instr :=
      .pmullwSse128 1 (.mem ⟨false, sg, .reg 0, none, 0⟩) (segs.length + 4)
    (.fs ∈ segs → .gs ∉ segs → decoded = .ok (instr .fs)) ∧
    (.gs ∈ segs → .fs ∉ segs → decoded = .ok (instr .gs)) ∧
    (.fs ∈ segs → .gs ∈ segs → decoded = .ok (instr .fs) ∨ decoded = .ok (instr .gs)) ∧
    (.fs ∉ segs → .gs ∉ segs →
      ∃ sg, sg ≠ .fs ∧ sg ≠ .gs ∧ decoded = .ok (instr sg) ∧
        ∀ s : State, s.mode64 = true → segmentBase sg s = 0)

/-! ## Steps and runs -/

/-- 00_scope.md R17, 10_state.md R26: when the bytes at `pc` decode to an instruction that ends
below the top of the address space, the step is its execution. -/
def Obligations.StepRunsTheDecodedInstruction : Prop :=
  ∀ (s : State) (i : Instr), decode s.mode64 s.code16 (fetchWindow s) = .ok i →
    s.pc.toNat + i.len < 2 ^ s.addrBits → step s = exec i s

/-- The same from memory: when the encoding of a well-formed instruction stands at `pc`, below the
top of the address space, the step is its execution. -/
def Obligations.StepRunsTheEncodedInstruction : Prop :=
  ∀ (s : State) (i : Instr), i.wellFormed s.mode64 = true →
    (s.mode64 = true ∨ s.code16 = false) → s.pc.toNat + i.len < 2 ^ s.addrBits →
    (∀ k < i.len, s.mem.read (s.pc.toNat + k) = (encode s.mode64 i).getD k 0) →
    step s = exec i s

/-- The launch of a program (70_reset_and_hazards.md R181; log entry 8): in 64-bit mode a word of the
opcode table, stored with `withFetchWord`, is the instruction the next step executes. -/
def Obligations.StepRunsTheFetchWord : Prop :=
  ∀ (s : State) (nbits w : Nat) (i : Instr), s.mem.wf = true → s.mode64 = true →
    s.pc.toNat + 15 < 2 ^ 64 → decodeTableWord nbits w = some i →
    step (s.withFetchWord nbits w) = exec i (s.withFetchWord nbits w)

/-- R26 (D6), R78, R80, R81, R86, R87: an instruction that reaches the top of the address space is
refused (that one ending exactly there is too is the model's reading, log entry 20), an illegal
encoding raises `#UD`, and every other decoding error is refused by name. (That these refusals come
before the `#UD` of features, mode and control registers is the model's choice, log entry 33.) Bytes that end before the
instruction does ran into the 15-byte limit when 15 were there, else into the top of the address
space. -/
def Obligations.StepStopsAsTheDecoderSays : Prop :=
  ∀ s : State,
    let decoded := decode s.mode64 s.code16 (fetchWindow s)
    (∀ i, decoded = .ok i → 2 ^ s.addrBits ≤ s.pc.toNat + i.len → step s = .refused .pcWraps) ∧
    (decoded = .error .invalidOpcode → step s = .fault .invalidOpcode) ∧
    (decoded = .error .otherInstruction → step s = .refused .otherInstruction) ∧
    (decoded = .error .repeatPrefix → step s = .refused .repeatPrefix) ∧
    (decoded = .error .address16 → step s = .refused .address16) ∧
    (decoded = .error .extensionOutside64 → step s = .refused .extensionOutside64) ∧
    (decoded = .error .evexFixedBits → step s = .refused .evexFixedBits) ∧
    (decoded = .error .tooLong ∨
        (decoded = .error .truncated ∧ s.pc.toNat + 15 ≤ 2 ^ s.addrBits) →
      step s = .refused .tooLong) ∧
    (decoded = .error .truncated → 2 ^ s.addrBits < s.pc.toNat + 15 → step s = .refused .pcWraps)

/-- R86: an instruction that redundant prefixes make longer than 15 bytes is refused by the step.
(That it is where the form is absent or disabled too is the model's choice, log entry 33.) -/
def Obligations.StepRefusesLongInstructions : Prop :=
  ∀ (s : State) (bs : List Byte) (i : Instr) (p : Byte) (n : Nat),
    decode s.mode64 s.code16 bs = .ok i → RedundantBefore i p → 15 < i.len + n →
    s.pc.toNat + 15 ≤ 2 ^ s.addrBits →
    (∀ k < 15, s.mem.read (s.pc.toNat + k) = (List.replicate n p ++ bs).getD k 0) →
    step s = .refused .tooLong

/-- Every step keeps the invariant: memory stays canonical, no vector register grows beyond `MAXVL`
(10_state.md R20), and the program counter stays within the address width (R26). -/
def Obligations.StepKeepsTheInvariant : Prop :=
  ∀ s t : State, s.Inv → step s = .next t → t.Inv

/-- The invariant holds at the start of a run (of the reset values the model chose, log entries 2, 5,
6, 7). -/
def Obligations.ResetSatisfiesTheInvariant : Prop := State.reset.Inv

/-- The MODEL'S CHOICE of the state at the start of a run, since the spec gives no reset value
(10_state.md R33): log entries 2, 5, 6 and 7. -/
def Obligations.ResetStateAsChosen : Prop :=
  State.reset.pc = 0xFFF0 ∧ State.reset.mode64 = true ∧ State.reset.cr0 = 0x60000010 ∧
    State.reset.cr4 = 0x40200 ∧ State.reset.xcr0 = 0xE7 ∧ State.reset.rflags = 2 ∧
    State.reset.cpl = 0 ∧ (∀ n, State.reset.getV n = 0) ∧ (∀ n, State.reset.getMM n = 0) ∧
    (∀ n, State.reset.getK n = 0) ∧ (∀ n, State.reset.getG n = 0) ∧
    (∀ a, State.reset.mem.read a = 0) ∧ ∀ f, Ready f State.reset
end

