-- ==== Sys2Proof/Laws/Decode.lean ====
section
/-!
SUPPORT. The pieces of the decoder read back what the pieces of the encoder wrote.
-/

namespace Sys2Proof

/-! ## Fields and register numbers -/

@[simp] theorem field_modrmByte_mod : ∀ mod reg rm, field (modrmByte mod reg rm) 6 2 = mod := by
  decide

@[simp] theorem field_modrmByte_reg : ∀ mod reg rm, field (modrmByte mod reg rm) 3 3 = reg := by
  decide

@[simp] theorem field_modrmByte_rm : ∀ mod reg rm, field (modrmByte mod reg rm) 0 3 = rm := by
  decide

@[simp] theorem field_sibByte_scale : ∀ sc ix b, field (sibByte sc ix b) 6 2 = sc := by decide

@[simp] theorem field_sibByte_index : ∀ sc ix b, field (sibByte sc ix b) 3 3 = ix := by decide

@[simp] theorem field_sibByte_base : ∀ sc ix b, field (sibByte sc ix b) 0 3 = b := by decide

@[simp] theorem vregOf_hi_low3 : ∀ n : VReg, vregOf (hi4 n) (hi3 n) (low3 n) = n := by decide

theorem vregOf_hi3_low3 : ∀ n : VReg, n.val < 16 → vregOf false (hi3 n) (low3 n) = n := by decide

theorem vregOf_low3 : ∀ n : VReg, n.val < 8 → vregOf false false (low3 n) = n := by decide

@[simp] theorem gregOf_hi3_low3 : ∀ n : GReg, gregOf (hi3 n) (low3 n) = n := by decide

@[simp] theorem reg3Of_low3 : ∀ n : Fin 8, reg3Of (low3 n) = n := by decide

/-- Outside 64-bit mode the general registers have no extension bit. -/
theorem hi3_of_ok {n : GReg} (h : GReg.ok false n = true) : hi3 n = false := by
  revert h; revert n; decide

/-! ## Displacements -/

/-- Four bytes of a displacement read back. -/
theorem disp32Of_bytes (d : BitVec 32) :
    disp32Of (d.extractLsb' 0 8) (d.extractLsb' 8 8) (d.extractLsb' 16 8) (d.extractLsb' 24 8) = d := by
  apply BitVec.eq_of_getLsbD_eq
  intro i hi
  simp only [disp32Of, BitVec.getLsbD_append, BitVec.getLsbD_extractLsb']
  by_cases h1 : i < 8
  · simp [h1]
  · by_cases h2 : i < 16
    · have : i - 8 < 8 := by omega
      have e : 8 + (i - 8) = i := by omega
      simp [h1, this, e]
    · by_cases h3 : i < 24
      · have a1 : ¬ i - 8 < 8 := by omega
        have a2 : i - 8 - 8 < 8 := by omega
        have e : 16 + (i - 8 - 8) = i := by omega
        simp [h1, a1, a2, e]
      · have a1 : ¬ i - 8 < 8 := by omega
        have a2 : ¬ i - 8 - 8 < 8 := by omega
        have a3 : i - 8 - 8 - 8 < 8 := by omega
        have e : 24 + (i - 8 - 8 - 8) = i := by omega
        simp [h1, a1, a2, a3, e]

/-- A four-byte displacement reads back. -/
theorem takeDisp_dispBytes (mod : BitVec 2) (wide : Bool) (n : Nat) (d : BitVec 32)
    (rest : List Byte) (h : (wide || mod == 2#2) = true) :
    takeDisp mod wide n (dispBytes d ++ rest) = .ok (d, rest) := by
  simp [takeDisp, h, dispBytes, disp32Of_bytes]

/-- The shortest spelling of a displacement reads back. -/
theorem takeDisp_dispSpelling (n : Nat) (base3 : BitVec 3) (d : BitVec 32) (rest : List Byte) :
    takeDisp (dispSpelling n base3 d).1 false n ((dispSpelling n base3 d).2 ++ rest) =
      .ok (d, rest) := by
  unfold dispSpelling
  dsimp only
  split
  · next h => simp [takeDisp, h.1]
  · split
    · next h => simp [takeDisp, h]
    · exact takeDisp_dispBytes _ _ _ _ _ (by simp)

/-- The shortest spelling of a displacement is never the register form of `mod`, and for base
number 5 never the form without displacement. -/
theorem dispSpelling_mod (n : Nat) (base3 : BitVec 3) (d : BitVec 32) :
    (dispSpelling n base3 d).1 ≠ 3#2 ∧ (base3 = 5#3 → (dispSpelling n base3 d).1 ≠ 0#2) := by
  unfold dispSpelling
  dsimp only
  split
  · next h => exact ⟨by decide, fun h5 => absurd h5 h.2⟩
  · split <;> simp

/-! ## ModRM, SIB and displacement -/

/-- What the context must be for a memory operand to read back. -/
structure RmContext.Fits (c : RmContext) (m : MemOperand) : Prop where
  addr16 : c.addr16 = false
  addr32 : c.addr32 = m.addr32
  seg : c.override.getD m.base.defaultSeg = m.seg
  x : c.x = m.xBit
  b : c.b = m.bBit

theorem index_ne_four {m64 : Bool} {m : MemOperand} {ix : Index} (hok : m.ok m64 = true)
    (hi : m.index = some ix) : ix.reg ≠ 4 := by
  simp only [MemOperand.ok, hi, Bool.and_eq_true, decide_eq_true_eq] at hok
  exact hok.2.1.1

theorem base_ne_rip {m64 : Bool} {m : MemOperand} {ix : Index} (hok : m.ok m64 = true)
    (hi : m.index = some ix) : m.base ≠ .rip := by
  simp only [MemOperand.ok, hi, Bool.and_eq_true, decide_eq_true_eq] at hok
  exact hok.2.2

/-- A memory operand reads back (30_encoding.md R77, R78). -/
theorem parseModRM_memBytes {c : RmContext} {m : MemOperand} (hf : c.Fits m)
    (hok : m.ok c.m64 = true) (reg : BitVec 3) (rest : List Byte) :
    parseModRM c (memBytes c.m64 c.scale reg m ++ rest) = .ok (reg, .mem m, rest) := by
  obtain ⟨h16, h32, hseg, hx, hb⟩ := hf
  have h4 := @index_ne_four c.m64 m
  have hr := @base_ne_rip c.m64 m
  obtain ⟨a32, sg, base, index, d⟩ := m
  simp only at h32 hseg
  have fin : ∀ (mod : BitVec 2) (wide : Bool) (bs : List Byte),
      takeDisp mod wide c.scale bs = .ok (d, rest) →
      c.finish mod wide base index bs = .ok (.mem ⟨a32, sg, base, index, d⟩, rest) := by
    intro mod wide bs h
    simp [RmContext.finish, h, h32, hseg]
  cases base with
  | none =>
    cases index with
    | none =>
      simp only [memBytes]
      cases h64 : c.m64
      · have := fin 0#2 true (dispBytes d ++ rest) (takeDisp_dispBytes _ _ _ _ _ rfl)
        simp [parseModRM, parseMem, h16, h64, this]
      · have := fin 0#2 true (dispBytes d ++ rest) (takeDisp_dispBytes _ _ _ _ _ rfl)
        have hx' : c.x = false := by rw [hx]; rfl
        have e : gregOf false 4#3 = 4 := by decide
        simp [parseModRM, parseMem, h16, hx', e, this]
    | some ix =>
      have hne : ix.reg ≠ 4 := h4 hok rfl
      have hx' : c.x = hi3 ix.reg := hx
      have := fin 0#2 true (dispBytes d ++ rest) (takeDisp_dispBytes _ _ _ _ _ rfl)
      simp [memBytes, parseModRM, parseMem, h16, hx', hne, this]
  | rip =>
    cases index with
    | none =>
      have h64 : c.m64 = true := by
        have := hok
        simp only [MemOperand.ok, Base.ok, Bool.and_eq_true] at this
        exact this.1.2
      have := fin 0#2 true (dispBytes d ++ rest) (takeDisp_dispBytes _ _ _ _ _ rfl)
      simp [memBytes, parseModRM, parseMem, h16, h64, this]
    | some ix => exact absurd rfl (hr hok rfl)
  | reg b =>
    have hb' : c.b = hi3 b := hb
    obtain ⟨hm3, hm5⟩ := dispSpelling_mod c.scale (low3 b) d
    have htd := takeDisp_dispSpelling c.scale (low3 b) d rest
    cases index with
    | none =>
      have hx' : c.x = false := by rw [hx]; rfl
      have e : gregOf false 4#3 = 4 := by decide
      have := fin _ false _ htd
      by_cases hl : low3 b = 4#3
      · have hb4 : gregOf (hi3 b) 4#3 = b := by rw [← hl]; exact gregOf_hi3_low3 b
        rw [hl] at this hm3
        simp [memBytes, hl, parseModRM, parseMem, h16, hm3, hx', e, hb', hb4, this]
      · by_cases h5 : low3 b = 5#3
        · have h0 := hm5 h5
          simp [memBytes, hl, parseModRM, parseMem, h16, hm3, hb', h0, this]
        · simp [memBytes, hl, parseModRM, parseMem, h16, hm3, hb', h5, this]
    | some ix =>
      have hne : ix.reg ≠ 4 := h4 hok rfl
      have hx' : c.x = hi3 ix.reg := hx
      have := fin _ false _ htd
      by_cases h5 : low3 b = 5#3
      · have h0 := hm5 h5
        simp [memBytes, parseModRM, parseMem, h16, hm3, hx', hne, hb', h0, this]
      · simp [memBytes, parseModRM, parseMem, h16, hm3, hx', hne, hb', h5, this]

/-- A register operand reads back (30_encoding.md R77). -/
theorem parseModRM_reg (c : RmContext) (reg rm : BitVec 3) (rest : List Byte) :
    parseModRM c (modrmByte 3#2 reg rm :: rest) = .ok (reg, .reg rm, rest) := by
  simp [parseModRM]

/-! ## Legacy prefixes -/

/-- An override prefix names its segment. -/
@[simp] theorem overrideSeg_overrideByte (sg : SReg) : overrideSeg (overrideByte sg) = some sg := by
  cases sg <;> rfl

/-- An override prefix is taken in as one. -/
theorem add_overrideByte (p : Prefixes) (sg : SReg) :
    p.add (overrideByte sg) = some { p with segs := p.segs ++ [sg] } := by
  cases sg <;> rfl

/-- Redundant override prefixes are scanned away (30_encoding.md R87). -/
theorem scanPrefixes_replicate (n : Nat) (sg : SReg) (p : Prefixes) (bs : List Byte) :
    scanPrefixes p (List.replicate n (overrideByte sg) ++ bs) =
      scanPrefixes { p with segs := p.segs ++ List.replicate n sg } bs := by
  induction n generalizing p with
  | zero => simp
  | succ n ih =>
    rw [List.replicate_succ, List.cons_append, scanPrefixes, add_overrideByte]
    simp only [ih, List.append_assoc, List.singleton_append, ← List.replicate_succ]

/-- Of equal overrides all count. -/
theorem countingSegs_replicate (m64 : Bool) (p : Prefixes) (n : Nat) (sg : SReg)
    (h : p.segs = List.replicate n sg) : p.countingSegs m64 = List.replicate n sg := by
  unfold Prefixes.countingSegs
  split
  · next hany =>
    simp only [Bool.and_eq_true, h, List.any_eq_true, List.mem_replicate] at hany
    obtain ⟨-, x, ⟨-, rfl⟩, hx⟩ := hany
    simp [h, hx]
  · exact h

/-- Every override that counts is one of the prefixes. -/
theorem mem_countingSegs {m64 : Bool} {p : Prefixes} {sg : SReg} (h : sg ∈ p.countingSegs m64) :
    sg ∈ p.segs := by
  unfold Prefixes.countingSegs at h
  split at h
  · exact (List.mem_filter.mp h).1
  · exact h

/-- The override in force is one that counts. -/
theorem override_mem {m64 : Bool} {p : Prefixes} {sg : SReg} (h : p.override m64 = some sg) :
    sg ∈ p.countingSegs m64 := by
  unfold Prefixes.override at h
  split at h
  · simp at h
  · next a rest hc =>
    rw [hc]
    split at h
    · simp_all
    · exact List.mem_of_getElem? h

/-- Equal overrides name their segment. -/
theorem override_replicate (m64 : Bool) (p : Prefixes) (n : Nat) (sg : SReg)
    (h : p.segs = List.replicate n sg) : p.override m64 = if n = 0 then none else some sg := by
  have hc := countingSegs_replicate m64 p n sg h
  cases n with
  | zero => simp [Prefixes.override, hc]
  | succ n => simp [Prefixes.override, hc, List.replicate_succ]

/-! ## Lengths -/

/-- An instruction of a possible length is spelled in as many bytes (30_encoding.md R86). -/
theorem length_encode {m64 : Bool} {i : Instr} (h : i.lenOk m64 = true) :
    (encode m64 i).length = i.len := by
  simp only [Instr.lenOk, Bool.and_eq_true, decide_eq_true_eq] at h
  have hmin : (encodeBody m64 i).length ≤ i.len := le_trans (Nat.le_add_right _ _) h.1
  simp only [encode, List.length_append, List.length_replicate]
  omega

/-! ## Selecting VEX or EVEX (30_encoding.md R85 steps 4 and 5) -/

/-- In 64-bit mode the byte is always a VEX or EVEX prefix. -/
@[simp] theorem prefixSelected_mode64 (bs : List Byte) : prefixSelected true bs = .ok true := rfl

/-- Outside 64-bit mode it is not known without the next byte. -/
@[simp] theorem prefixSelected_nil : prefixSelected false [] = .error .truncated := rfl

/-- Outside 64-bit mode bits 7:6 of the next byte decide. -/
@[simp] theorem prefixSelected_cons (b : Byte) (bs : List Byte) :
    prefixSelected false (b :: bs) = .ok (field b 6 2 == 3#2) := rfl

/-! ## Another length -/

@[simp] theorem Instr.len_withLen (i : Instr) (n : Nat) : (i.withLen n).len = n := by cases i <;> rfl

@[simp] theorem Instr.form_withLen (i : Instr) (n : Nat) : (i.withLen n).form = i.form := by
  cases i <;> rfl

@[simp] theorem Instr.withLen_len (i : Instr) : i.withLen i.len = i := by cases i <;> rfl

@[simp] theorem Instr.withLen_withLen (i : Instr) (m n : Nat) :
    (i.withLen m).withLen n = i.withLen n := by cases i <;> rfl

@[simp] theorem Instr.memOperand_withLen (i : Instr) (n : Nat) :
    (i.withLen n).memOperand = i.memOperand := by
  cases i with
  | pmullwMmx64 d s2 len => cases s2 <;> rfl
  | _ => rfl

/-- Only the length of a decoded instruction depends on how many bytes were consumed. -/
@[simp] theorem Header.withLen_instr (h : Header) (reg : BitVec 3) (op : RmOperand) (m n : Nat) :
    (h.instr reg op m).withLen n = h.instr reg op n := by
  unfold Header.instr
  dsimp only
  split <;> rfl

@[simp] theorem Header.len_instr (h : Header) (reg : BitVec 3) (op : RmOperand) (n : Nat) :
    (h.instr reg op n).len = n := by
  unfold Header.instr
  dsimp only
  split <;> rfl

end Sys2Proof
end

