-- ==== Sys2Proof/Laws/State.lean ====
section
/-!
SUPPORT. One lemma per field per update of the state (each true by rfl), so that no proof unfolds a
record update, and the laws of the register accessors.
-/

namespace Sys2Proof.Machine

variable (s : State)

/-! ## setV -/

@[simp] theorem State.setV_cfg (n : VReg) (v : BitVec 512) : (s.setV n v).cfg = s.cfg := rfl
@[simp] theorem State.setV_mode (n : VReg) (v : BitVec 512) : (s.setV n v).mode = s.mode := rfl
@[simp] theorem State.setV_code16 (n : VReg) (v : BitVec 512) : (s.setV n v).code16 = s.code16 := rfl
@[simp] theorem State.setV_cpl (n : VReg) (v : BitVec 512) : (s.setV n v).cpl = s.cpl := rfl
@[simp] theorem State.setV_pc (n : VReg) (v : BitVec 512) : (s.setV n v).pc = s.pc := rfl
@[simp] theorem State.setV_mm (n : VReg) (v : BitVec 512) : (s.setV n v).mm = s.mm := rfl
@[simp] theorem State.setV_kmask (n : VReg) (v : BitVec 512) : (s.setV n v).kmask = s.kmask := rfl
@[simp] theorem State.setV_gpr (n : VReg) (v : BitVec 512) : (s.setV n v).gpr = s.gpr := rfl
@[simp] theorem State.setV_segs (n : VReg) (v : BitVec 512) : (s.setV n v).segs = s.segs := rfl
@[simp] theorem State.setV_rflags (n : VReg) (v : BitVec 512) : (s.setV n v).rflags = s.rflags := rfl
@[simp] theorem State.setV_mxcsr (n : VReg) (v : BitVec 512) : (s.setV n v).mxcsr = s.mxcsr := rfl
@[simp] theorem State.setV_cr0 (n : VReg) (v : BitVec 512) : (s.setV n v).cr0 = s.cr0 := rfl
@[simp] theorem State.setV_cr2 (n : VReg) (v : BitVec 512) : (s.setV n v).cr2 = s.cr2 := rfl
@[simp] theorem State.setV_cr4 (n : VReg) (v : BitVec 512) : (s.setV n v).cr4 = s.cr4 := rfl
@[simp] theorem State.setV_xcr0 (n : VReg) (v : BitVec 512) : (s.setV n v).xcr0 = s.xcr0 := rfl
@[simp] theorem State.setV_x87 (n : VReg) (v : BitVec 512) : (s.setV n v).x87 = s.x87 := rfl
@[simp] theorem State.setV_xlate (n : VReg) (v : BitVec 512) : (s.setV n v).xlate = s.xlate := rfl
@[simp] theorem State.setV_mem (n : VReg) (v : BitVec 512) : (s.setV n v).mem = s.mem := rfl
@[simp] theorem State.setV_draws (n : VReg) (v : BitVec 512) : (s.setV n v).draws = s.draws := rfl

/-! ## setMM -/

@[simp] theorem State.setMM_cfg (n : MReg) (v : BitVec 64) : (s.setMM n v).cfg = s.cfg := rfl
@[simp] theorem State.setMM_mode (n : MReg) (v : BitVec 64) : (s.setMM n v).mode = s.mode := rfl
@[simp] theorem State.setMM_code16 (n : MReg) (v : BitVec 64) : (s.setMM n v).code16 = s.code16 := rfl
@[simp] theorem State.setMM_cpl (n : MReg) (v : BitVec 64) : (s.setMM n v).cpl = s.cpl := rfl
@[simp] theorem State.setMM_pc (n : MReg) (v : BitVec 64) : (s.setMM n v).pc = s.pc := rfl
@[simp] theorem State.setMM_vec (n : MReg) (v : BitVec 64) : (s.setMM n v).vec = s.vec := rfl
@[simp] theorem State.setMM_kmask (n : MReg) (v : BitVec 64) : (s.setMM n v).kmask = s.kmask := rfl
@[simp] theorem State.setMM_gpr (n : MReg) (v : BitVec 64) : (s.setMM n v).gpr = s.gpr := rfl
@[simp] theorem State.setMM_segs (n : MReg) (v : BitVec 64) : (s.setMM n v).segs = s.segs := rfl
@[simp] theorem State.setMM_rflags (n : MReg) (v : BitVec 64) : (s.setMM n v).rflags = s.rflags := rfl
@[simp] theorem State.setMM_mxcsr (n : MReg) (v : BitVec 64) : (s.setMM n v).mxcsr = s.mxcsr := rfl
@[simp] theorem State.setMM_cr0 (n : MReg) (v : BitVec 64) : (s.setMM n v).cr0 = s.cr0 := rfl
@[simp] theorem State.setMM_cr2 (n : MReg) (v : BitVec 64) : (s.setMM n v).cr2 = s.cr2 := rfl
@[simp] theorem State.setMM_cr4 (n : MReg) (v : BitVec 64) : (s.setMM n v).cr4 = s.cr4 := rfl
@[simp] theorem State.setMM_xcr0 (n : MReg) (v : BitVec 64) : (s.setMM n v).xcr0 = s.xcr0 := rfl
@[simp] theorem State.setMM_x87 (n : MReg) (v : BitVec 64) : (s.setMM n v).x87 = s.x87 := rfl
@[simp] theorem State.setMM_xlate (n : MReg) (v : BitVec 64) : (s.setMM n v).xlate = s.xlate := rfl
@[simp] theorem State.setMM_mem (n : MReg) (v : BitVec 64) : (s.setMM n v).mem = s.mem := rfl
@[simp] theorem State.setMM_draws (n : MReg) (v : BitVec 64) : (s.setMM n v).draws = s.draws := rfl

/-! ## drawX87 -/

@[simp] theorem State.drawX87_cfg (d : MReg) : (s.drawX87 d).cfg = s.cfg := rfl
@[simp] theorem State.drawX87_mode (d : MReg) : (s.drawX87 d).mode = s.mode := rfl
@[simp] theorem State.drawX87_code16 (d : MReg) : (s.drawX87 d).code16 = s.code16 := rfl
@[simp] theorem State.drawX87_cpl (d : MReg) : (s.drawX87 d).cpl = s.cpl := rfl
@[simp] theorem State.drawX87_pc (d : MReg) : (s.drawX87 d).pc = s.pc := rfl
@[simp] theorem State.drawX87_vec (d : MReg) : (s.drawX87 d).vec = s.vec := rfl
@[simp] theorem State.drawX87_mm (d : MReg) : (s.drawX87 d).mm = s.mm := rfl
@[simp] theorem State.drawX87_kmask (d : MReg) : (s.drawX87 d).kmask = s.kmask := rfl
@[simp] theorem State.drawX87_gpr (d : MReg) : (s.drawX87 d).gpr = s.gpr := rfl
@[simp] theorem State.drawX87_segs (d : MReg) : (s.drawX87 d).segs = s.segs := rfl
@[simp] theorem State.drawX87_rflags (d : MReg) : (s.drawX87 d).rflags = s.rflags := rfl
@[simp] theorem State.drawX87_mxcsr (d : MReg) : (s.drawX87 d).mxcsr = s.mxcsr := rfl
@[simp] theorem State.drawX87_cr0 (d : MReg) : (s.drawX87 d).cr0 = s.cr0 := rfl
@[simp] theorem State.drawX87_cr2 (d : MReg) : (s.drawX87 d).cr2 = s.cr2 := rfl
@[simp] theorem State.drawX87_cr4 (d : MReg) : (s.drawX87 d).cr4 = s.cr4 := rfl
@[simp] theorem State.drawX87_xcr0 (d : MReg) : (s.drawX87 d).xcr0 = s.xcr0 := rfl
@[simp] theorem State.drawX87_xlate (d : MReg) : (s.drawX87 d).xlate = s.xlate := rfl
@[simp] theorem State.drawX87_mem (d : MReg) : (s.drawX87 d).mem = s.mem := rfl

/-! ## advance -/

@[simp] theorem State.advance_cfg (len : Nat) : (s.advance len).cfg = s.cfg := rfl
@[simp] theorem State.advance_mode (len : Nat) : (s.advance len).mode = s.mode := rfl
@[simp] theorem State.advance_code16 (len : Nat) : (s.advance len).code16 = s.code16 := rfl
@[simp] theorem State.advance_cpl (len : Nat) : (s.advance len).cpl = s.cpl := rfl
@[simp] theorem State.advance_vec (len : Nat) : (s.advance len).vec = s.vec := rfl
@[simp] theorem State.advance_mm (len : Nat) : (s.advance len).mm = s.mm := rfl
@[simp] theorem State.advance_kmask (len : Nat) : (s.advance len).kmask = s.kmask := rfl
@[simp] theorem State.advance_gpr (len : Nat) : (s.advance len).gpr = s.gpr := rfl
@[simp] theorem State.advance_segs (len : Nat) : (s.advance len).segs = s.segs := rfl
@[simp] theorem State.advance_rflags (len : Nat) : (s.advance len).rflags = s.rflags := rfl
@[simp] theorem State.advance_mxcsr (len : Nat) : (s.advance len).mxcsr = s.mxcsr := rfl
@[simp] theorem State.advance_cr0 (len : Nat) : (s.advance len).cr0 = s.cr0 := rfl
@[simp] theorem State.advance_cr2 (len : Nat) : (s.advance len).cr2 = s.cr2 := rfl
@[simp] theorem State.advance_cr4 (len : Nat) : (s.advance len).cr4 = s.cr4 := rfl
@[simp] theorem State.advance_xcr0 (len : Nat) : (s.advance len).xcr0 = s.xcr0 := rfl
@[simp] theorem State.advance_x87 (len : Nat) : (s.advance len).x87 = s.x87 := rfl
@[simp] theorem State.advance_xlate (len : Nat) : (s.advance len).xlate = s.xlate := rfl
@[simp] theorem State.advance_mem (len : Nat) : (s.advance len).mem = s.mem := rfl
@[simp] theorem State.advance_draws (len : Nat) : (s.advance len).draws = s.draws := rfl

@[simp] theorem State.setV_vec (n : VReg) (v : BitVec 512) : (s.setV n v).vec = s.vec.set n v := rfl
@[simp] theorem State.setMM_mm (n : MReg) (v : BitVec 64) : (s.setMM n v).mm = s.mm.set n v := rfl
@[simp] theorem State.drawX87_draws (d : MReg) : (s.drawX87 d).draws = s.draws + 1 := rfl
@[simp] theorem State.drawX87_pending (d : MReg) :
    (s.drawX87 d).x87.pending = s.x87.pending := rfl
@[simp] theorem State.drawX87_high (d : MReg) :
    (s.drawX87 d).x87.high = s.x87.high.set d (Config.freeX87High s.draws) := rfl
@[simp] theorem State.advance_pc (len : Nat) :
    (s.advance len).pc = s.linear (s.pc + BitVec.ofNat 64 len) := rfl

/-! ## Register accessors -/

@[simp] theorem State.getV_setV_self (n : VReg) (v : BitVec 512) : (s.setV n v).getV n = v := by
  simp [State.getV]

theorem State.getV_setV_ne {n k : VReg} (v : BitVec 512) (h : k ≠ n) :
    (s.setV n v).getV k = s.getV k := by
  have : n.val ≠ k.val := fun e => h (Fin.ext e.symm)
  simp [State.getV, this]

@[simp] theorem State.getMM_setMM_self (n : MReg) (v : BitVec 64) :
    (s.setMM n v).getMM n = v := by
  simp [State.getMM]

theorem State.getMM_setMM_ne {n k : MReg} (v : BitVec 64) (h : k ≠ n) :
    (s.setMM n v).getMM k = s.getMM k := by
  have : n.val ≠ k.val := fun e => h (Fin.ext e.symm)
  simp [State.getMM, this]

@[simp] theorem State.getV_advance (len : Nat) (n : VReg) : (s.advance len).getV n = s.getV n := rfl
@[simp] theorem State.getMM_advance (len : Nat) (n : MReg) :
    (s.advance len).getMM n = s.getMM n := rfl
@[simp] theorem State.getMM_drawX87 (d n : MReg) : (s.drawX87 d).getMM n = s.getMM n := rfl
@[simp] theorem State.getV_setMM (n : MReg) (v : BitVec 64) (k : VReg) :
    (s.setMM n v).getV k = s.getV k := rfl
@[simp] theorem State.getV_drawX87 (d : MReg) (k : VReg) : (s.drawX87 d).getV k = s.getV k := rfl
@[simp] theorem State.mode64_advance (len : Nat) : (s.advance len).mode64 = s.mode64 := rfl
@[simp] theorem State.mode64_setV (n : VReg) (v : BitVec 512) :
    (s.setV n v).mode64 = s.mode64 := rfl
@[simp] theorem State.linear_setV (n : VReg) (v : BitVec 512) (a : Addr) :
    (s.setV n v).linear a = s.linear a := rfl
@[simp] theorem State.linear_setMM (n : MReg) (v : BitVec 64) (a : Addr) :
    (s.setMM n v).linear a = s.linear a := rfl
@[simp] theorem State.linear_drawX87 (d : MReg) (a : Addr) :
    (s.drawX87 d).linear a = s.linear a := rfl

/-- A zeroing write is a write of the zero-extended value. -/
theorem State.writeZeroing_eq (n : VReg) {w : Nat} (v : BitVec w) :
    s.writeZeroing n v = s.setV n (v.setWidth 512) := rfl

/-- A legacy write is a write of the value below the old upper bits. -/
theorem State.writeLow_eq (n : VReg) (v : BitVec 128) :
    s.writeLow n v = s.setV n ((s.getV n).extractLsb' 128 384 ++ v : BitVec 512) := rfl

/-- An address is cut to the address width. -/
theorem State.linear_of_mode64 (h : s.mode64 = true) (a : Addr) : s.linear a = a := by
  simp [State.linear, h]

theorem State.linear_lt (h : s.mode64 = false) (a : Addr) : (s.linear a).toNat < 2 ^ 32 := by
  simp only [State.linear, h, low32, Bool.false_eq_true, if_false]
  have := (a.setWidth 32).isLt
  rw [BitVec.toNat_setWidth]
  exact Nat.lt_of_le_of_lt (Nat.mod_le _ _) this

/-- With `MAXVL = 512` every vector register is within it. -/
theorem State.getV_lt_of_w512 (h : s.cfg.maxvl = .w512) (n : VReg) :
    (s.getV n).toNat < 2 ^ s.cfg.maxvl.bits := by
  simp only [h, MaxVL.bits]
  exact (s.getV n).isLt

end Sys2Proof.Machine
end

