-- ==== Sys2Proof/Laws/Execute.lean ====
section
/-!
SUPPORT. What each shared operation can do, said once: the frame of every meaning, the conditions
before the operand, the read of operand `r/m`.
-/

namespace Sys2Proof.Machine

/-! ## Outcomes -/

@[simp] theorem outcome_ok (s : State) : outcome (.ok s) = .next s := rfl
@[simp] theorem outcome_fault (f : Fault) : outcome (.error (.fault f)) = .fault f := rfl
@[simp] theorem outcome_refuse (r : Refusal) : outcome (.error (.refuse r)) = .refused r := rfl
@[simp] theorem outcome_raise (f : Fault) : outcome (raise f) = .fault f := rfl

/-- Only a completed execution has a next state. -/
theorem outcome_eq_next {r : Except Stop State} {t : State} (h : outcome r = .next t) :
    r = .ok t := by
  match r, h with
  | .ok _, h => simpa using h

/-! ## The frame of every meaning -/

/-- A meaning that answers a next state passed classes 1 to 3 of R159, read its source, wrote its
destination and advanced the program counter. -/
theorem execute_next {w : Nat} {f : Form} {len : Nat} {s t : State} {src : Except Stop (BitVec w)}
    {k : BitVec w → State} (h : execute f len s src k = .next t) :
    excCond f s = none ∧ ∃ y, src = .ok y ∧ t = (k y).advance len := by
  unfold execute at h
  split at h
  · simp at h
  · next hc =>
    refine ⟨hc, ?_⟩
    split at h
    · exact absurd (outcome_eq_next h) (by simp)
    · next y =>
      simp only [outcome_ok, Host.Outcome.next.injEq] at h
      exact ⟨y, rfl, h.symm⟩

/-- A meaning whose conditions hold and whose source is read completes. -/
theorem execute_of_ready {w : Nat} {f : Form} {len : Nat} {s : State} {src : Except Stop (BitVec w)}
    {k : BitVec w → State} {y : BitVec w} (hc : excCond f s = none) (hs : src = .ok y) :
    execute f len s src k = .next ((k y).advance len) := by
  simp [execute, hc, hs]

/-- A meaning stops with the exception of classes 1 to 3 of R159. -/
theorem execute_of_excCond {w : Nat} {f : Form} {len : Nat} {s : State}
    {src : Except Stop (BitVec w)} {k : BitVec w → State} {e : Fault} (hc : excCond f s = some e) :
    execute f len s src k = .fault e := by
  simp [execute, hc]

/-- A meaning stops as its source does. -/
theorem execute_of_error {w : Nat} {f : Form} {len : Nat} {s : State} {src : Except Stop (BitVec w)}
    {k : BitVec w → State} {st : Stop} (hc : excCond f s = none) (hs : src = .error st) :
    execute f len s src k = outcome (.error st) := by
  simp [execute, hc, hs]

/-! ## Classes 1 to 3 of R159 -/

/-- The availability test says what `Present` says. -/
theorem available_iff (f : Form) (c : Config) : available f c = true ↔ Present f c := by
  obtain ⟨mv, ⟨m, s2, a, a2, bw, vl, x1⟩, fs, cb, av, ae⟩ := c
  cases f <;> cases mv <;> simp [available, featureOk, Present, Form.vl, MaxVL.bits]

/-- The control-register test says what `Enabled` says. -/
theorem controlUD_iff (f : Form) (s : State) : controlUD f s = false ↔ Enabled f s := by
  cases f <;> simp [controlUD, Enabled, and_assoc]

/-- No exception of classes 1 to 3 exactly when the form is ready. -/
theorem excCond_eq_none (f : Form) (s : State) : excCond f s = none ↔ Ready f s := by
  unfold excCond Ready
  rw [← available_iff, ← controlUD_iff]
  cases available f s.cfg <;> cases controlUD f s <;> cases s.cr0TS <;> cases f <;>
    cases s.x87.pending <;> simp

/-! ## Operand `r/m` -/

/-- The device test says what `NotInDevice` says. -/
theorem operandInDevice_eq_false (f : Form) (m : MemOperand) (len : Nat) (s : State) :
    operandInDevice f m len s = false ↔ NotInDevice f m len s := by
  simp [operandInDevice, allBytes, isDevice, Form.bytes]

/-- A read that succeeds gives the accessed bytes, little-endian, and no byte of the operand is in a
device region. -/
theorem loadOperand_ok {w : Nat} {f : Form} {m : MemOperand} {len : Nat} {s : State}
    {acc : List Nat} {v : BitVec w} (h : loadOperand w f m len s acc = .ok v) :
    memFault f m len s acc = none ∧ NotInDevice f m len s ∧
      v = packBytes w
        (fun i => if i ∈ acc then byteAt s (byteAddr s (effAddr m len s) i) else unlistedByte)
        f.bytes := by
  unfold loadOperand at h
  split at h
  · simp [raise] at h
  · next hm =>
    split at h
    · simp at h
    · next hd =>
      simp only [Except.ok.injEq] at h
      exact ⟨hm, (operandInDevice_eq_false f m len s).mp (Bool.eq_false_iff.mpr hd), h.symm⟩

/-- Only a location reads neither as an exception nor as a device. -/
theorem isLocation_cases {b : ByteAccess} (h : b.isLocation = true) : ∃ loc, b = .location loc := by
  cases b with
  | location loc => exact ⟨loc, rfl⟩
  | faulting x => simp [ByteAccess.isLocation] at h
  | device => simp [ByteAccess.isLocation] at h

end Sys2Proof.Machine
end

