-- ==== Sys2Proof/Laws/Lanes.lean ====
section
/-!
SUPPORT. What packing says of a bit, a lane and a byte; the lane product as a wrapping product.
-/

namespace Sys2Proof.Machine

/-- Every bit of a packed value (40_lane_arithmetic.md R110). -/
theorem getLsbD_packLanes (w : Nat) (f : Nat → Word) (n i : Nat) :
    (packLanes w f n).getLsbD i =
      (decide (i < w) && decide (i < 16 * n) && (f (i / 16)).getLsbD (i % 16)) := by
  induction n with
  | zero => simp [packLanes]
  | succ n ih =>
    rw [packLanes, BitVec.getLsbD_or, ih, BitVec.getLsbD_shiftLeft, BitVec.getLsbD_setWidth]
    by_cases hw : i < w
    · by_cases h1 : i < 16 * n
      · have : i < 16 * (n + 1) := by omega
        simp [hw, h1, this]
      · by_cases h2 : i < 16 * (n + 1)
        · have hd : i / 16 = n := by omega
          have hm : i % 16 = i - 16 * n := by omega
          have hlt : i - 16 * n < w := by omega
          simp [hw, h1, h2, hd, hm, hlt]
        · have hb : (f n).getLsbD (i - 16 * n) = false :=
            BitVec.getLsbD_of_ge _ _ (by omega)
          simp [h1, h2, hb]
    · simp [hw]

/-- A packed value has the lanes it was packed from (40_lane_arithmetic.md R110). -/
theorem lane_packLanes {w : Nat} (f : Nat → Word) {n j : Nat} (hj : j < n) (hw : 16 * n ≤ w) :
    lane (packLanes w f n) j = f j := by
  apply BitVec.eq_of_getLsbD_eq
  intro i hi
  have h1 : 16 * j + i < w := by omega
  have h2 : 16 * j + i < 16 * n := by omega
  have hd : (16 * j + i) / 16 = j := by omega
  have hm : (16 * j + i) % 16 = i := by omega
  simp only [lane, BitVec.getLsbD_extractLsb', getLsbD_packLanes, hd, hm]
  simp [hi, h1, h2]

/-- Every bit of a value packed from bytes (20_memory.md R53). -/
theorem getLsbD_packBytes (w : Nat) (f : Nat → Byte) (n i : Nat) :
    (packBytes w f n).getLsbD i =
      (decide (i < w) && decide (i < 8 * n) && (f (i / 8)).getLsbD (i % 8)) := by
  induction n with
  | zero => simp [packBytes]
  | succ n ih =>
    rw [packBytes, BitVec.getLsbD_or, ih, BitVec.getLsbD_shiftLeft, BitVec.getLsbD_setWidth]
    by_cases hw : i < w
    · by_cases h1 : i < 8 * n
      · have : i < 8 * (n + 1) := by omega
        simp [hw, h1, this]
      · by_cases h2 : i < 8 * (n + 1)
        · have hd : i / 8 = n := by omega
          have hm : i % 8 = i - 8 * n := by omega
          have hlt : i - 8 * n < w := by omega
          simp [hw, h1, h2, hd, hm, hlt]
        · have hb : (f n).getLsbD (i - 8 * n) = false :=
            BitVec.getLsbD_of_ge _ _ (by omega)
          simp [h1, h2, hb]
    · simp [hw]

/-- A lane of a value packed from bytes: its low byte first (20_memory.md R53). -/
theorem lane_packBytes {w : Nat} (f : Nat → Byte) {n j : Nat} (hj : 2 * j + 1 < n)
    (hw : 8 * n ≤ w) : lane (packBytes w f n) j = f (2 * j + 1) ++ f (2 * j) := by
  apply BitVec.eq_of_getLsbD_eq
  intro i hi
  have h1 : 16 * j + i < w := by omega
  have h2 : 16 * j + i < 8 * n := by omega
  simp only [lane, BitVec.getLsbD_extractLsb', getLsbD_packBytes, BitVec.getLsbD_append, h1, h2, hi,
    decide_true, Bool.true_and]
  by_cases h8 : i < 8
  · have hd : (16 * j + i) / 8 = 2 * j := by omega
    have hm : (16 * j + i) % 8 = i := by omega
    simp [h8, hd, hm]
  · have hd : (16 * j + i) / 8 = 2 * j + 1 := by omega
    have hm : (16 * j + i) % 8 = i - 8 := by omega
    simp [h8, hd, hm]

/-- A lane of the low `w` bits of a register is the register's lane. -/
theorem lane_setWidth {v w : Nat} (x : BitVec v) {j : Nat} (hj : 16 * (j + 1) ≤ w) :
    lane (x.setWidth w) j = lane x j := by
  apply BitVec.eq_of_getLsbD_eq
  intro i hi
  have : 16 * j + i < w := by omega
  simp [lane, BitVec.getLsbD_extractLsb', this]

end Sys2Proof.Machine
end

