-- ==== Sys2Proof/Laws/Memory.lean ====
section
/-!
SUPPORT. Every memory operation keeps the canonical form; reading after writing.
-/

namespace Sys2Proof.Machine

/-- Every listed address is above `a`. -/
def Memory.above (a : Nat) (m : Memory) : Prop := ∀ c ∈ m, a < c.1

theorem Memory.wf_tail {c : Host.Cell} {m : Memory} (h : Memory.wf (c :: m) = true) :
    Memory.wf m = true := by
  obtain ⟨a, b⟩ := c
  cases m with
  | nil => rfl
  | cons c' m' =>
    obtain ⟨a', b'⟩ := c'
    simp only [Memory.wf, Bool.and_eq_true] at h
    exact h.2

/-- In canonical form the head is a valid entry below all that follow. -/
theorem Memory.wf_head {a : Nat} {b : Byte} {m : Memory} (h : Memory.wf ((a, b) :: m) = true) :
    a < 2 ^ 64 ∧ b ≠ unlistedByte ∧ Memory.above a m := by
  induction m generalizing a b with
  | nil =>
    simp only [Memory.wf, Bool.and_eq_true, decide_eq_true_eq, bne_iff_ne] at h
    exact ⟨h.1, h.2, by simp [Memory.above]⟩
  | cons c m ih =>
    obtain ⟨a', b'⟩ := c
    simp only [Memory.wf, Bool.and_eq_true, decide_eq_true_eq, bne_iff_ne] at h
    obtain ⟨⟨hlt, hb⟩, ht⟩ := h
    obtain ⟨ha', -, habove⟩ := ih ht
    refine ⟨lt_trans hlt ha', hb, ?_⟩
    intro c hc
    rcases List.mem_cons.mp hc with rfl | hc
    · exact hlt
    · exact lt_trans hlt (habove c hc)

theorem Memory.wf_cons {a : Nat} {b : Byte} {m : Memory} (ha : a < 2 ^ 64) (hb : b ≠ unlistedByte)
    (hm : Memory.wf m = true) (habove : Memory.above a m) : Memory.wf ((a, b) :: m) = true := by
  cases m with
  | nil => simpa [Memory.wf, hb] using ha
  | cons c m =>
    obtain ⟨a', b'⟩ := c
    simp only [Memory.wf, Bool.and_eq_true, decide_eq_true_eq, bne_iff_ne]
    exact ⟨⟨habove (a', b') (by simp), hb⟩, hm⟩

theorem Memory.wf_consOp {a : Nat} {b : Byte} {m : Memory} (ha : a < 2 ^ 64)
    (hm : Memory.wf m = true) (habove : Memory.above a m) : Memory.wf (Memory.cons a b m) = true := by
  unfold Memory.cons
  split
  · exact hm
  · next hb => exact Memory.wf_cons ha hb hm habove

theorem Memory.above_write {m : Memory} {k a : Nat} {b : Byte} (hk : k < a)
    (h : Memory.above k m) : Memory.above k (m.write a b) := by
  induction m with
  | nil =>
    intro c hc
    simp only [Memory.write, Memory.cons] at hc
    split at hc <;> simp_all
  | cons c m ih =>
    obtain ⟨a', b'⟩ := c
    have hk' : k < a' := h (a', b') (by simp)
    have ht : Memory.above k m := fun c hc => h c (List.mem_cons_of_mem _ hc)
    have keep : ∀ rest : Memory, Memory.above k rest → Memory.above k (Memory.cons a b rest) := by
      intro rest hrest c hc
      unfold Memory.cons at hc
      split at hc
      · exact hrest c hc
      · rcases List.mem_cons.mp hc with rfl | hc
        · exact hk
        · exact hrest c hc
    unfold Memory.write
    split
    · exact keep _ h
    · split
      · exact keep _ ht
      · intro c hc
        rcases List.mem_cons.mp hc with rfl | hc
        · exact hk'
        · exact ih ht c hc

/-- One byte written below `2^64` keeps the canonical form. -/
theorem Memory.wf_write {m : Memory} {a : Nat} {b : Byte} (ha : a < 2 ^ 64)
    (h : Memory.wf m = true) : Memory.wf (m.write a b) = true := by
  induction m with
  | nil => exact Memory.wf_consOp ha rfl (by simp [Memory.above])
  | cons c m ih =>
    obtain ⟨a', b'⟩ := c
    obtain ⟨ha', hb', habove⟩ := Memory.wf_head h
    unfold Memory.write
    split
    · next hlt =>
      refine Memory.wf_consOp ha h fun c hc => ?_
      rcases List.mem_cons.mp hc with rfl | hc
      · exact hlt
      · exact lt_trans hlt (habove c hc)
    · next hge =>
      split
      · next heq => exact Memory.wf_consOp ha (Memory.wf_tail h) (heq ▸ habove)
      · next hne =>
        exact Memory.wf_cons ha' hb' (ih (Memory.wf_tail h))
          (Memory.above_write (by omega) habove)

/-- Bytes written below `2^64` keep the canonical form. -/
theorem Memory.wf_writeBytes {bs : List Byte} {m : Memory} {a : Nat} (ha : a + bs.length ≤ 2 ^ 64)
    (h : Memory.wf m = true) : Memory.wf (m.writeBytes a bs) = true := by
  induction bs generalizing m a with
  | nil => exact h
  | cons b bs ih =>
    simp only [List.length_cons] at ha
    exact ih (by omega) (Memory.wf_write (by omega) h)

/-- An address below every entry is unlisted. -/
theorem Memory.read_of_above {m : Memory} {a : Nat} (h : Memory.above a m) :
    m.read a = unlistedByte := by
  induction m with
  | nil => rfl
  | cons c m ih =>
    obtain ⟨a', b'⟩ := c
    have : a' ≠ a := (h (a', b') (by simp)).ne'
    rw [Memory.read, if_neg this]
    exact ih fun c hc => h c (List.mem_cons_of_mem _ hc)

theorem Memory.read_consOp {m : Memory} {a k : Nat} {b : Byte} (habove : Memory.above a m) :
    (Memory.cons a b m).read k = if k = a then b else m.read k := by
  unfold Memory.cons
  split
  · next hb =>
    split
    · next hk => rw [hk, Memory.read_of_above habove, hb]
    · rfl
  · by_cases hk : k = a
    · simp [Memory.read, hk]
    · simp [Memory.read, hk, Ne.symm hk]

/-- Reading after a write: the byte written at its address, the old byte everywhere else. -/
theorem Memory.read_write {m : Memory} (a k : Nat) (b : Byte) (h : Memory.wf m = true) :
    (m.write a b).read k = if k = a then b else m.read k := by
  induction m with
  | nil => exact Memory.read_consOp (by simp [Memory.above])
  | cons c m ih =>
    obtain ⟨a', b'⟩ := c
    obtain ⟨-, -, habove⟩ := Memory.wf_head h
    unfold Memory.write
    split
    · next hlt =>
      refine Memory.read_consOp fun c hc => ?_
      rcases List.mem_cons.mp hc with rfl | hc
      · exact hlt
      · exact lt_trans hlt (habove c hc)
    · split
      · next heq =>
        subst heq
        rw [Memory.read_consOp habove]
        by_cases hk : k = a
        · simp [hk]
        · simp [Memory.read, hk, Ne.symm hk]
      · next hne =>
        rw [Memory.read, ih (Memory.wf_tail h)]
        by_cases hk : a' = k
        · subst hk
          simp [Memory.read, Ne.symm hne]
        · simp [Memory.read, hk]

/-- Reading after writing several bytes: the bytes written in their range, the old byte everywhere
else. -/
theorem Memory.read_writeBytes {bs : List Byte} {m : Memory} {a : Nat} (k : Nat)
    (ha : a + bs.length ≤ 2 ^ 64) (h : Memory.wf m = true) :
    (m.writeBytes a bs).read k =
      if a ≤ k ∧ k < a + bs.length then bs.getD (k - a) 0 else m.read k := by
  induction bs generalizing m a with
  | nil =>
    rw [if_neg (by simp only [List.length_nil]; omega)]
    rfl
  | cons b bs ih =>
    simp only [List.length_cons] at ha ⊢
    rw [Memory.writeBytes, ih (by omega) (Memory.wf_write (by omega) h), Memory.read_write a k b h]
    by_cases h1 : a + 1 ≤ k ∧ k < a + 1 + bs.length
    · have h2 : k - a = (k - (a + 1)) + 1 := by omega
      rw [if_pos h1, if_pos (by omega), h2, List.getD_cons_succ]
    · rw [if_neg h1]
      by_cases h3 : k = a
      · subst h3
        rw [if_pos rfl, if_pos (by omega), Nat.sub_self, List.getD_cons_zero]
      · rw [if_neg h3, if_neg (by omega)]

end Sys2Proof.Machine
end

