-- ==== Sys2Proof/Laws/Operands.lean ====
section
/-!
SUPPORT. What reading operand `r/m` gives when it can be read, and what the two ways of writing a
vector register do to its lanes.
-/

namespace Sys2Proof.Machine

/-! ## Reading operand `r/m` -/

/-- No exception of the memory operand when it can be read (60_exceptions.md R159, classes 4
to 6). -/
theorem memFault_of_readable {f : Form} {m : MemOperand} {len : Nat} {s : State} {acc : List Nat}
    (h : Readable f m len s acc) (hne : f = .sse128 → acc ≠ []) : memFault f m len s acc = none := by
  obtain ⟨hr, ha, -⟩ := h
  have hloc : ∀ i ∈ acc, ∃ loc, translateByte s (byteAddr s (effAddr m len s) i) = .location loc :=
    fun i hi => isLocation_cases (hr i hi).2
  have h1 : acc.any (byteIllegal m len s) = false := by
    simp only [List.any_eq_false]
    intro i hi
    simp [(hr i hi).1.1]
  have h2 : acc.any (byteBeyond64K m len s) = false := by
    simp only [List.any_eq_false]
    intro i hi
    simp [(hr i hi).1.2]
  have h3 : misaligned16 f m len s = false := by
    by_cases hf : f = .sse128
    · simp [misaligned16, (ha.resolve_left (hne hf)).1 hf]
    · simp [misaligned16, hf]
  have h4 : (acc.findSome? fun i => xlateAddressFault s (byteAddr s (effAddr m len s) i)) = none := by
    rw [List.findSome?_eq_none_iff]
    intro i hi
    obtain ⟨l, hl⟩ := hloc i hi
    simp [xlateAddressFault, hl]
  have h5 : pageFaultOf m len s acc = none := by
    rw [pageFaultOf, List.findSome?_eq_none_iff]
    intro i hi
    obtain ⟨l, hl⟩ := hloc i hi
    simp [xlatePageFault, hl]
  have h6 : (misalignedAC f m len s && !acc.isEmpty) = false := by
    rcases ha with rfl | ha
    · simp
    · unfold misalignedAC
      cases he : acAlignment f s.cfg with
      | none => simp
      | some n =>
        cases hA : s.alignmentChecking
        · simp
        · simp [ha.2 hA n (by simp [he])]
  have h7 : acc.any (fun i => xlateAlignmentFault s (byteAddr s (effAddr m len s) i)) = false := by
    simp only [List.any_eq_false]
    intro i hi
    obtain ⟨l, hl⟩ := hloc i hi
    simp [xlateAlignmentFault, hl]
  simp [memFault, segmentFault, h1, h2, h3, h4, h5, alignmentFault, h6, h7]

/-- Class 4 of R159 finds nothing when every accessed byte has a legal address, `Translate` names
neither `#SS(0)` nor `#GP(0)`, and the legacy 128-bit form is aligned. -/
theorem segmentFault_eq_none {f : Form} {m : MemOperand} {len : Nat} {s : State} {acc : List Nat}
    (h : ∀ j ∈ acc, ByteLegal m len s j ∧
      translateByte s (byteAddr s (effAddr m len s) j) ≠ .faulting .ss ∧
      translateByte s (byteAddr s (effAddr m len s) j) ≠ .faulting .gp)
    (ha : f = .sse128 → (effAddr m len s).toNat % 16 = 0) : segmentFault f m len s acc = none := by
  have h1 : acc.any (byteIllegal m len s) = false := by
    simp only [List.any_eq_false]
    intro j hj
    simp [(h j hj).1.1]
  have h2 : acc.any (byteBeyond64K m len s) = false := by
    simp only [List.any_eq_false]
    intro j hj
    simp [(h j hj).1.2]
  have h3 : misaligned16 f m len s = false := by
    by_cases hf : f = .sse128
    · simp [misaligned16, ha hf]
    · simp [misaligned16, hf]
  simp only [segmentFault, h1, h2, h3, Bool.false_eq_true, if_false]
  rw [List.findSome?_eq_none_iff]
  intro j hj
  have := (h j hj).2
  unfold xlateAddressFault
  split <;> simp_all

/-- A readable operand is read, little-endian (20_memory.md R53). -/
theorem loadOperand_of_readable {w : Nat} {f : Form} {m : MemOperand} {len : Nat} {s : State}
    {acc : List Nat} (h : Readable f m len s acc) (hne : f = .sse128 → acc ≠ []) :
    loadOperand w f m len s acc = .ok (packBytes w
      (fun i => if i ∈ acc then byteAt s (byteAddr s (effAddr m len s) i) else unlistedByte)
      f.bytes) := by
  simp [loadOperand, memFault_of_readable h hne, (operandInDevice_eq_false f m len s).mpr h.2.2]

/-- Operand `r/m` of a vector form, when it can be read: every lane whose bytes are accessed is the
operand's lane. -/
theorem readSrc_of_ready {w : Nat} {f : Form} {src : Src} {len : Nat} {s : State} {acc : List Nat}
    (h : SrcReady f src len s acc) (hne : f = .sse128 → acc ≠ []) (hw : w = 8 * f.bytes) :
    ∃ y : BitVec w, readSrc w f src len s acc = .ok y ∧
      ∀ j < w / 16, 2 * j ∈ acc → 2 * j + 1 ∈ acc → lane y j = srcLane src len s j := by
  cases src with
  | reg n => exact ⟨_, rfl, fun j hj _ _ => lane_setWidth _ (by omega)⟩
  | mem m =>
    refine ⟨_, loadOperand_of_readable h hne, fun j hj h0 h1 => ?_⟩
    rw [lane_packBytes _ (by omega) (by omega)]
    simp [h0, h1, srcLane, memLane]

/-- Operand `r/m` of the MMX form, when it can be read. -/
theorem readMmxSrc_of_ready {src : MmxSrc} {len : Nat} {s : State} (h : MmxSrcReady src len s) :
    ∃ y : BitVec 64, readMmxSrc src len s = .ok y ∧
      ∀ j < 4, lane y j = mmxSrcLane src len s j := by
  cases src with
  | reg n => exact ⟨_, rfl, fun _ _ => rfl⟩
  | mem m =>
    refine ⟨_, loadOperand_of_readable h nofun, fun j hj => ?_⟩
    have h0 : 2 * j < 8 := by omega
    have h1 : 2 * j + 1 < 8 := by omega
    rw [lane_packBytes _ (by simpa [Form.bytes, Form.vl] using h1) (by decide)]
    simp [mmxSrcLane, memLane, allBytes, Form.bytes, Form.vl, h0, h1]

/-- The bytes of a selected lane are accessed (43_vpmullw_evex.md R141). -/
theorem mem_accessedBytes {f : Form} {mask : KReg} {s : State} {i : Nat} (hb : i < f.bytes)
    (hs : laneSelected mask s (i / 2) = true) : i ∈ accessedBytes f mask s := by
  unfold accessedBytes allBytes
  split <;> simp [hb, hs]

/-! ## Writing a vector register -/

/-- A zeroing write gives the lanes written (42_vpmullw_vex.md R130). -/
theorem lane_writeZeroing (s : State) (d : VReg) {w j : Nat} (v : BitVec w) (hw : w ≤ 512)
    (hj : 16 * (j + 1) ≤ w) : lane ((s.writeZeroing d v).getV d) j = lane v j := by
  rw [State.writeZeroing_eq, State.getV_setV_self]
  exact lane_setWidth _ (by omega)

/-- A zeroing write clears the bits above what it writes. -/
theorem upper_writeZeroing (s : State) (d : VReg) {w : Nat} (v : BitVec w) (n : Nat) :
    ((s.writeZeroing d v).getV d).extractLsb' w n = 0 := by
  rw [State.writeZeroing_eq, State.getV_setV_self]
  apply BitVec.eq_of_getLsbD_eq
  intro i hi
  simp

/-- Every bit of a register after a legacy write: new below 128, old from there on
(41_pmullw_legacy.md R121). -/
theorem getLsbD_writeLow (s : State) (d : VReg) (v : BitVec 128) (i : Nat) :
    ((s.writeLow d v).getV d).getLsbD i = if i < 128 then v.getLsbD i else (s.getV d).getLsbD i := by
  rw [State.writeLow_eq, State.getV_setV_self]
  refine (BitVec.getLsbD_append (x := (s.getV d).extractLsb' 128 384) (y := v) (i := i)).trans ?_
  split
  · rfl
  · by_cases h : i < 512
    · have h1 : i - 128 < 384 := by omega
      have h2 : 128 + (i - 128) = i := by omega
      simp [h1, h2]
    · have h1 : ¬ i - 128 < 384 := by omega
      have h2 : (s.getV d).getLsbD i = false := BitVec.getLsbD_of_ge _ _ (by omega)
      simp [BitVec.getLsbD_extractLsb', h1, h2]

/-- A legacy write gives the lanes written. -/
theorem lane_writeLow (s : State) (d : VReg) (v : BitVec 128) {j : Nat} (hj : j < 8) :
    lane ((s.writeLow d v).getV d) j = lane v j := by
  apply BitVec.eq_of_getLsbD_eq
  intro i hi
  have h : 16 * j + i < 128 := by omega
  simp only [lane, BitVec.getLsbD_extractLsb', hi, decide_true, Bool.true_and, getLsbD_writeLow,
    if_pos h]

/-- A legacy write keeps the bits above 127. -/
theorem upper_writeLow (s : State) (d : VReg) (v : BitVec 128) :
    ((s.writeLow d v).getV d).extractLsb' 128 384 = (s.getV d).extractLsb' 128 384 := by
  apply BitVec.eq_of_getLsbD_eq
  intro i hi
  have h : ¬ 128 + i < 128 := by omega
  simp only [BitVec.getLsbD_extractLsb', hi, decide_true, Bool.true_and, getLsbD_writeLow, if_neg h]

/-- Either write leaves the other registers alone. -/
theorem getV_writeLow_ne (s : State) {d n : VReg} (v : BitVec 128) (h : n ≠ d) :
    (s.writeLow d v).getV n = s.getV n := State.getV_setV_ne s _ h

theorem getV_writeZeroing_ne (s : State) {d n : VReg} {w : Nat} (v : BitVec w) (h : n ≠ d) :
    (s.writeZeroing d v).getV n = s.getV n := State.getV_setV_ne s _ h

end Sys2Proof.Machine
end

