-- ==== Sys2Proof/Laws/PerInstr.lean ====
section
/-!
SUPPORT. Statements for all instructions, one lemma per constructor of `Instr`.
-/

/-- The family `EncodeLength`: an instruction of a length that R86 allows is spelled in exactly
`len` bytes, at most 15 (30_encoding.md R86). -/
def Sys2Proof.Laws.EncodeLength.Statement (i : Sys2Proof.Instr) : Prop :=
  ∀ m64 : Bool, i.lenOk m64 = true →
    (Sys2Proof.encode m64 i).length = i.len ∧ (Sys2Proof.encode m64 i).length ≤ 15

namespace Sys2Proof.Laws.EncodeLength

/-- The length is within the limit whenever it is possible. -/
theorem of_lenOk (i : Sys2Proof.Instr) : Statement i := by
  intro m64 h
  have hlen := Sys2Proof.length_encode h
  simp only [Sys2Proof.Instr.lenOk, Bool.and_eq_true, decide_eq_true_eq] at h
  exact ⟨hlen, hlen ▸ h.2⟩

theorem pmullwMmx64 (d s2 len) : Statement (.pmullwMmx64 d s2 len) := of_lenOk _

theorem pmullwSse128 (d s2 len) : Statement (.pmullwSse128 d s2 len) := of_lenOk _

theorem vpmullwVex128 (d s1 s2 len) : Statement (.vpmullwVex128 d s1 s2 len) := of_lenOk _

theorem vpmullwVex256 (d s1 s2 len) : Statement (.vpmullwVex256 d s1 s2 len) := of_lenOk _

theorem vpmullwEvex128 (d s1 s2 mask z len) :
    Statement (.vpmullwEvex128 d s1 s2 mask z len) := of_lenOk _

theorem vpmullwEvex256 (d s1 s2 mask z len) :
    Statement (.vpmullwEvex256 d s1 s2 mask z len) := of_lenOk _

theorem vpmullwEvex512 (d s1 s2 mask z len) :
    Statement (.vpmullwEvex512 d s1 s2 mask z len) := of_lenOk _

end Sys2Proof.Laws.EncodeLength
end

