-- ==== Sys2Proof/Laws/Step.lean ====
section
/-!
SUPPORT. What a step can do, said once; every state the machine can be in after a step is a state
after `exec`.
-/

namespace Sys2Proof.Machine

/-- A fetch that succeeds has decoded the bytes at the program counter, and the instruction ends
below the top of the address space. -/
theorem fetch_ok {s : State} {i : Instr} (h : fetch s = .ok i) :
    decode s.mode64 s.code16 (fetchWindow s) = .ok i ∧ s.pc.toNat + i.len < 2 ^ s.addrBits := by
  unfold fetch at h
  split at h
  · simp at h
  · next j hj =>
    split at h
    · simp at h
    · next hlt =>
      simp only [Except.ok.injEq] at h
      subst h
      exact ⟨hj, Nat.lt_of_not_le hlt⟩

/-- A step that answers a next state is the execution of the fetched instruction. -/
theorem step_next {s t : State} (h : step s = .next t) :
    ∃ i, fetch s = .ok i ∧ exec i s = .next t := by
  unfold step at h
  split at h
  · exact absurd (outcome_eq_next h) (by simp)
  · next i hi => exact ⟨i, hi, h⟩

/-- What an execution that answers a next state has done (10_state.md R32): it has written one
MMX register and drawn the x87 fields, or one vector register with a legacy or a zeroing write,
and advanced the program counter. -/
theorem exec_next {i : Instr} {s t : State} (h : exec i s = .next t) :
    Ready i.form s ∧
      ((∃ d v, t = (((s.setMM d v).drawX87 d).advance i.len) ∧ i.form = .mmx64) ∨
        (∃ d v, t = ((s.writeLow d v).advance i.len) ∧ i.form = .sse128) ∨
        (∃ d, ∃ v : BitVec i.form.vl, t = ((s.writeZeroing d v).advance i.len) ∧
          i.form ≠ .mmx64 ∧ i.form ≠ .sse128)) := by
  cases i with
  | pmullwMmx64 d s2 len =>
    obtain ⟨hc, y, -, rfl⟩ := execute_next h
    exact ⟨(excCond_eq_none _ _).mp hc, .inl ⟨_, _, rfl, rfl⟩⟩
  | pmullwSse128 d s2 len =>
    obtain ⟨hc, y, -, rfl⟩ := execute_next h
    exact ⟨(excCond_eq_none _ _).mp hc, .inr (.inl ⟨_, _, rfl, rfl⟩)⟩
  | vpmullwVex128 d s1 s2 len =>
    obtain ⟨hc, y, -, rfl⟩ := execute_next h
    exact ⟨(excCond_eq_none _ _).mp hc, .inr (.inr ⟨_, _, rfl, nofun, nofun⟩)⟩
  | vpmullwVex256 d s1 s2 len =>
    obtain ⟨hc, y, -, rfl⟩ := execute_next h
    exact ⟨(excCond_eq_none _ _).mp hc, .inr (.inr ⟨_, _, rfl, nofun, nofun⟩)⟩
  | vpmullwEvex128 d s1 s2 mask z len =>
    simp only [exec, execVpmullwEvex128, evexPmullw] at h
    split at h
    · simp at h
    · obtain ⟨hc, y, -, rfl⟩ := execute_next h
      exact ⟨(excCond_eq_none _ _).mp hc, .inr (.inr ⟨_, _, rfl, nofun, nofun⟩)⟩
  | vpmullwEvex256 d s1 s2 mask z len =>
    simp only [exec, execVpmullwEvex256, evexPmullw] at h
    split at h
    · simp at h
    · obtain ⟨hc, y, -, rfl⟩ := execute_next h
      exact ⟨(excCond_eq_none _ _).mp hc, .inr (.inr ⟨_, _, rfl, nofun, nofun⟩)⟩
  | vpmullwEvex512 d s1 s2 mask z len =>
    simp only [exec, execVpmullwEvex512, evexPmullw] at h
    split at h
    · simp at h
    · obtain ⟨hc, y, -, rfl⟩ := execute_next h
      exact ⟨(excCond_eq_none _ _).mp hc, .inr (.inr ⟨_, _, rfl, nofun, nofun⟩)⟩

/-! ## How an execution stops -/

/-- The masking test of an EVEX form passes for a legal mask setting (30_encoding.md R87). -/
theorem maskTest_of_maskingOk {k : KReg} {z : Bool} (h : maskingOk k z = true) :
    (z && k == 0) = false := by
  cases z <;> simp_all [maskingOk]

/-- An EVEX form that answers a next state: its masking is legal, it passed classes 1 to 3 of R159,
read its source and wrote the masked product (43_vpmullw_evex.md R140). -/
theorem evexPmullw_next {w : Nat} {f : Form} {d s1 : VReg} {s2 : Src} {k : KReg} {z : Bool}
    {len : Nat} {s t : State} (h : evexPmullw w f d s1 s2 k z len s = .next t) :
    (z && k == 0) = false ∧ excCond f s = none ∧
      ∃ y, readSrc w f s2 len s (accessedBytes f k s) = .ok y ∧
        t = (s.writeZeroing d
          (pmullwMasked (laneSelected k s) z (s.readV w d) (s.readV w s1) y)).advance len := by
  unfold evexPmullw at h
  split at h
  · simp at h
  · next hz =>
    obtain ⟨hc, y, hy, rfl⟩ := execute_next h
    exact ⟨by simpa using hz, hc, y, hy, rfl⟩

/-- An EVEX form with a legal masking is one `execute`. -/
theorem evexPmullw_of_maskingOk {w : Nat} {f : Form} {d s1 : VReg} {s2 : Src} {k : KReg} {z : Bool}
    {len : Nat} {s : State} (h : maskingOk k z = true) :
    evexPmullw w f d s1 s2 k z len s =
      execute f len s (readSrc w f s2 len s (accessedBytes f k s)) fun y =>
        s.writeZeroing d (pmullwMasked (laneSelected k s) z (s.readV w d) (s.readV w s1) y) := by
  simp [evexPmullw, maskTest_of_maskingOk h]

/-- An instruction stops with the exception of classes 1 to 3 of R159. -/
theorem exec_of_excCond {i : Instr} {s : State} {e : Fault} (h : excCond i.form s = some e)
    (hm : i.maskOk = true) : exec i s = .fault e := by
  cases i with
  | pmullwMmx64 => exact execute_of_excCond h
  | pmullwSse128 => exact execute_of_excCond h
  | vpmullwVex128 => exact execute_of_excCond h
  | vpmullwVex256 => exact execute_of_excCond h
  | vpmullwEvex128 => exact (evexPmullw_of_maskingOk hm).trans (execute_of_excCond h)
  | vpmullwEvex256 => exact (evexPmullw_of_maskingOk hm).trans (execute_of_excCond h)
  | vpmullwEvex512 => exact (evexPmullw_of_maskingOk hm).trans (execute_of_excCond h)

/-- An instruction that is ready stops as the read of its memory operand does. -/
theorem exec_of_loadOperand {i : Instr} {s : State} {m : MemOperand} {st : Stop}
    (hr : Ready i.form s) (hm : i.maskOk = true) (hmem : i.memOperand = some m)
    (h : loadOperand i.form.vl i.form m i.len s (accessed i s) = .error st) :
    exec i s = outcome (.error st) := by
  have hc := (excCond_eq_none _ _).mpr hr
  cases i with
  | pmullwMmx64 d s2 len =>
    cases s2 with
    | reg n => simp [Instr.memOperand] at hmem
    | mem m' =>
      obtain rfl : m' = m := by simpa [Instr.memOperand] using hmem
      exact execute_of_error hc h
  | pmullwSse128 d s2 len | vpmullwVex128 d s1 s2 len | vpmullwVex256 d s1 s2 len =>
    cases s2 with
    | reg n => simp [Instr.memOperand] at hmem
    | mem m' =>
      obtain rfl : m' = m := by simpa [Instr.memOperand] using hmem
      exact execute_of_error hc h
  | vpmullwEvex128 d s1 s2 k z len | vpmullwEvex256 d s1 s2 k z len
  | vpmullwEvex512 d s1 s2 k z len =>
    cases s2 with
    | reg n => simp [Instr.memOperand] at hmem
    | mem m' =>
      obtain rfl : m' = m := by simpa [Instr.memOperand] using hmem
      exact (evexPmullw_of_maskingOk hm).trans (execute_of_error hc h)

/-- The accessed bytes stand in rising order. -/
theorem accessed_pairwise_lt (i : Instr) (s : State) : (accessed i s).Pairwise (· < ·) := by
  have hall : ∀ f : Form, (allBytes f).Pairwise (· < ·) := fun f => List.pairwise_lt_range
  have hacc : ∀ f k, (accessedBytes f k s).Pairwise (· < ·) := by
    intro f k
    unfold accessedBytes
    split
    · exact (hall f).filter _
    · exact hall f
  cases i <;> first | exact hall _ | exact hacc _ _

end Sys2Proof.Machine
end

