-- ==== Sys2Proof/Tests/Slice0.lean ====
section
/-!
SUPPORT. Our own tests: ill-formed terms that WellFormed refuses, words written out from the
encodings (95_test_vectors.md section 2.7), one or two executions per instruction (sections 2.2 to
2.5), and a witness for the hypotheses of every statement. Expected values are the spec's.
-/

namespace Sys2Proof.Tests

open Sys2Proof Sys2Proof.Machine

/-! ## Helpers -/

/-- A `[rax]` operand. -/
def atRax : MemOperand := ⟨false, .ds, .reg 0, none, 0⟩

/-- An operand without base or index, in 32-bit addressing. -/
def absolute32 (sg : SReg) (d : BitVec 32) : MemOperand := ⟨true, sg, .none, none, d⟩

/-- A vector register written. -/
def withV (s : State) (n : VReg) (v : BitVec 512) : State := s.setV n v

/-- RAX set, and bytes stored there. -/
def withData (s : State) (rax : Nat) (bytes : List Byte) : State :=
  { s with gpr := s.gpr.set 0 (BitVec.ofNat 64 rax), mem := s.mem.writeBytes rax bytes }

/-- A mask register set. -/
def withK (s : State) (n : KReg) (v : BitVec 64) : State := { s with kmask := s.kmask.set n v }

/-- Bytes stored at the program counter. -/
def withCode (s : State) (bytes : List Byte) : State :=
  { s with mem := s.mem.writeBytes s.pc.toNat bytes }

/-- The outcome is a next state that passes a test. -/
def nextAnd (o : Host.Outcome State Fault Refusal) (p : State → Bool) : Bool :=
  match o with
  | .next t => p t
  | _ => false

/-- The outcome is this fault. -/
def faults (o : Host.Outcome State Fault Refusal) (f : Fault) : Bool :=
  match o with
  | .fault g => g == f
  | _ => false

/-- The outcome is this refusal. -/
def refuses (o : Host.Outcome State Fault Refusal) (r : Refusal) : Bool :=
  match o with
  | .refused q => q == r
  | _ => false

/-- The outcome is a next state. -/
def completes (o : Host.Outcome State Fault Refusal) : Bool := nextAnd o fun _ => true

theorem next_of_completes {o : Host.Outcome State Fault Refusal} (h : completes o = true) :
    ∃ t, o = .next t := by
  cases o <;> simp_all [completes, nextAnd]

def a64 : BitVec 64 := 0x80007FFF00020001
def b64 : BitVec 64 := 0x80007FFFFFFF0003
def prod64 : BitVec 64 := 0x00000001FFFE0003
def a128 : BitVec 512 := 0x400000FF1234FFFF80007FFF00020001
def b128 : BitVec 512 := 0x000400FF5678FFFF80007FFFFFFF0003
def prod128 : BitVec 512 := 0x0000FE010060000100000001FFFE0003
def a256 : BitVec 512 := 0xABCDAAAA7FFF800101010100FFFB0005400000FF1234FFFF80007FFF00020001
def b256 : BitVec 512 := 0xEF010003800180010101010000050007000400FF5678FFFF80007FFFFFFF0003
def prod256 : BitVec 512 := 0x0ECDFFFEFFFF000102010000FFE700230000FE010060000100000001FFFE0003
def ones : BitVec 512 := BitVec.allOnes 512

/-! ## WellFormed refuses an ill-formed term, by each check -/

theorem test_wf_destination_beyond_legacy :
    (Instr.pmullwSse128 16 (.reg 1) 5).wellFormed true = false := by decide
theorem test_wf_source_beyond_vex :
    (Instr.vpmullwVex128 1 2 (.reg 16) 5).wellFormed true = false := by decide
theorem test_wf_first_source_beyond_vex :
    (Instr.vpmullwVex256 1 16 (.reg 3) 5).wellFormed true = false := by decide
theorem test_wf_vector_beyond_seven_outside_64 :
    (Instr.vpmullwEvex512 8 2 (.reg 3) 0 false 6).wellFormed false = false := by decide
theorem test_wf_base_beyond_seven_outside_64 :
    (Instr.pmullwSse128 1 (.mem ⟨true, .ds, .reg 8, none, 0⟩) 6).wellFormed false = false := by decide
theorem test_wf_index_beyond_seven_outside_64 :
    (Instr.pmullwMmx64 1 (.mem ⟨true, .ds, .reg 0, some ⟨8, 0⟩, 0⟩) 6).wellFormed false = false := by
  decide
theorem test_wf_rip_outside_64 :
    (Instr.pmullwSse128 1 (.mem ⟨true, .ds, .rip, none, 0⟩) 8).wellFormed false = false := by decide
theorem test_wf_index_four :
    (Instr.pmullwSse128 1 (.mem ⟨false, .ds, .reg 0, some ⟨4, 0⟩, 0⟩) 6).wellFormed true = false := by
  decide
theorem test_wf_rip_with_index :
    (Instr.pmullwSse128 1 (.mem ⟨false, .ds, .rip, some ⟨1, 0⟩, 0⟩) 9).wellFormed true = false := by
  decide
theorem test_wf_addr64_outside_64 :
    (Instr.pmullwSse128 1 (.mem atRax) 4).wellFormed false = false := by decide
theorem test_wf_zeroing_without_mask :
    (Instr.vpmullwEvex128 1 2 (.reg 3) 0 true 6).wellFormed true = false := by decide
theorem test_wf_too_short : (Instr.pmullwSse128 0 (.reg 1) 3).wellFormed true = false := by decide
theorem test_wf_no_room_for_override :
    (Instr.pmullwSse128 1 (.mem ⟨false, .fs, .reg 0, none, 0⟩) 4).wellFormed true = false := by decide
theorem test_wf_too_long : (Instr.pmullwSse128 0 (.reg 1) 16).wellFormed true = false := by decide

/-! ## Written-out words of every form, and words that are none (V7.x) -/

theorem test_decode_mmx :
    decode true false [0x0F, 0xD5, 0x18] = .ok (.pmullwMmx64 3 (.mem atRax) 3) := by decide
theorem test_decode_sse_rexB :
    decode true false [0x66, 0x41, 0x0F, 0xD5, 0xCA] = .ok (.pmullwSse128 1 (.reg 10) 5) := by decide
theorem test_decode_sse_sib :
    decode true false [0x66, 0x42, 0x0F, 0xD5, 0x0C, 0xC8] =
      .ok (.pmullwSse128 1 (.mem ⟨false, .ds, .reg 0, some ⟨9, 3⟩, 0⟩) 6) := by decide
theorem test_decode_sse_fs :
    decode true false [0x64, 0x66, 0x0F, 0xD5, 0x08] =
      .ok (.pmullwSse128 1 (.mem ⟨false, .fs, .reg 0, none, 0⟩) 5) := by decide
/-- R78.5: in 64-bit mode `2E` and `36` beside `64` do not change the address. -/
theorem test_decode_fs_among_others :
    decode true false [0x64, 0x2E, 0x36, 0x66, 0x0F, 0xD5, 0x08] =
        .ok (.pmullwSse128 1 (.mem ⟨false, .fs, .reg 0, none, 0⟩) 7) ∧
      decode true false [0x2E, 0x65, 0x66, 0x0F, 0xD5, 0x08] =
        .ok (.pmullwSse128 1 (.mem ⟨false, .gs, .reg 0, none, 0⟩) 6) := by decide
theorem test_decode_sse_rsp :
    decode true false [0x66, 0x0F, 0xD5, 0x0C, 0x24] =
      .ok (.pmullwSse128 1 (.mem ⟨false, .ss, .reg 4, none, 0⟩) 5) := by decide
theorem test_decode_vex128 :
    decode true false [0xC4, 0xC1, 0x79, 0xD5, 0xD1] = .ok (.vpmullwVex128 2 0 (.reg 9) 5) := by
  decide
theorem test_decode_vex256 :
    decode true false [0xC5, 0xFD, 0xD5, 0xD1] = .ok (.vpmullwVex256 2 0 (.reg 1) 4) := by decide
theorem test_decode_evex128 :
    decode true false [0x62, 0xE1, 0x6D, 0x08, 0xD5, 0xC3] =
      .ok (.vpmullwEvex128 16 2 (.reg 3) 0 false 6) := by decide
theorem test_decode_evex256 :
    decode true false [0x62, 0xF1, 0x6D, 0x29, 0xD5, 0x48, 0x02] =
      .ok (.vpmullwEvex256 1 2 (.mem ⟨false, .ds, .reg 0, none, 0x40⟩) 1 false 7) := by decide
theorem test_decode_evex512 :
    decode true false [0x62, 0xF1, 0x6D, 0xC9, 0xD5, 0xCB] =
      .ok (.vpmullwEvex512 1 2 (.reg 3) 1 true 6) := by decide
theorem test_decode_repeat : decode true false [0xF3, 0x66, 0x0F, 0xD5, 0xC1] = .error .repeatPrefix := by
  decide
theorem test_decode_lock :
    decode true false [0xF0, 0x66, 0x0F, 0xD5, 0x08] = .error .invalidOpcode := by decide
theorem test_decode_evex_broadcast :
    decode true false [0x62, 0xF1, 0x6D, 0x18, 0xD5, 0x08] = .error .invalidOpcode := by decide
theorem test_decode_evex_zeroing_unmasked :
    decode true false [0x62, 0xF1, 0x6D, 0x88, 0xD5, 0xCB] = .error .invalidOpcode := by decide
theorem test_decode_evex_length :
    decode true false [0x62, 0xF1, 0x6D, 0x68, 0xD5, 0xCB] = .error .invalidOpcode := by decide
theorem test_decode_opsize_before_vex :
    decode true false [0x66, 0xC5, 0xF9, 0xD5, 0xD1] = .error .invalidOpcode := by decide
theorem test_decode_vex_pp : decode true false [0xC5, 0xF8, 0xD5, 0xD1] = .error .otherInstruction := by
  decide
theorem test_decode_vex_map :
    decode true false [0xC4, 0xE2, 0x79, 0xD5, 0xD1] = .error .otherInstruction := by decide

/-! ## Executions -/

/-- V2.1. -/
theorem test_mmx_registers :
    nextAnd (exec (.pmullwMmx64 0 (.reg 1) 3) ((State.reset.setMM 0 a64).setMM 1 b64))
      (fun t => t.getMM 0 == prod64 && t.getMM 1 == b64 && t.pc == 0xFFF3) = true := by decide

/-- V2.2, at an odd address. -/
theorem test_mmx_memory :
    nextAnd (exec (.pmullwMmx64 3 (.mem atRax) 3)
        (withData (State.reset.setMM 3 a64) 0x2001 [3, 0, 0xFF, 0xFF, 0xFF, 0x7F, 0, 0x80]))
      (fun t => t.getMM 3 == prod64) = true := by decide

/-- V3.1, the upper bits all ones before and after. -/
theorem test_sse_upper_bits_stay :
    nextAnd (exec (.pmullwSse128 0 (.reg 1) 4)
        (withV (withV State.reset 0 (ones <<< 128 ||| a128)) 1 b128))
      (fun t => t.getV 0 == (ones <<< 128 ||| prod128) && t.getV 1 == b128) = true := by decide +kernel

/-- V3.4. -/
theorem test_sse_misaligned :
    faults (exec (.pmullwSse128 1 (.mem atRax) 4) (withData State.reset 0x1008 []))
      .generalProtection = true := by decide

/-- V4.1. -/
theorem test_vex128_upper_bits_zeroed :
    nextAnd (exec (.vpmullwVex128 2 0 (.reg 1) 4)
        (withV (withV (withV State.reset 0 a128) 1 b128) 2 ones))
      (fun t => t.getV 2 == prod128) = true := by decide +kernel

/-- V4.2: the three operands are one register. -/
theorem test_vex128_same_register :
    nextAnd (exec (.vpmullwVex128 2 2 (.reg 2) 4) (withV State.reset 2 (ones <<< 128 ||| a128)))
      (fun t => t.getV 2 == 0x0000FE015A9000010000000100040001) = true := by decide +kernel

/-- V4.4. -/
theorem test_vex256_lanes :
    nextAnd (exec (.vpmullwVex256 2 0 (.reg 1) 4)
        (withV (withV (withV State.reset 0 a256) 1 b256) 2 ones))
      (fun t => t.getV 2 == prod256) = true := by decide +kernel

/-- V4.6. -/
theorem test_vex256_absent :
    faults (exec (.vpmullwVex256 2 0 (.reg 1) 4)
        { State.reset with
          cfg := { Config.atReset with features := ⟨true, true, true, false, true, true, true⟩ } })
      .invalidOpcode = true := by decide

/-- The sources of V5.2 and V5.3. -/
def maskedState : State :=
  withK (withV (withV (withV State.reset 1
    (ones <<< 128 ||| 0xDEADDEADDEADDEADDEADDEADDEADDEAD)) 2 a128) 3 b128) 2 0xA5

/-- V5.2, merging. -/
theorem test_evex128_merging :
    nextAnd (exec (.vpmullwEvex128 1 2 (.reg 3) 2 false 6) maskedState)
      (fun t => t.getV 1 == 0x0000DEAD0060DEADDEAD0001DEAD0003) = true := by decide +kernel

/-- V5.3, zeroing. -/
theorem test_evex128_zeroing :
    nextAnd (exec (.vpmullwEvex128 1 2 (.reg 3) 2 true 6) maskedState)
      (fun t => t.getV 1 == 0x00000000006000000000000100000003) = true := by decide +kernel

/-- V5.8. -/
theorem test_evex256_merging :
    nextAnd (exec (.vpmullwEvex256 3 1 (.reg 2) 1 false 6)
        (withK (withV (withV (withV State.reset 1 a256) 2 b256) 3
          0xFFFFEEEEDDDDCCCCBBBBAAAA9999888877776666555544443333222211110000) 1 0x0F0F))
      (fun t => t.getV 3 ==
        0xFFFFEEEEDDDDCCCC02010000FFE70023777766665555444400000001FFFE0003) = true := by decide +kernel

/-- V5.12: highest and lowest mask bit, merging. -/
theorem test_evex512_merging :
    nextAnd (exec (.vpmullwEvex512 3 1 (.reg 2) 1 false 6)
        (withK (withV (withV (withV State.reset 1 (packLanes 512 (fun j => BitVec.ofNat 16 (0x101 * j)) 32))
          2 (packLanes 512 (fun j => BitVec.ofNat 16 (0xFFFF - j)) 32))
          3 (packLanes 512 (fun _ => 0xDEAD) 32)) 1 0x80000001))
      (fun t => lane (t.getV 3) 0 == 0 && lane (t.getV 3) 31 == 0x1C20 &&
        (List.range 30).all fun j => lane (t.getV 3) (j + 1) == 0xDEAD) = true := by decide +kernel

/-- V5.17: the lane selected reads its two bytes, the others need none. -/
theorem test_evex512_memory :
    nextAnd (exec (.vpmullwEvex512 1 2 (.mem ⟨false, .ds, .reg 0, none, 0x40⟩) 2 false 7)
        (withK (withV (withV (withData State.reset 0xFC0 [] |> fun s =>
            { s with mem := s.mem.writeBytes 0x1000 [0xFF, 0xFF, 0xFE, 0xFF] })
          2 (packLanes 512 (fun j => BitVec.ofNat 16 (0x101 * j)) 32))
          1 (packLanes 512 (fun _ => 0xDEAD) 32)) 2 2))
      (fun t => lane (t.getV 1) 1 == 0xFDFE && lane (t.getV 1) 0 == 0xDEAD &&
        t.pc == 0xFFF7) = true := by decide +kernel

/-! ## A witness for the hypotheses of every statement that has any -/

/-- RAX = 0x1000. -/
def rax1000 : State := withData State.reset 0x1000 []

/-- The last byte a canonical 48-bit address allows is byte 7 of an operand here: every byte of an
8-byte operand is legal, byte 8 of a longer one is not. -/
def rax7FF8 : State := withData State.reset 0x7FFFFFFFFFF8 []

theorem witness_MmxFormCompletes :
    Ready .mmx64 rax7FF8 ∧ MmxSrcReady (.mem atRax) 3 rax7FF8 ∧ MmxSrcReady (.reg 1) 3 rax7FF8 := by
  decide

theorem witness_Sse128FormCompletes :
    Ready .sse128 rax1000 ∧ SrcReady .sse128 (.mem atRax) 4 rax1000 (allBytes .sse128) := by decide

theorem witness_Vex128FormCompletes :
    Ready .vex128 rax1000 ∧ SrcReady .vex128 (.mem atRax) 4 rax1000 (allBytes .vex128) := by decide

theorem witness_Vex256FormCompletes :
    Ready .vex256 rax1000 ∧ SrcReady .vex256 (.mem atRax) 4 rax1000 (allBytes .vex256) := by decide

/-- The masked operand reaches past the last canonical address in lanes that are not selected. -/
theorem witness_Evex128FormCompletes :
    Ready .evex128 (withK rax7FF8 2 0xF) ∧ (true = true → (2 : KReg) ≠ 0) ∧
      SrcReady .evex128 (.mem atRax) 6 (withK rax7FF8 2 0xF)
        (accessedBytes .evex128 2 (withK rax7FF8 2 0xF)) := by decide

theorem witness_Evex256FormCompletes :
    Ready .evex256 rax1000 ∧ (false = true → (0 : KReg) ≠ 0) ∧
      SrcReady .evex256 (.mem atRax) 6 rax1000 (accessedBytes .evex256 0 rax1000) := by decide

theorem witness_Evex512FormCompletes :
    Ready .evex512 rax1000 ∧ (false = true → (0 : KReg) ≠ 0) ∧
      SrcReady .evex512 (.mem atRax) 6 rax1000 (accessedBytes .evex512 0 rax1000) := by decide

theorem witness_PackedProductIsLanewise : 31 < 512 / 16 := by decide

theorem witness_UnmaskedEvexActsAsVex :
    State.reset.cfg.acVex = State.reset.cfg.acEvex ∧ Ready .vex128 State.reset ∧
      Ready .evex128 State.reset ∧ Ready .vex256 State.reset ∧ Ready .evex256 State.reset := by decide

/-- Mask registers that agree with reset's in 32 bits and no further. -/
def highMasks : Vector (BitVec 64) 8 := Vector.replicate 8 0xFFFFFFFF00000000

theorem witness_OnlyLowMaskBitsCount :
    (∀ j < 32, highMasks[(2 : KReg)].getLsbD j = (State.reset.getK 2).getLsbD j) ∧
      completes (exec (.vpmullwEvex128 1 2 (.reg 3) 2 true 6) State.reset) = true ∧
      completes (exec (.vpmullwEvex256 1 2 (.reg 3) 2 true 6) State.reset) = true ∧
      completes (exec (.vpmullwEvex512 1 2 (.reg 3) 2 true 6) State.reset) = true := by decide

theorem witness_UnselectedLanesOfMemoryDoNotMatter :
    (∀ j < 32, laneSelected 2 (withK rax1000 2 1) j = true → ∀ k < 64, k / 2 = j →
        byteAt { withK rax1000 2 1 with mem := [(0x1002, 1)] }
            (byteAddr (withK rax1000 2 1) (effAddr atRax 6 (withK rax1000 2 1)) k) =
          byteAt (withK rax1000 2 1)
            (byteAddr (withK rax1000 2 1) (effAddr atRax 6 (withK rax1000 2 1)) k)) ∧
      completes (exec (.vpmullwEvex128 1 2 (.mem atRax) 2 true 6) (withK rax1000 2 1)) = true ∧
      completes (exec (.vpmullwEvex256 1 2 (.mem atRax) 2 true 6) (withK rax1000 2 1)) = true ∧
      completes (exec (.vpmullwEvex512 1 2 (.mem atRax) 2 true 6) (withK rax1000 2 1)) = true := by
  decide

/-- The clause of the 128-bit form asks of no lane above 7: lane 8 is selected and differs. -/
theorem witness_UnselectedLanesOfMemoryDoNotMatter_narrow :
    (∀ j < 8, laneSelected 2 (withK rax1000 2 0x101) j = true → ∀ k < 16, k / 2 = j →
        byteAt { withK rax1000 2 0x101 with mem := [(0x1010, 1)] }
            (byteAddr (withK rax1000 2 0x101) (effAddr atRax 6 (withK rax1000 2 0x101)) k) =
          byteAt (withK rax1000 2 0x101)
            (byteAddr (withK rax1000 2 0x101) (effAddr atRax 6 (withK rax1000 2 0x101)) k)) ∧
      laneSelected 2 (withK rax1000 2 0x101) 8 = true ∧
      completes (exec (.vpmullwEvex128 1 2 (.mem atRax) 2 true 6) (withK rax1000 2 0x101)) = true := by
  decide

/-- For the frame and for the flags: an execution that completes, of every instruction. -/
theorem witness_ExecChangesOnlyItsDestination :
    completes (exec (.pmullwMmx64 1 (.reg 2) 3) State.reset) = true ∧
      completes (exec (.pmullwSse128 1 (.mem atRax) 4) rax1000) = true ∧
      completes (exec (.vpmullwVex128 1 2 (.mem atRax) 4) rax1000) = true ∧
      completes (exec (.vpmullwVex256 1 2 (.mem atRax) 4) rax1000) = true ∧
      completes (exec (.vpmullwEvex128 1 2 (.reg 3) 0 false 6) rax1000) = true ∧
      completes (exec (.vpmullwEvex256 1 2 (.mem atRax) 2 true 6) rax1000) = true ∧
      completes (exec (.vpmullwEvex512 1 2 (.mem atRax) 2 false 6) rax1000) = true := by decide

theorem witness_FlagsAreNeitherWrittenNorRead :
    completes (exec (.pmullwMmx64 1 (.mem atRax) 3) rax1000) = true ∧
      (0x8D5 : BitVec 64).getLsbD 18 = rax1000.rflags.getLsbD 18 := by decide

/-- For the statements about a step that answers a next state, and for the invariant. -/
theorem witness_StepKeepsTheInvariant :
    (withCode State.reset [0x0F, 0xD5, 0xC1]).Inv ∧
      completes (step (withCode State.reset [0x0F, 0xD5, 0xC1])) = true :=
  ⟨⟨by decide, State.getV_lt_of_w512 _ rfl, by decide⟩, by decide⟩

/-- Every feature condition false. -/
def featureless : Config :=
  { Config.atReset with features := ⟨false, false, false, false, false, false, false⟩ }

theorem witness_AbsentFormRaisesUD :
    (∀ f ∈ [Form.mmx64, .sse128, .vex128, .vex256, .evex128, .evex256, .evex512],
        available f featureless = false) ∧
      ¬ Present .mmx64 featureless ∧ ¬ Present .sse128 featureless ∧
      ¬ Present .evex128 { Config.atReset with features := ⟨true, true, true, true, true, false, false⟩ } ∧
      ¬ Present .evex512 { Config.atReset with maxvl := .w256 } ∧
      ¬ Present .vex256 { Config.atReset with maxvl := .w128 } := by decide

theorem witness_DisabledFormRaisesUD :
    ¬ Enabled .mmx64 { State.reset with cr0 := 0x4 } ∧
      ¬ Enabled .sse128 { State.reset with cr4 := 0x40000 } ∧
      ¬ Enabled .vex128 { State.reset with mode := .virtual8086 } ∧
      ¬ Enabled .vex256 { State.reset with xcr0 := 0xE3 } ∧
      ¬ Enabled .evex512 { State.reset with xcr0 := 0x67 } := by decide

theorem witness_ZeroingWithoutMaskRaisesUD :
    (Instr.vpmullwEvex256 1 2 (.reg 3) 0 true 6).maskOk = false := by decide

/-- CR0.TS set. -/
def taskSwitched : State := { State.reset with cr0 := 0x60000018 }

theorem witness_TaskSwitchedRaisesNM :
    Present .evex512 taskSwitched.cfg ∧ Enabled .evex512 taskSwitched ∧
      (Instr.vpmullwEvex512 1 2 (.reg 3) 1 true 6).maskOk = true ∧ taskSwitched.cr0TS = true := by
  decide

theorem witness_PendingX87RaisesMF :
    let s : State := { State.reset with x87 := { State.reset.x87 with pending := true } }
    Present .mmx64 s.cfg ∧ Enabled .mmx64 s ∧ s.cr0TS = false ∧ s.x87.pending = true := by decide

/-- The non-canonical clause at its boundary: byte 8 of the operand is the first illegal one. -/
theorem witness_BadAddressRaisesSSOrGP_canonical :
    Ready .vex128 rax7FF8 ∧ 8 ∈ accessed (.vpmullwVex128 1 2 (.mem atRax) 4) rax7FF8 ∧
      rax7FF8.mode64 = true ∧
      canonical rax7FF8.cfg.canonBits (byteAddr rax7FF8 (effAddr atRax 4 rax7FF8) 8) = false ∧
      canonical rax7FF8.cfg.canonBits (byteAddr rax7FF8 (effAddr atRax 4 rax7FF8) 7) = true := by decide

/-- Protected mode, a stack segment whose offsets from 0x2000 on are illegal. -/
def shortStack : State :=
  { State.reset with
    mode := .protectedMode
    segs := State.reset.segs.set 2 ⟨0, [(0x2000, 0x100000000)]⟩ }

/-- The segment clause at its boundary: byte 15 is the first illegal one. -/
theorem witness_BadAddressRaisesSSOrGP_segment :
    Ready .vex128 shortStack ∧
      15 ∈ accessed (.vpmullwVex128 1 2 (.mem (absolute32 .ss 0x1FF1)) 8) shortStack ∧
      offsetIllegal (shortStack.getSeg .ss)
        (shortStack.linear (memOffset (absolute32 .ss 0x1FF1) 8 shortStack + BitVec.ofNat 64 15)).toNat =
          true ∧
      byteIllegal (absolute32 .ss 0x1FF1) 8 shortStack 14 = false := by decide

/-- Real-address mode. -/
def realMode : State := { State.reset with mode := .realAddress }

/-- Byte 7 of the operand at 0xFFF9 is the first one outside. -/
theorem witness_BeyondOffset64KRaisesGP :
    Ready .mmx64 realMode ∧ realMode.real = true ∧
      7 ∈ accessed (.pmullwMmx64 1 (.mem (absolute32 .ds 0xFFF9)) 7) realMode ∧
      (∀ j ∈ accessed (.pmullwMmx64 1 (.mem (absolute32 .ds 0xFFF9)) 7) realMode,
        byteIllegal (absolute32 .ds 0xFFF9) 7 realMode j = false) ∧
      0xFFFF < (memOffset (absolute32 .ds 0xFFF9) 7 realMode).toNat + 7 ∧
      ¬ 0xFFFF < (memOffset (absolute32 .ds 0xFFF9) 7 realMode).toNat + 6 := by decide

theorem witness_MisalignedSse128RaisesGP :
    Ready .sse128 rax1000 ∧ (∀ k < 16, ByteLegal (absolute32 .ds 0x1008) 8 rax1000 k) ∧
      (effAddr (absolute32 .ds 0x1008) 8 rax1000).toNat % 16 ≠ 0 := by decide

/-- A region from 0x1008 on that faults for a write-protected or absent page, or that is a
device. -/
def withRegion (kind : RegionKind) : State :=
  { rax1000 with xlate := [⟨0x1008, 0x1000, .always, kind⟩] }

theorem witness_PageFaultIsRaised :
    let s := withRegion (.faulting (.pf 4))
    let i : Instr := .pmullwSse128 1 (.mem atRax) 4
    Ready .sse128 s ∧
      (∀ j ∈ accessed i s, ByteLegal atRax 4 s j ∧
        translateByte s (byteAddr s (effAddr atRax 4 s) j) ≠ .faulting .ss ∧
        translateByte s (byteAddr s (effAddr atRax 4 s) j) ≠ .faulting .gp) ∧
      (effAddr atRax 4 s).toNat % 16 = 0 ∧ 8 ∈ accessed i s ∧
      translateByte s (byteAddr s (effAddr atRax 4 s) 8) = .faulting (.pf 4) ∧
      ∀ j ∈ accessed i s, j < 8 →
        (translateByte s (byteAddr s (effAddr atRax 4 s) j)).isLocation = true := by decide

/-- Every clause, at the first byte of the region. -/
theorem witness_TranslateExceptionsAreRaised :
    let i : Instr := .vpmullwVex128 1 2 (.mem atRax) 4
    ∀ x ∈ [XlateFault.ss, .gp, .ac],
      Ready .vex128 (withRegion (.faulting x)) ∧
        (∀ j ∈ accessed i (withRegion (.faulting x)), ByteLegal atRax 4 (withRegion (.faulting x)) j) ∧
        8 ∈ accessed i (withRegion (.faulting x)) ∧
        ∀ j ∈ accessed i (withRegion (.faulting x)),
          translateByte (withRegion (.faulting x))
              (byteAddr (withRegion (.faulting x)) (effAddr atRax 4 (withRegion (.faulting x))) j) =
            if j < 8 then .location (0x1000 + BitVec.ofNat 64 j) else .faulting x := by decide

theorem witness_MisalignedMmxRaisesAC :
    let s : State := { rax1000 with cr0 := 0x60040010, rflags := 0x40002, cpl := 3 }
    Ready .mmx64 s ∧ (∀ k < 8, ByteReadable (absolute32 .ds 0x1004) 7 s k) ∧
      s.cr0.getLsbD 18 = true ∧ s.rflags.getLsbD 18 = true ∧ s.cpl = 3 ∧
      (effAddr (absolute32 .ds 0x1004) 7 s).toNat % 8 ≠ 0 := by decide

theorem witness_SideEffectMemoryIsRefused :
    let s := withRegion .device
    let i : Instr := .vpmullwVex256 1 2 (.mem atRax) 4
    Ready .vex256 s ∧
      (∀ j ∈ accessed i s, ByteLegal atRax 4 s j ∧
        (translateByte s (byteAddr s (effAddr atRax 4 s) j) = .device ∨
          (translateByte s (byteAddr s (effAddr atRax 4 s) j)).isLocation = true)) ∧
      Aligned .vex256 atRax 4 s ∧
      31 < Form.vl .vex256 / 8 ∧
      translateByte s (byteAddr s (effAddr atRax 4 s) 31) = .device := by decide

/-- The same where the device holds only bytes of lanes that are not selected (R56, R66). -/
theorem witness_SideEffectMemoryIsRefused_masked :
    let s := withK (withRegion .device) 2 0xF
    let i : Instr := .vpmullwEvex128 1 2 (.mem atRax) 2 true 6
    Ready .evex128 s ∧ i.maskOk = true ∧ 8 ∉ accessed i s ∧
      (∀ j ∈ accessed i s, ByteLegal atRax 6 s j ∧
        (translateByte s (byteAddr s (effAddr atRax 6 s) j)).isLocation = true) ∧
      Aligned .evex128 atRax 6 s ∧ 8 < Form.vl .evex128 / 8 ∧
      translateByte s (byteAddr s (effAddr atRax 6 s) 8) = .device := by decide

theorem witness_MemoryOperandIsLittleEndian :
    (loadOperand 256 .vex256 atRax 4 rax1000 (allBytes .vex256)).isOk = true := by decide

/-- A well-formed instruction of every form, outside 64-bit mode too. -/
theorem witness_DecodeOfEncodeIsIdentity :
    (Instr.pmullwMmx64 7 (.mem ⟨true, .fs, .reg 15, some ⟨12, 3⟩, 0x80000000⟩) 15).wellFormed true = true ∧
      (Instr.pmullwSse128 15 (.mem ⟨false, .ds, .rip, none, 1⟩) 9).wellFormed true = true ∧
      (Instr.vpmullwVex128 15 15 (.reg 15) 5).wellFormed true = true ∧
      (Instr.vpmullwVex256 7 7 (.mem ⟨true, .ss, .reg 5, none, 0⟩) 5).wellFormed false = true ∧
      (Instr.vpmullwEvex128 31 31 (.reg 31) 7 true 6).wellFormed true = true ∧
      (Instr.vpmullwEvex256 0 0 (.mem ⟨true, .ds, .none, some ⟨7, 1⟩, 5⟩) 0 false 11).wellFormed false = true ∧
      (Instr.vpmullwEvex512 31 0 (.mem ⟨false, .ds, .reg 0, none, 0x40⟩) 1 false 7).wellFormed true = true := by
  decide

/-- For every statement with a decoding as its hypothesis, in and outside 64-bit mode. -/
theorem witness_DecodedInstructionsAreWellFormed :
    decode true false [0x62, 0xA1, 0x6D, 0x40, 0xD5, 0xCB, 0x90] =
        .ok (.vpmullwEvex512 17 18 (.reg 19) 0 false 6) ∧
      decode false true [0xC5, 0xE9, 0xD5, 0xD2] = .ok (.vpmullwVex128 2 2 (.reg 2) 4) := by decide

theorem witness_LockedLegacyFormIsUD :
    (∀ p ∈ [0x66#8, 0xF0#8, 0x2E#8], isLegacyPrefix p = true) ∧ 0xF0#8 ∈ [0x66#8, 0xF0#8, 0x2E#8] ∧
      0xF2#8 ∉ [0x66#8, 0xF0#8, 0x2E#8] ∧ 0xF3#8 ∉ [0x66#8, 0xF0#8, 0x2E#8] := by decide

theorem witness_RepeatPrefixIsRefused :
    (∀ p ∈ [0x66#8, 0xF3#8, 0xF0#8], isLegacyPrefix p = true) ∧ 0xF3#8 ∈ [0x66#8, 0xF3#8, 0xF0#8] := by
  decide

theorem witness_PrefixBeforeVexIsUD :
    (∀ p ∈ [0x67#8, 0x66#8], isLegacyPrefix p = true) ∧ 0x66#8 ∈ [0x67#8, 0x66#8] ∧
      0xC5#8 ∈ [0xC4#8, 0xC5#8, 0x62#8] ∧ (0xC0#8).extractLsb' 6 2 = 3 ∧
      (0xBF#8).extractLsb' 6 2 ≠ 3 := by decide

/-- P0 = F1, P1 = 6D with P2 = 18 (b), 88 (z without mask), 68 (length 11); P0 = F9 and P1 = 69
for the fixed bits. -/
theorem witness_IllegalEvexSettings :
    (0xF1#8).getLsbD 3 = false ∧ (0x6D#8).getLsbD 2 = true ∧ (0xF1#8).extractLsb' 0 3 = 1 ∧
      (0x6D#8).extractLsb' 0 2 = 1 ∧ (0x18#8).getLsbD 4 = true ∧
      ((0x88#8).getLsbD 7 = true ∧ (0x88#8).extractLsb' 0 3 = 0) ∧ (0x68#8).extractLsb' 5 2 = 3 ∧
      (0xF9#8).getLsbD 3 = true ∧ (0x69#8).getLsbD 2 = false := by decide

/-- A head of every form, with prefixes that are allowed before it. -/
theorem witness_SixteenBitAddressingIsRefused :
    (2 : BitVec 2) ≠ 3 ∧ (∀ p ∈ [0x3E#8, 0x67#8], p ∈ neutralPrefixes) ∧
      OpcodeOutside64 [0x0F, 0xD5] ∧ OpcodeOutside64 [0x66, 0x0F, 0xD5] ∧
      OpcodeOutside64 [0xC5, 0xFD, 0xD5] ∧ OpcodeOutside64 [0xC4, 0xE1, 0xF9, 0xD5] ∧
      OpcodeOutside64 [0x62, 0xF1, 0x6D, 0xC9, 0xD5] :=
  ⟨by decide, by decide, .inl rfl, .inr (.inl rfl),
    .inr (.inr (.inl ⟨0xFD, by decide, by decide, rfl⟩)),
    .inr (.inr (.inr (.inl ⟨0xF9, by decide, by decide, rfl⟩))),
    .inr (.inr (.inr (.inr ⟨0x6D, 0xC9, by decide, by decide, by decide, by decide, by decide,
      by decide, by decide, rfl⟩)))⟩

/-- Every clause has overrides that meet it, 11 of them at most. -/
theorem witness_FsGsOverrideCountsIn64BitMode :
    let fs : List SReg := .fs :: List.replicate 10 .cs
    let gs : List SReg := [.ss, .gs]
    let both : List SReg := [.fs, .gs]
    let neither : List SReg := [.cs, .ss]
    (fs.length ≤ 11 ∧ .fs ∈ fs ∧ .gs ∉ fs) ∧ (gs.length ≤ 11 ∧ .gs ∈ gs ∧ .fs ∉ gs) ∧
      (both.length ≤ 11 ∧ .fs ∈ both ∧ .gs ∈ both) ∧
      neither.length ≤ 11 ∧ .fs ∉ neither ∧ .gs ∉ neither ∧ State.reset.mode64 = true := by decide

/-- Both kinds of redundant prefix, for a register and for a memory operand. -/
theorem witness_RedundantPrefixesOnlyAddLength :
    decode true false [0x0F, 0xD5, 0xC1] = .ok (.pmullwMmx64 0 (.reg 1) 3) ∧
      RedundantBefore (.pmullwMmx64 0 (.reg 1) 3) 0x67 ∧
      decode true false [0x66, 0x0F, 0xD5, 0x08] = .ok (.pmullwSse128 1 (.mem atRax) 4) ∧
      RedundantBefore (.pmullwSse128 1 (.mem atRax) 4) 0x66 :=
  ⟨by decide, .inl (by decide), by decide, .inr (by decide)⟩

/-- The length limit at its boundary: 15 bytes decode, 16 do not (R86). -/
theorem test_decode_fifteen_bytes :
    decode true false (List.replicate 11 0x66 ++ [0x66, 0x0F, 0xD5, 0xC1]) =
        .ok (.pmullwSse128 0 (.reg 1) 15) ∧
      decode true false (List.replicate 12 0x66 ++ [0x66, 0x0F, 0xD5, 0xC1]) = .error .tooLong := by
  decide

/-- VEX with `¬B` = 0 and with `vvvv` = 8, EVEX with each of its four bits. -/
theorem witness_ExtensionBitsOutside64AreRefused :
    (0xC1#8).extractLsb' 6 2 = 3 ∧ (0xC1#8).extractLsb' 0 5 = 1 ∧ (0x79#8).extractLsb' 0 2 = 1 ∧
      (0xC1#8).getLsbD 5 = false ∧ (0x39#8).extractLsb' 0 2 = 1 ∧ (0x39#8).getLsbD 6 = false ∧
      (0xD1#8).extractLsb' 6 2 = 3 ∧ (0xD1#8).getLsbD 3 = false ∧ (0xD1#8).extractLsb' 0 3 = 1 ∧
      (0xD1#8).getLsbD 5 = false ∧ (0xE1#8).extractLsb' 6 2 = 3 ∧ (0xE1#8).getLsbD 4 = false ∧
      (0x6D#8).getLsbD 2 = true ∧ (0x6D#8).extractLsb' 0 2 = 1 ∧ (0x00#8).getLsbD 3 = false ∧
      (0x2D#8).getLsbD 6 = false := by decide

/-- `0F D5 C1` ends one byte below the top of the address space: the step runs it. -/
theorem witness_StepRunsTheDecodedInstruction :
    let s := withCode { State.reset with pc := 0xFFFFFFFFFFFFFFFC } [0x0F, 0xD5, 0xC1]
    decode s.mode64 s.code16 (fetchWindow s) = .ok (.pmullwMmx64 0 (.reg 1) 3) ∧
      s.pc.toNat + 3 < 2 ^ s.addrBits := by decide

theorem witness_StepRunsTheEncodedInstruction :
    let i : Instr := .vpmullwEvex128 31 31 (.reg 31) 7 true 15
    let s := withCode State.reset (encode true i)
    i.wellFormed s.mode64 = true ∧ s.pc.toNat + i.len < 2 ^ s.addrBits ∧
      ∀ k < i.len, s.mem.read (s.pc.toNat + k) = (encode s.mode64 i).getD k 0 := by decide

theorem witness_StepRunsTheFetchWord :
    State.reset.mem.wf = true ∧ State.reset.mode64 = true ∧ State.reset.pc.toNat + 15 < 2 ^ 64 ∧
      decodeTableWord 40 0xD540050162 =
        some (.vpmullwEvex512 24 31 (.mem ⟨false, .ds, .reg 8, none, 0⟩) 0 false 6) := by decide

/-- One byte further up the instruction ends at the top: refused. -/
theorem witness_StepStopsAsTheDecoderSays_top :
    let s := withCode { State.reset with pc := 0xFFFFFFFFFFFFFFFD } [0x0F, 0xD5, 0xC1]
    decode s.mode64 s.code16 (fetchWindow s) = .ok (.pmullwMmx64 0 (.reg 1) 3) ∧
      2 ^ s.addrBits ≤ s.pc.toNat + 3 := by decide

/-- The four named decoding errors, at a step. -/
theorem witness_StepStopsAsTheDecoderSays_errors :
    (let s := withCode State.reset [0xF0, 0x0F, 0xD5, 0xC1];
        decode s.mode64 s.code16 (fetchWindow s) = .error .invalidOpcode) ∧
      decode State.reset.mode64 State.reset.code16 (fetchWindow State.reset) = .error .otherInstruction ∧
      (let s := withCode State.reset [0xF2, 0x0F, 0xD5, 0xC1];
        decode s.mode64 s.code16 (fetchWindow s) = .error .repeatPrefix) ∧
      (let s := withCode realMode [0x67, 0x0F, 0xD5, 0x00];
        decode s.mode64 s.code16 (fetchWindow s) = .error .address16) := by decide

/-- Protected mode, near the top of the address space and with 15 bytes before it. -/
def protectedAt (pc : BitVec 64) : State := { State.reset with mode := .protectedMode, pc := pc }

/-- The other named decoding errors, at a step; bytes cut off with 15 of them there and with
fewer. -/
theorem witness_StepStopsAsTheDecoderSays_others :
    (let s := withCode realMode [0xC4, 0xC1, 0x79, 0xD5, 0xD1];
        decode s.mode64 s.code16 (fetchWindow s) = .error .extensionOutside64) ∧
      (let s := withCode State.reset [0x62, 0xF9, 0x6D, 0x08, 0xD5, 0xCB];
        decode s.mode64 s.code16 (fetchWindow s) = .error .evexFixedBits) ∧
      (let s := withCode (protectedAt 0xFFFFFFF1) (List.replicate 14 0x66 ++ [0xC5]);
        decode s.mode64 s.code16 (fetchWindow s) = .error .truncated ∧
          s.pc.toNat + 15 ≤ 2 ^ s.addrBits) ∧
      (let s := withCode (protectedAt 0xFFFFFFF2) (List.replicate 13 0x66 ++ [0xC5]);
        decode s.mode64 s.code16 (fetchWindow s) = .error .truncated ∧
          2 ^ s.addrBits < s.pc.toNat + 15) := by decide

/-- Outside 64-bit mode `C5` is a VEX prefix only by its next byte (R85.4), which here lies beyond
the 15 bytes or beyond the top: refused, no `#UD`. With a next byte of `11` it is `#UD`. -/
theorem test_step_vex_prefix_cut_off :
    refuses (step (withCode realMode (List.replicate 14 0x66 ++ [0xC5, 0x00]))) .tooLong = true ∧
      refuses (step (withCode (protectedAt 0xFFFFFFFE) [0x66, 0xC5])) .pcWraps = true ∧
      faults (step (withCode realMode [0x66, 0xC5, 0xF9, 0xD5, 0xD1])) .invalidOpcode = true := by
  decide

theorem witness_StepRefusesLongInstructions :
    let s := withCode State.reset (List.replicate 15 0x3E)
    decode s.mode64 s.code16 [0xC5, 0xFD, 0xD5, 0xD1] = .ok (.vpmullwVex256 2 0 (.reg 1) 4) ∧
      15 < 4 + 15 ∧ s.pc.toNat + 15 ≤ 2 ^ s.addrBits ∧
      (0x3E#8 ∈ neutralPrefixes) ∧
      ∀ k < 15, s.mem.read (s.pc.toNat + k) =
        (List.replicate 15 0x3E#8 ++ [0xC5, 0xFD, 0xD5, 0xD1]).getD k 0 := by decide

/-- An instruction of 16 bytes, its opcode among the first 15. -/
theorem test_step_sixteen_bytes :
    refuses (step (withCode State.reset (List.replicate 12 0x3E ++ [0xC5, 0xFD, 0xD5, 0xD1])))
      .tooLong = true := by decide

/-- What the host asks: a table word at the fetch runs as the first instruction. -/
theorem test_table_word_runs :
    decodeTableWord 24 0xD50F66 = some (.pmullwSse128 0 (.mem atRax) 4) ∧
      completes (step (State.reset.withFetchWord 24 0xD50F66)) = true := by decide

end Sys2Proof.Tests
end

section
/-!
PROOFS. The lane arithmetic of 40_lane_arithmetic.md. The one idea is `mullo16_eq_mul`: the lane
result is the wrapping product of the two words (R113), since the low half of a product of
sign-extended words is the product of the words. The ring laws (R115) follow from it.
-/

namespace Sys2Proof.Machine

/-! ### The intermediate product -/

/-- `TEMP` is the wrapping product of the sign-extended words (R111). -/
theorem product32_eq_signExtend_mul (a b : Word) :
    product32 a b = a.signExtend 32 * b.signExtend 32 :=
  BitVec.ofInt_mul a.toInt b.toInt

/-- The smallest product of two integers in `-m .. m - 1` is that of the two ends, not a square. -/
theorem neg_mul_pred_le_mul {m x y : Int} (hx : -m ≤ x) (hx' : x ≤ m - 1) (hy : -m ≤ y)
    (hy' : y ≤ m - 1) : -(m * (m - 1)) ≤ x * y := by
  rcases le_total 0 x with h | h
  · calc -(m * (m - 1)) ≤ -(m * x) := neg_le_neg (mul_le_mul_of_nonneg_left hx' (by omega))
      _ = x * -m := by ring
      _ ≤ x * y := mul_le_mul_of_nonneg_left hy h
  · calc -(m * (m - 1)) = -m * (m - 1) := by ring
      _ ≤ x * (m - 1) := mul_le_mul_of_nonneg_right hx (by omega)
      _ ≤ x * y := mul_le_mul_of_nonpos_left hy' h

/-- The least signed product of two words is `-32768 * 32767` (R112). -/
theorem le_toInt_mul_toInt_word (a b : Word) : -1073709056 ≤ a.toInt * b.toInt :=
  neg_mul_pred_le_mul (m := 2 ^ 15) a.le_toInt (Int.le_sub_one_of_lt a.toInt_lt) b.le_toInt
    (Int.le_sub_one_of_lt b.toInt_lt)

/-- The signed product of two words fits the 32 bits of `TEMP` (R112). -/
theorem toInt_product32 (a b : Word) : (product32 a b).toInt = a.toInt * b.toInt := by
  have hlo := le_toInt_mul_toInt_word a b
  have hhi : a.toInt * b.toInt ≤ 2 ^ 30 := BitVec.toInt_mul_toInt_le
  exact BitVec.toInt_ofInt_eq_self (by decide) (by omega) (by omega)

/-! ### The lane result -/

/-- The lane result is the low half of `TEMP` (R111). -/
theorem mullo16_eq_setWidth (a b : Word) : mullo16 a b = (product32 a b).setWidth 16 :=
  (BitVec.setWidth_eq_extractLsb' (by decide)).symm

/-- `TEMP` is its discarded high half followed by the lane result (R112). -/
theorem product32_eq_high_append_mullo16 (a b : Word) :
    product32 a b = (product32 a b).extractLsb' 16 16 ++ mullo16 a b :=
  (BitVec.extractLsb'_append_extractLsb' (w := 16) (len := 16)).symm

/-- The low bits of a sign-extended value are the value. -/
theorem setWidth_signExtend_self {w v : Nat} (h : w ≤ v) (x : BitVec w) :
    (x.signExtend v).setWidth w = x := by
  apply BitVec.eq_of_getLsbD_eq
  intro i hi
  have hiv : i < v := by omega
  simp [BitVec.getElem_signExtend, hi, hiv]

/-- The lane result is the wrapping product of the words: signedness is lost with the high half
(R113). -/
theorem mullo16_eq_mul (a b : Word) : mullo16 a b = a * b :=
  calc mullo16 a b
      = (a.signExtend 32 * b.signExtend 32).setWidth 16 := by
        rw [mullo16_eq_setWidth, product32_eq_signExtend_mul]
    _ = (a.signExtend 32).setWidth 16 * (b.signExtend 32).setWidth 16 :=
        BitVec.setWidth_mul _ _ (by decide)
    _ = a * b := by
        rw [setWidth_signExtend_self (by decide), setWidth_signExtend_self (by decide)]

/-- Multiplying by a power of two is the unsigned product with it (R115). -/
theorem mullo16_two_pow_eq_ofNat (a : Word) (k : Nat) :
    mullo16 a (BitVec.ofNat 16 (2 ^ k)) = BitVec.ofNat 16 (a.toNat * 2 ^ k) := by
  rw [mullo16_eq_mul, BitVec.ofNat_mul, BitVec.ofNat_toNat, BitVec.setWidth_eq]

/-- Multiplying by a power of two is the left shift (R115). -/
theorem mullo16_two_pow_eq_shiftLeft (a : Word) (k : Nat) :
    mullo16 a (BitVec.ofNat 16 (2 ^ k)) = a <<< k := by
  have htwo : BitVec.ofNat 16 (2 ^ k) = BitVec.twoPow 16 k :=
    BitVec.eq_of_toNat_eq (by rw [BitVec.toNat_ofNat, BitVec.toNat_twoPow])
  rw [mullo16_eq_mul, htwo, BitVec.mul_twoPow_eq_shiftLeft]

/-- Multiplying by `0xFFFF` negates (R115). -/
theorem mullo16_minus_one (a : Word) : mullo16 a 0xFFFF = -a := by
  have hones : (0xFFFF : Word) = -1 := by decide
  rw [mullo16_eq_mul, hones, mul_neg_one]

/-! ### The statements -/

/-- Settles O2: `TEMP` is wide enough for every product, and its two halves make it up. -/
theorem productFitsThe32BitIntermediate : Obligations.ProductFitsThe32BitIntermediate := by
  intro a b
  exact ⟨le_toInt_mul_toInt_word a b, BitVec.toInt_mul_toInt_le, toInt_product32 a b,
    product32_eq_high_append_mullo16 a b⟩

/-- Settles O3: both readings of the factors give the wrapping product. -/
theorem mullo16IgnoresSignedness : Obligations.Mullo16IgnoresSignedness := by
  intro a b
  constructor
  · rw [mullo16_eq_mul, BitVec.ofNat_mul]
    simp only [BitVec.ofNat_toNat, BitVec.setWidth_eq]
  · rw [mullo16_eq_mul, BitVec.ofInt_mul, BitVec.ofInt_toInt, BitVec.ofInt_toInt]

/-- Settles O4: `mullo16` is the product of the ring `BitVec 16`, whose laws these are. -/
theorem mullo16RingLaws : Obligations.Mullo16RingLaws := by
  intro a b c
  refine ⟨?comm, ?assoc, ?zero, ?one, mullo16_minus_one a, ?least, ?distrib, fun k _ =>
    ⟨mullo16_two_pow_eq_ofNat a k, mullo16_two_pow_eq_shiftLeft a k⟩⟩
  case comm => simp only [mullo16_eq_mul, mul_comm]
  case assoc => simp only [mullo16_eq_mul, mul_assoc]
  case zero => exact (mullo16_eq_mul a 0).trans (mul_zero a)
  case one => exact (mullo16_eq_mul a 1).trans (mul_one a)
  case least => rw [mullo16_minus_one]; decide
  case distrib => simp only [mullo16_eq_mul, mul_add]

/-- Settles O1: the first half is the definition of `TEMP`, the second that the result is its low
half. -/
theorem mullo16KeepsLowHalfOfSignedProduct :
    Obligations.Mullo16KeepsLowHalfOfSignedProduct := by
  intro a b
  exact ⟨rfl, mullo16_eq_setWidth a b⟩

/-- Settles O5, by evaluating `product32` and `mullo16` on the 17 rows. -/
theorem mullo16ResultTable : Obligations.Mullo16ResultTable := by
  unfold Obligations.Mullo16ResultTable
  decide

end Sys2Proof.Machine
end

section
/-!
PROOFS. The decoder in closed form: which bytes the scan of the legacy prefixes takes and what it
notes of them (30_encoding.md R85.1), and `parse`, the decoder without the limit of 15 bytes.
-/

namespace Sys2Proof

open Machine (isLegacyPrefix)

/-! ### The legacy prefixes -/

/-- What the scan notes of a list of legacy prefixes: their order counts for the segment overrides
alone (R85.1). -/
def prefixesOf (ps : List Byte) : Prefixes where
  opSize := ps.contains 0x66#8
  addrSize := ps.contains 0x67#8
  lock := ps.contains 0xF0#8
  repne := ps.contains 0xF2#8
  rep := ps.contains 0xF3#8
  segs := ps.filterMap overrideSeg

/-- Prefixes noted earlier together with later ones. -/
def Prefixes.merge (p q : Prefixes) : Prefixes where
  opSize := p.opSize || q.opSize
  addrSize := p.addrSize || q.addrSize
  lock := p.lock || q.lock
  repne := p.repne || q.repne
  rep := p.rep || q.rep
  segs := p.segs ++ q.segs

theorem Prefixes.merge_assoc (p q r : Prefixes) :
    (p.merge q).merge r = p.merge (q.merge r) := by
  simp [Prefixes.merge, Bool.or_assoc]

@[simp] theorem Prefixes.merge_empty (p : Prefixes) : p.merge Prefixes.empty = p := by
  simp [Prefixes.merge, Prefixes.empty]

@[simp] theorem Prefixes.empty_merge (p : Prefixes) : Prefixes.empty.merge p = p := by
  simp [Prefixes.merge, Prefixes.empty]

@[simp] theorem prefixesOf_nil : prefixesOf [] = Prefixes.empty := rfl

theorem prefixesOf_append (ps qs : List Byte) :
    prefixesOf (ps ++ qs) = (prefixesOf ps).merge (prefixesOf qs) := by
  simp [prefixesOf, Prefixes.merge]

/-- Only an override byte names a segment. -/
theorem overrideSeg_eq_some {b : Byte} {sg : SReg} (h : overrideSeg b = some sg) :
    b = overrideByte sg := by
  revert h
  unfold overrideSeg
  split_ifs
  all_goals (rintro ⟨⟩; try assumption)

/-- The legacy prefixes (R85.1) are the five that are no segment override, and the overrides. -/
theorem isLegacyPrefix_iff (b : Byte) : isLegacyPrefix b = true ↔
    b = 0x66#8 ∨ b = 0x67#8 ∨ b = 0xF0#8 ∨ b = 0xF2#8 ∨ b = 0xF3#8 ∨ ∃ sg, b = overrideByte sg := by
  constructor
  · have hseg : ∀ b : Byte, isLegacyPrefix b = true → b = 0x66#8 ∨ b = 0x67#8 ∨ b = 0xF0#8 ∨
        b = 0xF2#8 ∨ b = 0xF3#8 ∨ (overrideSeg b).isSome = true := by decide
    intro h
    obtain h | h | h | h | h | h := hseg b h
    case inr.inr.inr.inr.inr =>
      obtain ⟨sg, hsg⟩ := Option.isSome_iff_exists.mp h
      exact .inr <| .inr <| .inr <| .inr <| .inr ⟨sg, overrideSeg_eq_some hsg⟩
    all_goals simp [h]
  · rintro (rfl | rfl | rfl | rfl | rfl | ⟨sg, rfl⟩)
    case inr.inr.inr.inr.inr => cases sg <;> rfl
    all_goals rfl

@[simp] theorem isLegacyPrefix_overrideByte (sg : SReg) : isLegacyPrefix (overrideByte sg) = true := by
  cases sg <;> rfl

/-- One byte is taken in exactly when it is among the legacy prefixes, and then noted as `prefixesOf` says. -/
theorem add_eq (p : Prefixes) (b : Byte) :
    p.add b = if isLegacyPrefix b then some (p.merge (prefixesOf [b])) else none := by
  split
  · next h =>
    rcases (isLegacyPrefix_iff b).mp h with rfl | rfl | rfl | rfl | rfl | ⟨sg, rfl⟩
    case inr.inr.inr.inr.inr =>
      rw [add_overrideByte]
      cases sg <;> simp [Prefixes.merge, prefixesOf, overrideByte, overrideSeg]
    all_goals simp [Prefixes.add, Prefixes.merge, prefixesOf, overrideSeg]
  · next h =>
    simp only [isLegacyPrefix_iff, not_or, not_exists] at h
    obtain ⟨h66, h67, hF0, hF2, hF3, hseg⟩ := h
    have hnone : overrideSeg b = none :=
      Option.eq_none_iff_forall_ne_some.mpr fun sg h => hseg sg (overrideSeg_eq_some h)
    simp [Prefixes.add, h66, h67, hF0, hF2, hF3, hnone]

/-- The scan in closed form: it takes the leading legacy prefixes and notes them. -/
theorem scanPrefixes_eq (p : Prefixes) (bs : List Byte) :
    scanPrefixes p bs =
      (p.merge (prefixesOf (bs.takeWhile isLegacyPrefix)), bs.dropWhile isLegacyPrefix) := by
  induction bs generalizing p with
  | nil => simp [scanPrefixes]
  | cons b bs ih =>
    by_cases hb : isLegacyPrefix b = true
    · have hsplit : prefixesOf (b :: bs.takeWhile isLegacyPrefix) =
          (prefixesOf [b]).merge (prefixesOf (bs.takeWhile isLegacyPrefix)) :=
        prefixesOf_append [b] _
      simp [scanPrefixes, add_eq, hb, ih, Prefixes.merge_assoc, hsplit]
    · simp [scanPrefixes, add_eq, hb]

/-! ### REX and the opcode part -/

/-- A byte that is not REX is left (R85.2). -/
theorem takeRex_of_not_rex {m64 : Bool} {b : Byte} {bs : List Byte} (h : field b 4 4 ≠ 4#4) :
    takeRex m64 (b :: bs) = (none, b :: bs) := by
  simp [takeRex, h]

/-- Outside 64-bit mode there is no REX (R85.2). -/
@[simp] theorem takeRex_false (bs : List Byte) : takeRex false bs = (none, bs) := by
  cases bs <;> simp [takeRex]

/-- The bytes that VEX and EVEX may begin with (R85 steps 4 and 5). -/
abbrev vexBytesFirst : List Byte := [0xC4#8, 0xC5#8, 0x62#8]

theorem field_of_mem_vexBytesFirst : ∀ b ∈ vexBytesFirst, field b 4 4 ≠ 4#4 := by decide

theorem isLegacyPrefix_of_mem_vexBytesFirst :
    ∀ b ∈ vexBytesFirst, isLegacyPrefix b = false := by decide

/-- `0F` begins the opcode of a legacy form. -/
@[simp] theorem parseHeader_0F (m64 : Bool) (p : Prefixes) (rex : Option Rex) (bs : List Byte) :
    parseHeader m64 p rex (0x0F#8 :: bs) = parseLegacy p rex bs := rfl

/-- What `C4`, `C5` or `62` is depends on the mode and the next byte, then on the prefixes before
(R85 steps 4 and 5). -/
theorem parseHeader_vexFirst {b : Byte} (hb : b ∈ vexBytesFirst) (m64 : Bool) (p : Prefixes)
    (rex : Option Rex) (bs : List Byte) :
    parseHeader m64 p rex (b :: bs) =
      match prefixSelected m64 bs with
      | .error e => .error e
      | .ok false => .error .otherInstruction
      | .ok true =>
        if forbidsVex p rex then .error .invalidOpcode
        else if b = 0xC5#8 then parseVex2 m64 bs
        else if b = 0xC4#8 then parseVex3 m64 bs
        else parseEvex m64 bs := by
  have h0F : b ≠ 0x0F#8 := by rintro rfl; revert hb; decide
  have hmem : b = 0xC5#8 ∨ b = 0xC4#8 ∨ b = 0x62#8 := by
    simp only [vexBytesFirst, List.mem_cons, List.not_mem_nil, or_false] at hb
    tauto
  exact (if_neg h0F).trans (if_pos hmem)

/-- Outside 64-bit mode bits 7:6 of the byte after `C4`, `C5` or `62` are `11` where it begins VEX or
EVEX. -/
theorem prefixSelected_of_bits {m64 : Bool} {b : Byte} {bs : List Byte}
    (h : m64 = false → field b 6 2 = 3#2) : prefixSelected m64 (b :: bs) = .ok true := by
  cases m64 <;> simp_all

/-! ### The decoder without the limit of 15 bytes -/

/-- What the bytes of an instruction say, its length apart: header, reg field and operand `r/m`. -/
abbrev Parsed := Header × BitVec 3 × RmOperand

/-- The decoded instruction of a length (R85 step 7). -/
def Parsed.instr (x : Parsed) (len : Nat) : Instr := x.1.instr x.2.1 x.2.2 len

/-- ModRM and what follows it, after a header (R85 step 6). -/
def parseOperand (m64 code16 : Bool) (p : Prefixes) (h : Header) (bs : List Byte) :
    Except DecodeError (Parsed × List Byte) :=
  match parseModRM (rmContext m64 code16 p h) bs with
  | .error e => .error e
  | .ok (reg, op, rest) => .ok ((h, reg, op), rest)

/-- REX and the opcode part (R85 steps 2 to 5). -/
def parseOpcode (m64 : Bool) (p : Prefixes) (bs : List Byte) :
    Except DecodeError (Header × List Byte) :=
  parseHeader m64 p (takeRex m64 bs).1 (takeRex m64 bs).2

/-- The steps of the decoder after the scan of the legacy prefixes (R85 steps 2 to 6). -/
def parseBody (m64 code16 : Bool) (p : Prefixes) (bs : List Byte) :
    Except DecodeError (Parsed × List Byte) :=
  match parseOpcode m64 p bs with
  | .error e => .error e
  | .ok (h, bs') => parseOperand m64 code16 p h bs'

/-- The decoder but for the limit of 15 bytes (R85 steps 1 to 6); `decode_eq` ties it to the
model's. -/
def parse (m64 code16 : Bool) (bs : List Byte) : Except DecodeError (Parsed × List Byte) :=
  parseBody m64 code16 (prefixesOf (bs.takeWhile isLegacyPrefix)) (bs.dropWhile isLegacyPrefix)

/-- The decoder is `parse` with the limit of 15 bytes (R86). -/
theorem decode_eq (m64 code16 : Bool) (bs : List Byte) :
    decode m64 code16 bs =
      match parse m64 code16 bs with
      | .error e => .error e
      | .ok (x, rest) =>
        if 15 < bs.length - rest.length then .error .tooLong
        else .ok (x.instr (bs.length - rest.length)) := by
  simp only [decode, parse, parseBody, parseOpcode, parseOperand, scanPrefixes_eq, Prefixes.empty_merge]
  cases parseHeader m64 (prefixesOf (bs.takeWhile isLegacyPrefix))
      (takeRex m64 (bs.dropWhile isLegacyPrefix)).1 (takeRex m64 (bs.dropWhile isLegacyPrefix)).2 with
  | error e => rfl
  | ok hr =>
    obtain ⟨h, bs'⟩ := hr
    dsimp only
    cases parseModRM (rmContext m64 code16 (prefixesOf (bs.takeWhile isLegacyPrefix)) h) bs' <;> rfl

theorem decode_of_parse_error {m64 code16 : Bool} {bs : List Byte} {e : DecodeError}
    (h : parse m64 code16 bs = .error e) : decode m64 code16 bs = .error e := by
  rw [decode_eq, h]

/-- The decoder on bytes that `parse` reads up to a rest. -/
theorem decode_of_parse {m64 code16 : Bool} {c rest : List Byte} {x : Parsed}
    (h : parse m64 code16 (c ++ rest) = .ok (x, rest)) :
    decode m64 code16 (c ++ rest) =
      if c.length ≤ 15 then .ok (x.instr c.length) else .error .tooLong := by
  rw [decode_eq, h]
  simp only [List.length_append, Nat.add_sub_cancel]
  by_cases hle : c.length ≤ 15
  · rw [if_pos hle, if_neg (Nat.not_lt.mpr hle)]
  · rw [if_neg hle, if_pos (Nat.lt_of_not_le hle)]

/-- The first byte is not among the legacy prefixes: there the scan ends. -/
def NoPrefixFirst (bs : List Byte) : Prop := ∀ b ∈ bs.head?, isLegacyPrefix b = false

@[simp] theorem noPrefixFirst_nil : NoPrefixFirst [] := nofun

@[simp] theorem noPrefixFirst_cons (b : Byte) (bs : List Byte) :
    NoPrefixFirst (b :: bs) ↔ isLegacyPrefix b = false := by
  simp [NoPrefixFirst]

theorem noPrefixFirst_dropWhile (bs : List Byte) : NoPrefixFirst (bs.dropWhile isLegacyPrefix) := by
  intro b hb
  have := List.head?_dropWhile_not isLegacyPrefix bs
  simp_all

theorem NoPrefixFirst.take {bs : List Byte} (h : NoPrefixFirst bs) (k : Nat) :
    NoPrefixFirst (bs.take k) := by
  cases bs with
  | nil => simp
  | cons b bs => cases k <;> simp_all

/-- The scan takes legacy prefixes before bytes that begin with none. -/
theorem parse_append {m64 code16 : Bool} {ps bs : List Byte} (hps : ∀ p ∈ ps, isLegacyPrefix p = true)
    (hbs : NoPrefixFirst bs) :
    parse m64 code16 (ps ++ bs) = parseBody m64 code16 (prefixesOf ps) bs := by
  have hstop : bs.takeWhile isLegacyPrefix = [] ∧ bs.dropWhile isLegacyPrefix = bs := by
    cases bs <;> simp_all
  rw [parse, List.takeWhile_append_of_pos hps, List.dropWhile_append_of_pos hps, hstop.1, hstop.2,
    List.append_nil]

/-- Every byte string is legacy prefixes before bytes that begin with none. -/
theorem exists_prefixes_append (bs : List Byte) :
    ∃ ps body, bs = ps ++ body ∧ (∀ p ∈ ps, isLegacyPrefix p = true) ∧ NoPrefixFirst body :=
  ⟨_, _, (List.takeWhile_append_dropWhile).symm, fun _ h => List.mem_takeWhile_imp h,
    noPrefixFirst_dropWhile bs⟩

end Sys2Proof
end

section
/-!
PROOFS. Decoding the encoding (O38). An instruction is spelled as prefixes, opcode part and operand
part; each part of the decoder reads back its part of the spelling.
-/

namespace Sys2Proof

open Machine (isLegacyPrefix)

/-! ### The opcode part -/

/-- The spelling of a header up to the opcode `D5`, the legacy prefixes apart (R75, R76, R80,
R81). -/
def Header.bytes (h : Header) : List Byte :=
  match h.form with
  | .mmx64 | .sse128 => rexBytes h.r h.x h.b ++ [0x0F#8, 0xD5#8]
  | .vex128 => vexBytes h.r h.x h.b false h.s1
  | .vex256 => vexBytes h.r h.x h.b true h.s1
  | .evex128 => evexBytes (vregOf h.r' h.r 0#3) h.s1 h.x h.b 0#2 h.mask h.z
  | .evex256 => evexBytes (vregOf h.r' h.r 0#3) h.s1 h.x h.b 1#2 h.mask h.z
  | .evex512 => evexBytes (vregOf h.r' h.r 0#3) h.s1 h.x h.b 2#2 h.mask h.z

/-- A header that some spelling has in the mode: outside 64-bit mode it names no register above 7,
and only EVEX has the bits `R'`, `V'`, `aaa` and `z` (R79, R80, R81). -/
structure Header.Ok (m64 : Bool) (h : Header) : Prop where
  outside64 : m64 = false →
    h.r' = false ∧ h.r = false ∧ h.x = false ∧ h.b = false ∧ h.s1.val < 8
  notEvex : h.form.encoding ≠ .evex → h.r' = false ∧ h.s1.val < 16 ∧ h.mask = 0 ∧ h.z = false
  legacy : h.form.encoding = .legacy → h.s1 = 0
  masking : maskingOk h.mask h.z = true

/-- The legacy prefixes that may stand before a header: `66` exactly for the legacy 128-bit form, no
LOCK and no repeat prefixes (R85.3, R85.4). -/
structure Prefixes.Allow (p : Prefixes) (h : Header) : Prop where
  opSize : p.opSize = (h.form == .sse128)
  lock : p.lock = false
  repne : p.repne = false
  rep : p.rep = false

theorem Prefixes.Allow.forbidsVex {p : Prefixes} {h : Header} (hp : p.Allow h)
    (hf : h.form ≠ .sse128) : forbidsVex p none = false := by
  simp [Sys2Proof.forbidsVex, hp.opSize, hp.lock, hp.repne, hp.rep, hf]

/-- A REX byte with W = 0 (R76). -/
def rexByte (r x b : Bool) : Byte :=
  4#4 ++ 0#1 ++ BitVec.ofBool r ++ BitVec.ofBool x ++ BitVec.ofBool b

theorem rexBytes_eq (r x b : Bool) : rexBytes r x b = if r || x || b then [rexByte r x b] else [] :=
  rfl

/-- A REX byte reads back. -/
theorem takeRex_rexByte (r x b : Bool) (bs : List Byte) :
    takeRex true (rexByte r x b :: bs) = (some ⟨r, x, b⟩, bs) := by
  have : ∀ r x b : Bool, field (rexByte r x b) 4 4 = 4#4 ∧ bit (rexByte r x b) 2 = r ∧
      bit (rexByte r x b) 1 = x ∧ bit (rexByte r x b) 0 = b := by decide
  obtain ⟨hrex, hr, hx, hb⟩ := this r x b
  simp [takeRex, hrex, hr, hx, hb]

/-- `0F D5` after a REX byte where one is needed reads back. -/
theorem parseOpcode_legacy {m64 r x b : Bool} {p : Prefixes} (hlock : p.lock = false)
    (hrepne : p.repne = false) (hrep : p.rep = false)
    (h : m64 = false → r = false ∧ x = false ∧ b = false) (bs : List Byte) :
    parseOpcode m64 p (rexBytes r x b ++ 0x0F#8 :: 0xD5#8 :: bs) =
      .ok (⟨if p.opSize then .sse128 else .mmx64, false, r, x, b, 0, 0, false⟩, bs) := by
  rw [rexBytes_eq, parseOpcode]
  split
  · next hany =>
    have hm : m64 = true := by
      cases m64
      · simp [h rfl] at hany
      · rfl
    simp [hm, takeRex_rexByte, parseLegacy, hlock, hrepne, hrep]
  · next hnone =>
    simp only [Bool.or_eq_true, not_or, Bool.not_eq_true] at hnone
    obtain ⟨⟨rfl, rfl⟩, rfl⟩ := hnone
    rw [List.nil_append, takeRex_of_not_rex (by decide)]
    simp [parseLegacy, hlock, hrepne, hrep]

/-- The last VEX byte (R80), W or `R` in bit 7. -/
def vexTailByte (top l : Bool) (s1 : VReg) : Byte :=
  BitVec.ofBool top ++ (BitVec.ofBool (!hi3 s1) ++ ~~~low3 s1 ++ BitVec.ofBool l ++ 1#2 : BitVec 7)

/-- The fields of the last VEX byte. -/
theorem fields_vexTailByte (top l : Bool) (s1 : VReg) :
    field (vexTailByte top l s1) 0 2 = 1#2 ∧ bit (vexTailByte top l s1) 2 = l ∧
      bit (vexTailByte top l s1) 6 = !hi3 s1 ∧ field (vexTailByte top l s1) 3 3 = ~~~low3 s1 ∧
      bit (vexTailByte top l s1) 7 = top := by
  revert top l s1; decide

/-- The last VEX byte and the opcode read back. -/
theorem parseVexTail_vexTailByte {m64 r x b top l : Bool} {s1 : VReg} (hs1 : s1.val < 16)
    (h : m64 = false → b = false ∧ s1.val < 8) (bs : List Byte) :
    parseVexTail m64 r x b (vexTailByte top l s1 :: 0xD5#8 :: bs) =
      .ok (⟨if l then .vex256 else .vex128, false, r, x, b, s1, 0, false⟩, bs) := by
  obtain ⟨hpp, hl, hv3, hv, -⟩ := fields_vexTailByte top l s1
  have hext : (!m64 && (b || hi3 s1)) = false := by
    cases m64
    · obtain ⟨rfl, hlt⟩ := h rfl
      have : ∀ s : VReg, s.val < 8 → hi3 s = false := by decide
      simp [this s1 hlt]
    · rfl
  simp [parseVexTail, hpp, hl, hv3, hv, hext, vregOf_hi3_low3 s1 hs1]

/-- The second byte of three-byte VEX (R80). -/
def vex3Byte (r x b : Bool) : Byte :=
  BitVec.ofBool (!r) ++ BitVec.ofBool (!x) ++ BitVec.ofBool (!b) ++ 1#5

theorem fields_vex3Byte : ∀ r x b : Bool,
    field (vex3Byte r x b) 0 5 = 1#5 ∧ bit (vex3Byte r x b) 7 = !r ∧ bit (vex3Byte r x b) 6 = !x ∧
      bit (vex3Byte r x b) 5 = !b := by
  decide

theorem vexBytes_eq (r x b l : Bool) (s1 : VReg) :
    vexBytes r x b l s1 =
      if x || b then [0xC4#8, vex3Byte r x b, vexTailByte false l s1, 0xD5#8]
      else [0xC5#8, vexTailByte (!r) l s1, 0xD5#8] := rfl

/-- The VEX bytes and the opcode read back. -/
theorem parseOpcode_vex {m64 r x b l : Bool} {s1 : VReg} {p : Prefixes}
    (hp : forbidsVex p none = false) (hs1 : s1.val < 16)
    (h : m64 = false → r = false ∧ x = false ∧ b = false ∧ s1.val < 8) (bs : List Byte) :
    parseOpcode m64 p (vexBytes r x b l s1 ++ bs) =
      .ok (⟨if l then .vex256 else .vex128, false, r, x, b, s1, 0, false⟩, bs) := by
  have htail : m64 = false → b = false ∧ s1.val < 8 := fun hm => (h hm).2.2
  rw [vexBytes_eq, parseOpcode]
  split
  · have hsel : m64 = false → field (vex3Byte r x b) 6 2 = 3#2 := fun hm => by
      obtain ⟨rfl, rfl, rfl, -⟩ := h hm; decide
    obtain ⟨hmap, hr, hx, hb⟩ := fields_vex3Byte r x b
    simp only [List.cons_append, List.nil_append]
    rw [takeRex_of_not_rex (by decide), parseHeader_vexFirst (by decide),
      prefixSelected_of_bits hsel]
    simp [hp, parseVex3, hmap, hr, hx, hb, parseVexTail_vexTailByte hs1 htail]
  · next hxb =>
    obtain ⟨rfl, rfl⟩ : x = false ∧ b = false := by simpa using hxb
    have hsel : m64 = false → field (vexTailByte (!r) l s1) 6 2 = 3#2 := fun hm => by
      obtain ⟨rfl, -, -, hlt⟩ := h hm
      have : ∀ (l : Bool) (s : VReg), s.val < 8 → field (vexTailByte (!false) l s) 6 2 = 3#2 := by
        decide
      exact this l s1 hlt
    obtain ⟨-, -, -, -, hr⟩ := fields_vexTailByte (!r) l s1
    simp only [List.cons_append, List.nil_append]
    rw [takeRex_of_not_rex (by decide), parseHeader_vexFirst (by decide),
      prefixSelected_of_bits hsel]
    simp [hp, parseVex2, hr, parseVexTail_vexTailByte hs1 htail]

/-- The three payload bytes of EVEX (R81). -/
def evexP0 (r' r x b : Bool) : Byte :=
  BitVec.ofBool (!r) ++ BitVec.ofBool (!x) ++ BitVec.ofBool (!b) ++ BitVec.ofBool (!r') ++ 1#4

def evexP1 (s1 : VReg) : Byte := 0#1 ++ BitVec.ofBool (!hi3 s1) ++ ~~~low3 s1 ++ 5#3

def evexP2 (s1 : VReg) (ll : BitVec 2) (k : KReg) (z : Bool) : Byte :=
  BitVec.ofBool z ++ ll ++ 0#1 ++ BitVec.ofBool (!hi4 s1) ++ low3 k

theorem fields_evexP0 : ∀ r' r x b : Bool,
    bit (evexP0 r' r x b) 3 = false ∧ field (evexP0 r' r x b) 0 3 = 1#3 ∧
      bit (evexP0 r' r x b) 4 = !r' ∧ bit (evexP0 r' r x b) 5 = !b ∧
      bit (evexP0 r' r x b) 6 = !x ∧ bit (evexP0 r' r x b) 7 = !r := by
  decide

theorem fields_evexP1 : ∀ s1 : VReg,
    bit (evexP1 s1) 2 = true ∧ field (evexP1 s1) 0 2 = 1#2 ∧ field (evexP1 s1) 3 3 = ~~~low3 s1 ∧
      bit (evexP1 s1) 6 = !hi3 s1 := by
  decide

theorem fields_evexP2 (s1 : VReg) (ll : BitVec 2) (k : KReg) (z : Bool) :
    field (evexP2 s1 ll k z) 0 3 = low3 k ∧ bit (evexP2 s1 ll k z) 3 = !hi4 s1 ∧
      bit (evexP2 s1 ll k z) 4 = false ∧ field (evexP2 s1 ll k z) 5 2 = ll ∧
      bit (evexP2 s1 ll k z) 7 = z := by
  have : ∀ (v : Bool) (ll : BitVec 2) (k : BitVec 3) (z : Bool),
      let byte : Byte := BitVec.ofBool z ++ ll ++ 0#1 ++ BitVec.ofBool v ++ k
      field byte 0 3 = k ∧ bit byte 3 = v ∧ bit byte 4 = false ∧ field byte 5 2 = ll ∧
        bit byte 7 = z := by decide
  exact this _ _ _ _

theorem hi_vregOf : ∀ a b : Bool, hi4 (vregOf a b 0#3) = a ∧ hi3 (vregOf a b 0#3) = b := by decide

theorem evexBytes_eq (r' r x b : Bool) (s1 : VReg) (ll : BitVec 2) (k : KReg) (z : Bool) :
    evexBytes (vregOf r' r 0#3) s1 x b ll k z =
      [0x62#8, evexP0 r' r x b, evexP1 s1, evexP2 s1 ll k z, 0xD5#8] := by
  obtain ⟨h4, h3⟩ := hi_vregOf r' r
  simp only [evexBytes, evexP0, evexP1, evexP2, h4, h3]

/-- The EVEX bytes and the opcode read back. -/
theorem parseOpcode_evex {m64 r' r x b z : Bool} {s1 : VReg} {ll : BitVec 2} {k : KReg} {f : Form}
    {p : Prefixes} (hp : forbidsVex p none = false) (hll : evexForm ll = some f)
    (hk : maskingOk k z = true)
    (h : m64 = false → r' = false ∧ r = false ∧ x = false ∧ b = false ∧ s1.val < 8)
    (bs : List Byte) :
    parseOpcode m64 p (evexBytes (vregOf r' r 0#3) s1 x b ll k z ++ bs) =
      .ok (⟨f, r', r, x, b, s1, k, z⟩, bs) := by
  obtain ⟨hfix0, hmap, hr', hb, hx, hr⟩ := fields_evexP0 r' r x b
  obtain ⟨hfix1, hpp, hv, hv3⟩ := fields_evexP1 s1
  obtain ⟨hk3, hv4, hbc, hll2, hz⟩ := fields_evexP2 s1 ll k z
  have hsel : m64 = false → field (evexP0 r' r x b) 6 2 = 3#2 := fun hm => by
    obtain ⟨rfl, rfl, rfl, rfl, -⟩ := h hm; decide
  have hext : (!m64 && !(!b && !r' && !hi4 s1 && !hi3 s1)) = false := by
    cases m64
    · obtain ⟨rfl, -, -, rfl, hlt⟩ := h rfl
      have : ∀ s : VReg, s.val < 8 → hi4 s = false ∧ hi3 s = false := by decide
      simp [this s1 hlt]
    · rfl
  have hmask : (z && low3 k == 0#3) = false := by
    have : ∀ (k : KReg) (z : Bool), maskingOk k z = true → (z && low3 k == 0#3) = false := by decide
    exact this k z hk
  rw [evexBytes_eq, parseOpcode]
  simp only [List.cons_append, List.nil_append]
  rw [takeRex_of_not_rex (by decide), parseHeader_vexFirst (by decide), prefixSelected_of_bits hsel]
  simp only [hp, parseEvex, hfix0, hfix1, hmap, hpp, hr', hb, hv4, hv3, hext, hbc, hmask, hz, hk3,
    hll2, hll, hr, hx, hv]
  simp

/-- The opcode part reads back from its spelling. -/
theorem parseOpcode_bytes {m64 : Bool} {p : Prefixes} {h : Header} (hok : h.Ok m64)
    (hp : p.Allow h) (bs : List Byte) : parseOpcode m64 p (h.bytes ++ bs) = .ok (h, bs) := by
  obtain ⟨f, r', r, x, b, s1, k, z⟩ := h
  obtain ⟨hout, hne, hleg, hmask⟩ := hok
  have hforbids := hp.forbidsVex
  obtain ⟨hop, hlock, hrepne, hrep⟩ := hp
  cases f with
  | mmx64 | sse128 =>
    obtain ⟨rfl, -, rfl, rfl⟩ := hne nofun
    obtain rfl := hleg rfl
    have hlow : m64 = false → r = false ∧ x = false ∧ b = false := fun hm => by
      obtain ⟨-, hr, hx, hb, -⟩ := hout hm; exact ⟨hr, hx, hb⟩
    simpa [Header.bytes, hop] using parseOpcode_legacy hlock hrepne hrep hlow bs
  | vex128 | vex256 =>
    obtain ⟨rfl, hs1, rfl, rfl⟩ := hne nofun
    exact parseOpcode_vex (hforbids nofun) hs1 (fun hm => (hout hm).2) bs
  | evex128 | evex256 | evex512 => exact parseOpcode_evex (hforbids nofun) rfl hmask hout bs

/-! ### The operand part -/

/-- The spelling of ModRM and what follows it (R77, R78), `n` the factor of an 8-bit
displacement. -/
def RmOperand.bytes (m64 : Bool) (n : Nat) (reg : BitVec 3) : RmOperand → List Byte
  | .reg rm => [modrmByte 3#2 reg rm]
  | .mem m => memBytes m64 n reg m

/-! ### Instructions and what their spelling says -/

/-- The header of an instruction's spelling (R79, R80, R81). -/
def Instr.header : Instr → Header
  | .pmullwMmx64 _ (.reg _) _ => ⟨.mmx64, false, false, false, false, 0, 0, false⟩
  | .pmullwMmx64 _ (.mem m) _ => ⟨.mmx64, false, false, m.xBit, m.bBit, 0, 0, false⟩
  | .pmullwSse128 d s2 _ => ⟨.sse128, false, hi3 d, s2.xBit, s2.bBit, 0, 0, false⟩
  | .vpmullwVex128 d s1 s2 _ => ⟨.vex128, false, hi3 d, s2.xBit, s2.bBit, s1, 0, false⟩
  | .vpmullwVex256 d s1 s2 _ => ⟨.vex256, false, hi3 d, s2.xBit, s2.bBit, s1, 0, false⟩
  | .vpmullwEvex128 d s1 s2 k z _ => ⟨.evex128, hi4 d, hi3 d, s2.xBit, s2.bBit, s1, k, z⟩
  | .vpmullwEvex256 d s1 s2 k z _ => ⟨.evex256, hi4 d, hi3 d, s2.xBit, s2.bBit, s1, k, z⟩
  | .vpmullwEvex512 d s1 s2 k z _ => ⟨.evex512, hi4 d, hi3 d, s2.xBit, s2.bBit, s1, k, z⟩

/-- The reg field of ModRM (R77). -/
def Instr.regField : Instr → BitVec 3
  | .pmullwMmx64 d _ _ => low3 d
  | .pmullwSse128 d _ _ | .vpmullwVex128 d _ _ _ | .vpmullwVex256 d _ _ _
  | .vpmullwEvex128 d _ _ _ _ _ | .vpmullwEvex256 d _ _ _ _ _
  | .vpmullwEvex512 d _ _ _ _ _ => low3 d

/-- Operand `r/m` of a vector form as ModRM gives it. -/
def Src.rm : Src → RmOperand
  | .reg s => .reg (low3 s)
  | .mem m => .mem m

/-- Operand `r/m` as ModRM gives it. -/
def Instr.rm : Instr → RmOperand
  | .pmullwMmx64 _ (.reg s) _ => .reg (low3 s)
  | .pmullwMmx64 _ (.mem m) _ => .mem m
  | .pmullwSse128 _ s2 _ | .vpmullwVex128 _ _ s2 _ | .vpmullwVex256 _ _ s2 _
  | .vpmullwEvex128 _ _ s2 _ _ _ | .vpmullwEvex256 _ _ s2 _ _ _
  | .vpmullwEvex512 _ _ s2 _ _ _ => s2.rm

/-- What the spelling of an instruction says. -/
def Instr.parsed (i : Instr) : Parsed := (i.header, i.regField, i.rm)

/-- The legacy prefixes that a spelling must have, the segment overrides apart (R71, R78). -/
def Instr.prefixBytes (m64 : Bool) (i : Instr) : List Byte :=
  addrSizeBytes m64 i.memOperand ++ if i.form = .sse128 then [0x66#8] else []

/-- The numbers of the registers that a form reaches: outside 64-bit mode without extension bits,
in the legacy and VEX encodings without bit 4 (10_state.md R21, 30_encoding.md R79). -/
theorem VReg.bits_of_ok (m64 : Bool) (e : Encoding) (n : VReg) (h : VReg.ok m64 e n = true) :
    (m64 = false → hi4 n = false ∧ hi3 n = false ∧ n.val < 8) ∧
      (e ≠ .evex → hi4 n = false ∧ n.val < 16) := by
  revert n
  cases m64 <;> cases e <;> decide

theorem MemOperand.bits_of_ok {m : MemOperand} (h : m.ok false = true) :
    m.xBit = false ∧ m.bBit = false := by
  obtain ⟨a32, sg, base, index, d⟩ := m
  simp only [MemOperand.ok, Bool.and_eq_true] at h
  obtain ⟨⟨-, hbase⟩, hindex⟩ := h
  constructor
  · cases index with
    | none => rfl
    | some ix =>
      simp only [Bool.and_eq_true] at hindex
      exact hi3_of_ok hindex.1.2
  · cases base with
    | reg r => exact hi3_of_ok hbase
    | none | rip => rfl

theorem Src.bits_of_ok {e : Encoding} {src : Src} (h : src.ok false e = true) :
    src.xBit = false ∧ src.bBit = false := by
  cases src with
  | reg n =>
    obtain ⟨h4, h3, -⟩ := (VReg.bits_of_ok _ _ _ h).1 rfl
    exact ⟨h4, h3⟩
  | mem m => exact m.bits_of_ok h

/-- The header of a well-formed instruction's spelling is one that the mode has. -/
theorem header_ok {m64 : Bool} {i : Instr} (h : i.operandsOk m64 = true) : i.header.Ok m64 := by
  cases i with
  | pmullwMmx64 d s2 len =>
    cases s2 with
    | reg n => exact ⟨fun _ => ⟨rfl, rfl, rfl, rfl, Nat.succ_pos _⟩, fun _ => ⟨rfl, Nat.succ_pos _, rfl, rfl⟩,
        fun _ => rfl, rfl⟩
    | mem m =>
      refine ⟨?_, fun _ => ⟨rfl, Nat.succ_pos _, rfl, rfl⟩, fun _ => rfl, rfl⟩
      rintro rfl
      obtain ⟨hx, hb⟩ := m.bits_of_ok h
      exact ⟨rfl, rfl, hx, hb, Nat.succ_pos _⟩
  | pmullwSse128 d s2 len =>
    simp only [Instr.operandsOk, Bool.and_eq_true] at h
    obtain ⟨hd, hs2⟩ := h
    refine ⟨?_, fun _ => ⟨rfl, Nat.succ_pos _, rfl, rfl⟩, fun _ => rfl, rfl⟩
    rintro rfl
    obtain ⟨hx, hb⟩ := s2.bits_of_ok hs2
    exact ⟨rfl, ((VReg.bits_of_ok _ _ _ hd).1 rfl).2.1, hx, hb, Nat.succ_pos _⟩
  | vpmullwVex128 d s1 s2 len | vpmullwVex256 d s1 s2 len =>
    simp only [Instr.operandsOk, Bool.and_eq_true] at h
    obtain ⟨⟨hd, hs1⟩, hs2⟩ := h
    refine ⟨?_, fun _ => ⟨rfl, ((VReg.bits_of_ok _ _ _ hs1).2 nofun).2, rfl, rfl⟩, nofun, rfl⟩
    rintro rfl
    obtain ⟨hx, hb⟩ := s2.bits_of_ok hs2
    exact ⟨rfl, ((VReg.bits_of_ok _ _ _ hd).1 rfl).2.1, hx, hb,
      ((VReg.bits_of_ok _ _ _ hs1).1 rfl).2.2⟩
  | vpmullwEvex128 d s1 s2 k z len | vpmullwEvex256 d s1 s2 k z len
  | vpmullwEvex512 d s1 s2 k z len =>
    simp only [Instr.operandsOk, Bool.and_eq_true] at h
    obtain ⟨⟨⟨hd, hs1⟩, hs2⟩, hk⟩ := h
    refine ⟨?_, fun he => absurd rfl he, nofun, hk⟩
    rintro rfl
    obtain ⟨hd4, hd3, -⟩ := (VReg.bits_of_ok _ _ _ hd).1 rfl
    obtain ⟨hx, hb⟩ := s2.bits_of_ok hs2
    exact ⟨hd4, hd3, hx, hb, ((VReg.bits_of_ok _ _ _ hs1).1 rfl).2.2⟩

/-- The spelling of a well-formed instruction, in its parts. -/
theorem encodeBody_eq {m64 : Bool} {i : Instr} (h : i.operandsOk m64 = true) :
    encodeBody m64 i =
      i.prefixBytes m64 ++ (i.header.bytes ++ i.rm.bytes m64 i.form.dispScale i.regField) := by
  have hevex (d : VReg) : evexBytes (vregOf (hi4 d) (hi3 d) 0#3) = evexBytes d := by
    obtain ⟨h4, h3⟩ := hi_vregOf (hi4 d) (hi3 d)
    funext s1 x b ll k z
    simp only [evexBytes, h4, h3]
  cases i with
  | pmullwMmx64 d s2 len =>
    cases s2 <;> simp [encodeBody, Instr.prefixBytes, Instr.header, Header.bytes, rexBytes_eq,
      Instr.form, Instr.rm, RmOperand.bytes, MmxSrc.bytes, Form.dispScale, Form.encoding,
      Instr.regField]
  | pmullwSse128 d s2 len =>
    cases s2 with
    | reg s =>
      have hs : hi4 s = false := by
        simp only [Instr.operandsOk, Src.ok, Bool.and_eq_true] at h
        exact ((VReg.bits_of_ok _ _ _ h.2).2 nofun).1
      simp [encodeBody, Instr.prefixBytes, Instr.header, Header.bytes, rexBytes_eq, Instr.form,
        Instr.rm, RmOperand.bytes, Src.bytes, Src.rm, Instr.regField, Src.xBit, Src.bBit, hs,
        Instr.memOperand, addrSizeBytes]
    | mem m =>
      simp [encodeBody, Instr.prefixBytes, Instr.header, Header.bytes, rexBytes_eq, Instr.form,
        Instr.rm, RmOperand.bytes, Src.bytes, Src.rm, Form.dispScale, Form.encoding,
        Instr.regField, Src.xBit, Src.bBit]
  | vpmullwVex128 d s1 s2 len | vpmullwVex256 d s1 s2 len =>
    cases s2 <;> simp [encodeBody, Instr.prefixBytes, Instr.header, Header.bytes, Instr.form,
      Instr.rm, RmOperand.bytes, Src.bytes, Src.rm, Form.dispScale, Form.encoding, Instr.regField]
  | vpmullwEvex128 d s1 s2 k z len | vpmullwEvex256 d s1 s2 k z len
  | vpmullwEvex512 d s1 s2 k z len =>
    cases s2 <;> simp [encodeBody, Instr.prefixBytes, Instr.header, Header.bytes, Instr.form,
      Instr.rm, RmOperand.bytes, Src.bytes, Src.rm, Form.dispScale, Form.encoding, Instr.regField,
      hevex, Form.vl]

/-- Operand `r/m` of a vector form is what its header and ModRM say. -/
theorem Header.src_rm {m64 : Bool} {h : Header} {src : Src} (hok : src.ok m64 h.form.encoding = true)
    (hx : h.x = src.xBit) (hb : h.b = src.bBit) : h.src src.rm = src := by
  cases src with
  | mem m => rfl
  | reg n =>
    have h4 : (h.x && h.form.encoding == .evex) = hi4 n := by
      cases he : h.form.encoding with
      | evex => simp [hx, Src.xBit]
      | legacy | vex =>
        rw [he] at hok
        simp [((VReg.bits_of_ok _ _ _ hok).2 nofun).1]
    rw [Src.rm, Header.src, h4, hb]
    exact congrArg _ (vregOf_hi_low3 n)

/-- What the spelling of a well-formed instruction says is that instruction. -/
theorem instr_parsed {m64 : Bool} {i : Instr} (h : i.operandsOk m64 = true) :
    i.parsed.instr i.len = i := by
  have low {e : Encoding} {d : VReg} (hd : VReg.ok m64 e d = true) (he : e ≠ .evex) :
      vregOf false (hi3 d) (low3 d) = d := vregOf_hi3_low3 d ((VReg.bits_of_ok _ _ _ hd).2 he).2
  cases i with
  | pmullwMmx64 d s2 len =>
    cases s2 <;> simp [Parsed.instr, Instr.parsed, Header.instr, Instr.header, Instr.regField,
      Instr.rm, mmxSrcOf, Instr.len]
  | pmullwSse128 d s2 len =>
    simp only [Instr.operandsOk, Bool.and_eq_true] at h
    obtain ⟨hd, hs2⟩ := h
    simp [Parsed.instr, Instr.parsed, Header.instr, Instr.header, Instr.regField, Instr.rm,
      Instr.len, Header.src_rm (m64 := m64), Form.encoding, hs2, low hd]
  | vpmullwVex128 d s1 s2 len | vpmullwVex256 d s1 s2 len =>
    simp only [Instr.operandsOk, Bool.and_eq_true] at h
    obtain ⟨⟨hd, -⟩, hs2⟩ := h
    simp [Parsed.instr, Instr.parsed, Header.instr, Instr.header, Instr.regField, Instr.rm,
      Instr.len, Header.src_rm (m64 := m64), Form.encoding, hs2, low hd]
  | vpmullwEvex128 d s1 s2 k z len | vpmullwEvex256 d s1 s2 k z len
  | vpmullwEvex512 d s1 s2 k z len =>
    simp only [Instr.operandsOk, Bool.and_eq_true] at h
    obtain ⟨⟨-, hs2⟩, -⟩ := h
    simp [Parsed.instr, Instr.parsed, Header.instr, Instr.header, Instr.regField, Instr.rm,
      Instr.len, Header.src_rm (m64 := m64), Form.encoding, hs2]

/-! ### The legacy prefixes -/

/-- The segment whose override pads an instruction: the operand's, DS for a register operand. -/
def Instr.padSeg (i : Instr) : SReg := (i.memOperand.map (·.seg)).getD .ds

theorem padByte_eq (i : Instr) : padByte i = overrideByte i.padSeg := by
  unfold padByte Instr.padSeg
  cases i.memOperand <;> rfl

theorem prefixesOf_replicate_override (n : Nat) (sg : SReg) :
    prefixesOf (List.replicate n (overrideByte sg)) =
      { Prefixes.empty with segs := List.replicate n sg } := by
  have hsegs : (List.replicate n (overrideByte sg)).filterMap overrideSeg = List.replicate n sg := by
    induction n with
    | zero => rfl
    | succ n ih => simp [List.replicate_succ, ih]
  have hne : ∀ b ∈ [0x66#8, 0x67#8, 0xF0#8, 0xF2#8, 0xF3#8], b ≠ overrideByte sg := by
    cases sg <;> decide
  simp only [List.forall_mem_cons] at hne
  simp [prefixesOf, Prefixes.empty, hsegs, hne]

/-- What the legacy prefixes of a spelling say: `66` stands for the legacy 128-bit form, `67` for
32-bit addressing in 64-bit mode, and every override is the operand's segment. -/
theorem prefixesOf_spelling (m64 : Bool) (i : Instr) (n : Nat) :
    prefixesOf (List.replicate n (padByte i) ++ i.prefixBytes m64) =
      { Prefixes.empty with
        opSize := i.form == .sse128
        addrSize := (i.memOperand.map fun m => m64 && m.addr32).getD false
        segs := List.replicate n i.padSeg } := by
  have hbytes : prefixesOf (i.prefixBytes m64) =
      { Prefixes.empty with
        opSize := i.form == .sse128
        addrSize := (i.memOperand.map fun m => m64 && m.addr32).getD false } := by
    unfold Instr.prefixBytes addrSizeBytes
    cases i.memOperand with
    | some m =>
      by_cases hs : i.form = .sse128 <;> cases hm : (m64 && m.addr32) <;>
        simp [hs, hm, prefixesOf, Prefixes.empty, overrideSeg]
    | none => by_cases hs : i.form = .sse128 <;> simp [hs, prefixesOf, Prefixes.empty, overrideSeg]
  rw [prefixesOf_append, padByte_eq, prefixesOf_replicate_override, hbytes]
  simp [Prefixes.merge, Prefixes.empty]

/-- The spelling begins with legacy prefixes, which end where the opcode part begins. -/
theorem isLegacyPrefix_of_mem_spelling {m64 : Bool} {i : Instr} {n : Nat} :
    ∀ p ∈ List.replicate n (padByte i) ++ i.prefixBytes m64, isLegacyPrefix p = true := by
  intro p hp
  rcases List.mem_append.mp hp with hp | hp
  · rw [List.eq_of_mem_replicate hp, padByte_eq]
    exact isLegacyPrefix_overrideByte _
  · have : p = 0x67#8 ∨ p = 0x66#8 := by
      unfold Instr.prefixBytes addrSizeBytes at hp
      split at hp <;> split_ifs at hp <;> simp_all
    rcases this with rfl | rfl <;> rfl

theorem noPrefixFirst_bytes (h : Header) (bs : List Byte) : NoPrefixFirst (h.bytes ++ bs) := by
  have hrex : ∀ r x b : Bool, isLegacyPrefix (rexByte r x b) = false := by decide
  obtain ⟨f, r', r, x, b, s1, k, z⟩ := h
  cases f with
  | mmx64 | sse128 =>
    simp only [Header.bytes, rexBytes_eq]
    split
    · exact (noPrefixFirst_cons _ _).mpr (hrex _ _ _)
    · exact (noPrefixFirst_cons _ _).mpr rfl
  | vex128 | vex256 =>
    simp only [Header.bytes, vexBytes_eq]
    split <;> exact (noPrefixFirst_cons _ _).mpr rfl
  | evex128 | evex256 | evex512 => exact (noPrefixFirst_cons _ _).mpr rfl

/-! ### The whole instruction -/

theorem Instr.rm_eq_mem (i : Instr) (m : MemOperand) : i.rm = .mem m ↔ i.memOperand = some m := by
  cases i with
  | pmullwMmx64 d s2 len => cases s2 <;> simp [Instr.rm, Instr.memOperand]
  | pmullwSse128 d s2 len | vpmullwVex128 d s1 s2 len | vpmullwVex256 d s1 s2 len
  | vpmullwEvex128 d s1 s2 k z len | vpmullwEvex256 d s1 s2 k z len
  | vpmullwEvex512 d s1 s2 k z len => cases s2 <;> simp [Instr.rm, Instr.memOperand, Src.rm]

@[simp] theorem Instr.form_header (i : Instr) : i.header.form = i.form := by
  cases i with
  | pmullwMmx64 d s2 len => cases s2 <;> rfl
  | _ => rfl

/-- The extension bits of a memory operand stand in the header. -/
theorem Instr.bits_header {i : Instr} {m : MemOperand} (h : i.memOperand = some m) :
    i.header.x = m.xBit ∧ i.header.b = m.bBit := by
  cases i with
  | pmullwMmx64 d s2 len => cases s2 <;> simp_all [Instr.memOperand, Instr.header]
  | pmullwSse128 d s2 len | vpmullwVex128 d s1 s2 len | vpmullwVex256 d s1 s2 len
  | vpmullwEvex128 d s1 s2 k z len | vpmullwEvex256 d s1 s2 k z len
  | vpmullwEvex512 d s1 s2 k z len =>
    cases s2 <;> simp_all [Instr.memOperand, Instr.header, Src.xBit, Src.bBit]

theorem Instr.memOperand_ok {m64 : Bool} {i : Instr} {m : MemOperand} (h : i.operandsOk m64 = true)
    (hm : i.memOperand = some m) : m.ok m64 = true := by
  cases i with
  | pmullwMmx64 d s2 len =>
    cases s2 <;> simp_all [Instr.memOperand, Instr.operandsOk, MmxSrc.ok]
  | pmullwSse128 d s2 len | vpmullwVex128 d s1 s2 len | vpmullwVex256 d s1 s2 len
  | vpmullwEvex128 d s1 s2 k z len | vpmullwEvex256 d s1 s2 k z len
  | vpmullwEvex512 d s1 s2 k z len =>
    cases s2 <;> simp_all [Instr.memOperand, Instr.operandsOk, Src.ok]

/-- The context that the prefixes of a spelling make fits its memory operand. -/
theorem fits_spelling {m64 code16 : Bool} {i : Instr} {m : MemOperand} {n : Nat}
    (h : i.operandsOk m64 = true) (hm : i.memOperand = some m) (hn : overrideNeeded i ≤ n)
    (hmode : m64 = true ∨ code16 = false) :
    (rmContext m64 code16 (prefixesOf (List.replicate n (padByte i) ++ i.prefixBytes m64))
      i.header).Fits m := by
  have hok := Instr.memOperand_ok h hm
  have hwide : (m64 || m.addr32) = true := by
    simp only [MemOperand.ok, Bool.and_eq_true] at hok
    exact hok.1.1
  have hpad : i.padSeg = m.seg := by simp [Instr.padSeg, hm]
  have hseg : ((prefixesOf (List.replicate n (padByte i) ++ i.prefixBytes m64)).override m64).getD
      m.base.defaultSeg = m.seg := by
    rw [override_replicate m64 _ n i.padSeg (by rw [prefixesOf_spelling]), hpad]
    by_cases hn0 : n = 0
    · have hdefault : m.seg = m.base.defaultSeg := by
        by_contra hne
        simp [overrideNeeded, hm, hne, hn0] at hn
      simp [hn0, hdefault]
    · simp [hn0]
  refine ⟨?_, ?_, hseg, (Instr.bits_header hm).1, (Instr.bits_header hm).2⟩
  · rcases hmode with rfl | rfl
    · rfl
    · cases m64 <;> simp [rmContext, prefixesOf_spelling, hm]
  · cases m64 <;> simp_all [rmContext, prefixesOf_spelling]

/-- The decoder without the limit of 15 bytes reads back a well-formed instruction. -/
theorem parse_encode {m64 code16 : Bool} {i : Instr} (h : i.wellFormed m64 = true)
    (hmode : m64 = true ∨ code16 = false) (rest : List Byte) :
    parse m64 code16 (encode m64 i ++ rest) = .ok (i.parsed, rest) := by
  obtain ⟨hok, hlen⟩ : i.operandsOk m64 = true ∧ i.lenOk m64 = true := by
    simpa [Instr.wellFormed] using h
  have hn : overrideNeeded i ≤ i.len - (encodeBody m64 i).length := by
    simp only [Instr.lenOk, Bool.and_eq_true, decide_eq_true_eq] at hlen
    simp only [minLen] at hlen
    omega
  rw [encode]
  generalize i.len - (encodeBody m64 i).length = n at hn
  have hallow : (prefixesOf (List.replicate n (padByte i) ++ i.prefixBytes m64)).Allow i.header := by
    rw [prefixesOf_spelling]
    exact ⟨by rw [Instr.form_header], rfl, rfl, rfl⟩
  have hparts : List.replicate n (padByte i) ++ encodeBody m64 i ++ rest =
      (List.replicate n (padByte i) ++ i.prefixBytes m64) ++ (i.header.bytes ++
        (i.rm.bytes m64 i.form.dispScale i.regField ++ rest)) := by
    rw [encodeBody_eq hok]; simp only [List.append_assoc]
  have hoperand (c : RmContext) (hm64 : c.m64 = m64) (hscale : c.scale = i.form.dispScale)
      (hfits : ∀ m, i.memOperand = some m → c.Fits m) :
      parseModRM c (i.rm.bytes m64 i.form.dispScale i.regField ++ rest) =
        .ok (i.regField, i.rm, rest) := by
    subst hm64
    rw [← hscale]
    cases hrm : i.rm with
    | reg rm => exact parseModRM_reg c _ rm rest
    | mem m =>
      have hm := (i.rm_eq_mem m).mp hrm
      exact parseModRM_memBytes (hfits m hm) (Instr.memOperand_ok hok hm) _ rest
  rw [hparts, parse_append isLegacyPrefix_of_mem_spelling (noPrefixFirst_bytes _ _), parseBody,
    parseOpcode_bytes (header_ok hok) hallow]
  simp only [parseOperand]
  rw [hoperand _ rfl (by simp [rmContext]) fun m hm => fits_spelling hok hm hn hmode]
  rfl

/-- Settles O38: the parts of the decoder read back the parts of the spelling, and the spelling has
`i.len` bytes, at most 15. -/
theorem decodeOfEncodeIsIdentity : Obligations.DecodeOfEncodeIsIdentity := by
  intro m64 code16 i rest h hmode
  obtain ⟨hok, hlen⟩ : i.operandsOk m64 = true ∧ i.lenOk m64 = true := by
    simpa [Instr.wellFormed] using h
  obtain ⟨hlength, hle⟩ := Laws.EncodeLength.of_lenOk i m64 hlen
  rw [decode_of_parse (parse_encode h hmode rest), if_pos hle, hlength, instr_parsed hok]

end Sys2Proof
end

section
/-!
PROOFS. Whatever the decoder gives is well formed (O39). Each part of the decoder is inverted once:
what it gives is something that a spelling has, and it took at least the bytes of the shortest one.
-/

namespace Sys2Proof

open Machine (isLegacyPrefix)

/-! ### The opcode part -/

theorem val_vregOf_lt : ∀ (h3 : Bool) (r : BitVec 3),
    (vregOf false h3 r).val < 16 ∧ (vregOf false false r).val < 8 := by decide

/-- The shortest spelling of a header, in bytes: a REX byte where an extension bit is set, the long
VEX spelling where `X` or `B` is. -/
theorem Header.length_bytes (h : Header) : h.bytes.length =
    match h.form.encoding with
    | .legacy => (if h.r || h.x || h.b then 1 else 0) + 2
    | .vex => if h.x || h.b then 4 else 3
    | .evex => 5 := by
  obtain ⟨f, r', r, x, b, s1, k, z⟩ := h
  cases f with
  | mmx64 | sse128 =>
    simp only [Header.bytes, rexBytes_eq, Form.encoding]
    split <;> rfl
  | vex128 | vex256 =>
    simp only [Header.bytes, vexBytes_eq, Form.encoding]
    split <;> rfl
  | evex128 | evex256 | evex512 => rfl

/-- What REX byte there is, and only in 64-bit mode. -/
theorem takeRex_cases (m64 : Bool) (bs : List Byte) :
    takeRex m64 bs = (none, bs) ∨
      m64 = true ∧ ∃ b bs' rex, bs = b :: bs' ∧ takeRex m64 bs = (some rex, bs') := by
  cases bs with
  | nil => exact .inl rfl
  | cons b bs =>
    by_cases h : (m64 && field b 4 4 == 4#4) = true
    · refine .inr ⟨?_, b, bs, _, rfl, by rw [takeRex, if_pos h]⟩
      simp only [Bool.and_eq_true] at h
      exact h.1
    · exact .inl (by rw [takeRex, if_neg h])

/-- A header as the decoder gives it: one that the mode has, after prefixes that may stand before
it, from at least the bytes of its shortest spelling. -/
structure Header.From (m64 : Bool) (p : Prefixes) (taken : Nat) (h : Header) : Prop where
  ok : h.Ok m64
  allow : p.Allow h
  shortest : h.bytes.length ≤ taken

theorem parseLegacy_ok {m64 : Bool} {p : Prefixes} {rex : Option Rex} {bs rest : List Byte}
    {h : Header} (hrex : rex.isSome = true → m64 = true)
    (hok : parseLegacy p rex bs = .ok (h, rest)) :
    bs.length = rest.length + 1 ∧ h.From m64 p (rex.toList.length + 2) := by
  cases bs with
  | nil => simp [parseLegacy] at hok
  | cons op bs =>
    simp only [parseLegacy] at hok
    split at hok
    · nomatch hok
    split at hok
    · nomatch hok
    next hrep =>
    split at hok
    · nomatch hok
    next hlock =>
    obtain ⟨rfl, rfl⟩ := hok
    simp only [Bool.or_eq_true, not_or, Bool.not_eq_true] at hrep hlock
    have hnone : m64 = false → rex = none := by
      rintro rfl; cases rex <;> simp_all
    refine ⟨rfl, ⟨?_, ?_, ?_, ?_⟩, ⟨?_, hlock, hrep.1, hrep.2⟩, ?_⟩
    · intro hm
      simp [hnone hm]
    · exact fun _ => ⟨rfl, Nat.succ_pos _, rfl, rfl⟩
    · exact fun _ => rfl
    · rfl
    · cases p.opSize <;> rfl
    · rw [Header.length_bytes]
      cases p.opSize <;> cases rex <;> simp [Form.encoding] <;> split <;> omega

/-- The extension bits that VEX may have outside 64-bit mode are those of registers up to
7. -/
theorem parseVexTail_ok {m64 r x b : Bool} {p : Prefixes} {bs rest : List Byte} {h : Header}
    (hp : forbidsVex p none = false) (hsel : m64 = false → r = false ∧ x = false)
    (hok : parseVexTail m64 r x b bs = .ok (h, rest)) :
    bs.length = rest.length + 2 ∧ h.From m64 p (if x || b then 4 else 3) := by
  match bs, hok with
  | [], hok => nomatch hok
  | [_], hok => nomatch hok
  | q :: op :: bs, hok =>
    simp only [parseVexTail] at hok
    split at hok
    · nomatch hok
    split at hok
    · nomatch hok
    next hext =>
    obtain ⟨rfl, rfl⟩ := hok
    simp only [forbidsVex, Bool.or_eq_false_iff] at hp
    obtain ⟨⟨⟨⟨hop, hlock⟩, hrepne⟩, hrep⟩, -⟩ := hp
    have hform : (if bit q 2 = true then Form.vex256 else .vex128).encoding = .vex ∧
        (if bit q 2 = true then Form.vex256 else .vex128) ≠ .sse128 := by
      cases bit q 2 <;> decide
    refine ⟨rfl, ⟨?_, ?_, ?_, rfl⟩, ⟨?_, hlock, hrepne, hrep⟩, ?_⟩
    · rintro rfl
      simp only [Bool.not_false, Bool.true_and, Bool.or_eq_true, not_or, Bool.not_eq_true] at hext
      obtain ⟨hr, hx⟩ := hsel rfl
      refine ⟨rfl, hr, hx, hext.1, ?_⟩
      simp only [hext.2]
      exact (val_vregOf_lt false _).2
    · exact fun _ => ⟨rfl, (val_vregOf_lt _ _).1, rfl, rfl⟩
    · intro he; simp [hform.1] at he
    · simp [hop, hform.2]
    · rw [Header.length_bytes]
      simp [hform.1]

theorem parseVex2_ok {m64 : Bool} {p : Prefixes} {bs rest : List Byte} {h : Header}
    (hp : forbidsVex p none = false) (hsel : prefixSelected m64 bs = .ok true)
    (hok : parseVex2 m64 bs = .ok (h, rest)) : 
    bs.length = rest.length + 2 ∧ h.From m64 p 3 := by
  cases bs with
  | nil => nomatch hok
  | cons q bs =>
    refine parseVexTail_ok hp ?_ hok
    rintro rfl
    have : ∀ q : Byte, field q 6 2 = 3#2 → (!bit q 7) = false := by decide
    exact ⟨this q (by simpa using hsel), rfl⟩

theorem parseVex3_ok {m64 : Bool} {p : Prefixes} {bs rest : List Byte} {h : Header}
    (hp : forbidsVex p none = false) (hsel : prefixSelected m64 bs = .ok true)
    (hok : parseVex3 m64 bs = .ok (h, rest)) :
    bs.length = rest.length + 3 ∧ h.From m64 p 4 := by
  cases bs with
  | nil => nomatch hok
  | cons q bs =>
    simp only [parseVex3] at hok
    split at hok
    · nomatch hok
    have hbits : m64 = false → (!bit q 7) = false ∧ (!bit q 6) = false := by
      rintro rfl
      have : ∀ q : Byte, field q 6 2 = 3#2 → (!bit q 7) = false ∧ (!bit q 6) = false := by decide
      exact this q (by simpa using hsel)
    obtain ⟨hlen, hfrom⟩ := parseVexTail_ok hp hbits hok
    refine ⟨by simp [hlen], hfrom.ok, hfrom.allow, hfrom.shortest.trans ?_⟩
    split <;> omega

theorem evexForm_cases {ll : BitVec 2} {f : Form} (h : evexForm ll = some f) :
    f.encoding = .evex ∧ f ≠ .sse128 := by
  unfold evexForm at h
  split_ifs at h <;> obtain rfl := Option.some.inj h <;> exact ⟨rfl, nofun⟩

theorem parseEvex_ok {m64 : Bool} {p : Prefixes} {bs rest : List Byte} {h : Header}
    (hp : forbidsVex p none = false) (hsel : prefixSelected m64 bs = .ok true)
    (hok : parseEvex m64 bs = .ok (h, rest)) :
    bs.length = rest.length + 4 ∧ h.From m64 p 5 := by
  match bs, hok with
  | [], hok | [_], hok | [_, _], hok | [_, _, _], hok => nomatch hok
  | p0 :: p1 :: p2 :: op :: bs, hok =>
    simp only [parseEvex] at hok
    split at hok
    · nomatch hok
    split at hok
    · nomatch hok
    split at hok
    · nomatch hok
    next hext =>
    split at hok
    · nomatch hok
    next hz =>
    split at hok
    · nomatch hok
    next f hf =>
    obtain ⟨rfl, rfl⟩ := hok
    obtain ⟨hevex, hsse⟩ := evexForm_cases hf
    simp only [forbidsVex, Bool.or_eq_false_iff] at hp
    obtain ⟨⟨⟨⟨hop, hlock⟩, hrepne⟩, hrep⟩, -⟩ := hp
    refine ⟨rfl, ⟨?_, fun he => absurd hevex he, ?_, ?_⟩, ⟨?_, hlock, hrepne, hrep⟩, ?_⟩
    · rintro rfl
      have hbits : ∀ q : Byte, field q 6 2 = 3#2 → (!bit q 7) = false ∧ (!bit q 6) = false := by
        decide
      obtain ⟨hr, hx⟩ := hbits p0 (by simpa using hsel)
      simp only [Bool.not_false, Bool.true_and, Bool.not_eq_true, Bool.not_eq_false',
        Bool.and_eq_true] at hext
      obtain ⟨⟨⟨hb, hr'⟩, hv4⟩, hv3⟩ := hext
      refine ⟨by simp [hr'], hr, hx, by simp [hb], ?_⟩
      simp only [hv4, hv3]
      exact (val_vregOf_lt false _).2
    · intro he; simp [hevex] at he
    · have hmask : ∀ (k : BitVec 3) (z : Bool), (z && k == 0#3) = false →
          maskingOk (reg3Of k) z = true := by decide
      simp only [Bool.or_eq_true, not_or, Bool.not_eq_true] at hz
      exact hmask _ _ hz.2
    · simp [hop, hsse]
    · rw [Header.length_bytes]
      simp [hevex]

theorem parseHeader_ok {m64 : Bool} {p : Prefixes} {rex : Option Rex} {bs rest : List Byte}
    {h : Header} (hrex : rex.isSome = true → m64 = true)
    (hok : parseHeader m64 p rex bs = .ok (h, rest)) :
    ∃ n, bs.length = rest.length + n ∧ h.From m64 p (rex.toList.length + n) := by
  cases bs with
  | nil => nomatch hok
  | cons b bs =>
    by_cases h0F : b = 0x0F#8
    · subst h0F
      obtain ⟨hlen, hfrom⟩ := parseLegacy_ok hrex hok
      exact ⟨2, by simp [hlen], hfrom⟩
    by_cases hb : b ∈ vexBytesFirst
    · rw [parseHeader_vexFirst hb] at hok
      split at hok
      · nomatch hok
      · nomatch hok
      next hsel =>
      split at hok
      · nomatch hok
      next hforbids =>
      rw [Bool.not_eq_true] at hforbids
      cases rex with
      | some => simp [forbidsVex] at hforbids
      | none =>
        split at hok
        · obtain ⟨hlen, hfrom⟩ := parseVex2_ok hforbids hsel hok
          exact ⟨3, by simp [hlen], hfrom⟩
        split at hok
        · obtain ⟨hlen, hfrom⟩ := parseVex3_ok hforbids hsel hok
          exact ⟨4, by simp [hlen], hfrom⟩
        · obtain ⟨hlen, hfrom⟩ := parseEvex_ok hforbids hsel hok
          exact ⟨5, by simp [hlen], hfrom⟩
    · have hother : parseHeader m64 p rex (b :: bs) = .error .otherInstruction := by
        simp only [vexBytesFirst, List.mem_cons, List.not_mem_nil, or_false, not_or] at hb
        simp [parseHeader, h0F, hb]
      rw [hother] at hok
      nomatch hok

/-- A header is found after REX and the opcode part: it is one that the mode has, after prefixes
that may stand before it. -/
theorem parseOpcode_ok {m64 : Bool} {p : Prefixes} {bs rest : List Byte} {h : Header}
    (hok : parseOpcode m64 p bs = .ok (h, rest)) :
    ∃ n, bs.length = rest.length + n ∧ h.From m64 p n := by
  unfold parseOpcode at hok
  rcases takeRex_cases m64 bs with hnone | ⟨hm, b, bs', rex, rfl, hsome⟩
  · rw [hnone] at hok
    obtain ⟨n, hlen, hfrom⟩ := parseHeader_ok (by simp) hok
    exact ⟨n, hlen, by simpa using hfrom⟩
  · rw [hsome] at hok
    obtain ⟨n, hlen, hfrom⟩ := parseHeader_ok (fun _ => hm) hok
    exact ⟨1 + n, by simp [hlen]; omega, by simpa using hfrom⟩

/-! ### The operand part -/

/-- The factors that an 8-bit displacement has (R83). -/
abbrev scales : List Nat := [1, 16, 32, 64]

theorem dispScale_mem_scales (f : Form) : f.dispScale ∈ scales := by cases f <;> decide

/-- A displacement that is one byte times the factor is spelled in one byte at most. -/
theorem length_dispSpelling_scaled {n : Nat} (hn : n ∈ scales) (base3 : BitVec 3) (b : Byte) :
    (dispSpelling n base3 (b.signExtend 32 * BitVec.ofNat 32 n)).2.length ≤ 1 := by
  have hq : ∀ n ∈ scales, ∀ b : Byte,
      BitVec.ofInt 8 ((b.signExtend 32 * BitVec.ofNat 32 n).toInt / (n : Int)) = b := by
    decide
  unfold dispSpelling
  dsimp only
  split
  · exact Nat.zero_le _
  · rw [hq n hn b, if_pos rfl]
    exact Nat.le_refl _

theorem length_dispSpelling_le (n : Nat) (base3 : BitVec 3) (d : BitVec 32) :
    (dispSpelling n base3 d).2.length ≤ 4 := by
  unfold dispSpelling
  dsimp only
  split
  · exact Nat.zero_le _
  · split <;> simp [dispBytes]

/-- A displacement is read from four bytes, from one, or from none. -/
theorem takeDisp_ok {mod : BitVec 2} {wide : Bool} {n : Nat} {bs rest : List Byte} {d : BitVec 32}
    (hok : takeDisp mod wide n bs = .ok (d, rest)) :
    bs.length = rest.length + 4 ∨
      wide = false ∧ bs.length = rest.length + 1 ∧ (∃ b : Byte, d = b.signExtend 32 * BitVec.ofNat 32 n) ∨
      wide = false ∧ bs.length = rest.length ∧ mod ≠ 1 ∧ mod ≠ 2 ∧ d = 0 := by
  unfold takeDisp at hok
  split at hok
  · split at hok
    · obtain ⟨-, rfl⟩ := hok
      exact .inl rfl
    · nomatch hok
  next hnot =>
  simp only [Bool.or_eq_true, not_or, Bool.not_eq_true, beq_eq_false_iff_ne] at hnot
  split at hok
  · split at hok
    · obtain ⟨rfl, rfl⟩ := hok
      exact .inr (.inl ⟨hnot.1, rfl, _, rfl⟩)
    · nomatch hok
  next hmod =>
  obtain ⟨rfl, rfl⟩ := hok
  exact .inr (.inr ⟨hnot.1, rfl, hmod, hnot.2, rfl⟩)

/-- A displacement after a base register takes at least the bytes of its shortest spelling, where
the form without displacement has another base than number 5. -/
theorem length_dispSpelling_le_taken {mod : BitVec 2} {n : Nat} {bs rest : List Byte}
    {d : BitVec 32} {base3 : BitVec 3} (hn : n ∈ scales) (hmod : mod ≠ 3)
    (hbase : ¬ (base3 = 5#3 ∧ mod = 0#2)) (hok : takeDisp mod false n bs = .ok (d, rest)) :
    (dispSpelling n base3 d).2.length + rest.length ≤ bs.length := by
  rcases takeDisp_ok hok with h | ⟨-, h, b, rfl⟩ | ⟨-, h, h1, h2, rfl⟩
  · have := length_dispSpelling_le n base3 d
    omega
  · have := length_dispSpelling_scaled hn base3 b
    omega
  · have h0 : mod = 0#2 := by
      have : ∀ m : BitVec 2, m ≠ 3 → m ≠ 1 → m ≠ 2 → m = 0#2 := by decide
      exact this mod hmod h1 h2
    have h5 : base3 ≠ 5#3 := fun h5 => hbase ⟨h5, h0⟩
    simp [dispSpelling, h5, h]

/-- The length of the shortest spelling of a memory operand (R77, R78). -/
theorem length_memBytes (m64 : Bool) (n : Nat) (reg : BitVec 3) (m : MemOperand) :
    (memBytes m64 n reg m).length =
      match m.base, m.index with
      | .rip, _ => 5
      | .none, none => if m64 then 6 else 5
      | .none, some _ => 6
      | .reg b, none =>
        (if low3 b = 4#3 then 2 else 1) + (dispSpelling n (low3 b) m.disp).2.length
      | .reg b, some _ => 2 + (dispSpelling n (low3 b) m.disp).2.length := by
  obtain ⟨a32, sg, base, index, d⟩ := m
  cases base with
  | rip => rfl
  | none =>
    cases index with
    | some ix => rfl
    | none => cases m64 <;> rfl
  | reg b =>
    cases index with
    | some ix => simp only [memBytes, List.length_cons]; omega
    | none => simp only [memBytes]; split <;> simp only [List.length_cons] <;> omega

/-- The bits and low part of a general register number (R78). -/
theorem gregOf_bits : ∀ (h : Bool) (r : BitVec 3),
    low3 (gregOf h r) = r ∧ hi3 (gregOf h r) = h ∧ (h = false → (gregOf h r).val < 8) := by decide

theorem GReg.ok_gregOf {m64 h : Bool} (hout : m64 = false → h = false) (r : BitVec 3) :
    GReg.ok m64 (gregOf h r) = true := by
  cases m64
  · simp [GReg.ok, (gregOf_bits h r).2.2 (hout rfl)]
  · rfl

/-- What stands around a ModRM byte in the decoder (R78): outside 64-bit mode no extension bits and
32-bit addresses, and a factor that a form has. -/
structure RmContext.Ok (c : RmContext) : Prop where
  outside64 : c.m64 = false → c.x = false ∧ c.b = false ∧ c.addr32 = true
  scale : c.scale ∈ scales

/-- A memory operand as the decoder gives it in a context: one that R78 expresses, with the segment
and address size of the context and register numbers from its extension bits. -/
structure MemOperand.From (c : RmContext) (m : MemOperand) : Prop where
  ok : m.ok c.m64 = true
  addr32 : m.addr32 = c.addr32
  seg : m.seg = c.override.getD m.base.defaultSeg
  x : m.xBit = true → c.x = true
  b : m.bBit = true → c.b = true

theorem finish_ok {c : RmContext} {mod : BitVec 2} {wide : Bool} {base : Base}
    {index : Option Index} {bs rest : List Byte} {op : RmOperand}
    (hok : c.finish mod wide base index bs = .ok (op, rest)) :
    ∃ d, takeDisp mod wide c.scale bs = .ok (d, rest) ∧
      op = .mem ⟨c.addr32, c.override.getD base.defaultSeg, base, index, d⟩ := by
  unfold RmContext.finish at hok
  split at hok
  · nomatch hok
  next d rest' htake =>
  obtain ⟨rfl, rfl⟩ := hok
  exact ⟨d, htake, rfl⟩

/-- Base and index that R78 expresses make a memory operand of the context. -/
theorem from_of_base_index {c : RmContext} (hc : c.Ok) {base : Base} {index : Option Index}
    {d : BitVec 32} (hbase : base = .none ∨ (base = .rip ∧ c.m64 = true ∧ index = none) ∨
      ∃ r, base = .reg (gregOf c.b r))
    (hindex : ∀ ix ∈ index, ix.reg ≠ 4 ∧ ∃ r, ix.reg = gregOf c.x r) :
    MemOperand.From c ⟨c.addr32, c.override.getD base.defaultSeg, base, index, d⟩ := by
  have hwide : (c.m64 || c.addr32) = true := by
    cases hm : c.m64
    · simp [(hc.outside64 hm).2.2]
    · rfl
  refine ⟨?_, rfl, rfl, ?_, ?_⟩
  · have hb : base.ok c.m64 = true := by
      rcases hbase with rfl | ⟨rfl, hm, -⟩ | ⟨r, rfl⟩
      · rfl
      · exact hm
      · exact GReg.ok_gregOf (fun hm => (hc.outside64 hm).2.1) r
    simp only [MemOperand.ok, hwide, hb, Bool.true_and]
    cases index with
    | none => rfl
    | some ix =>
      obtain ⟨hne, r, hr⟩ := hindex ix rfl
      have hg : GReg.ok c.m64 ix.reg = true := by
        rw [hr]; exact GReg.ok_gregOf (fun hm => (hc.outside64 hm).1) r
      have hrip : base ≠ .rip := by
        rintro rfl
        simp at hbase
      simp [hne, hg, hrip]
  · cases index with
    | none => nofun
    | some ix =>
      obtain ⟨-, r, hr⟩ := hindex ix rfl
      simp [MemOperand.xBit, hr, gregOf_bits]
  · rcases hbase with rfl | ⟨rfl, -⟩ | ⟨r, rfl⟩
    · nofun
    · nofun
    · simp [MemOperand.bBit, gregOf_bits]

/-- A memory operand is one of the context, from at least the bytes of its shortest spelling. -/
theorem parseMem_ok {c : RmContext} (hc : c.Ok) {mod : BitVec 2} {rm : BitVec 3}
    {bs rest : List Byte} {op : RmOperand} (hmod : mod ≠ 3#2)
    (hok : parseMem c mod rm bs = .ok (op, rest)) :
    ∃ m, op = .mem m ∧ m.From c ∧
      ∀ reg, (memBytes c.m64 c.scale reg m).length + rest.length ≤ bs.length + 1 := by
  have hwide : ∀ {bs d}, takeDisp mod true c.scale bs = .ok (d, rest) →
      bs.length = rest.length + 4 := by
    intro bs d h
    simpa using takeDisp_ok h
  unfold parseMem at hok
  split at hok
  · cases bs with
    | nil => nomatch hok
    | cons sib bs =>
      dsimp only at hok
      generalize hix : (if gregOf c.x (field sib 3 3) = 4 then none
        else some (⟨gregOf c.x (field sib 3 3), (field sib 6 2).toFin⟩ : Index)) = index at hok
      have hindex : ∀ ix ∈ index, ix.reg ≠ 4 ∧ ∃ r, ix.reg = gregOf c.x r := by
        intro ix hmem
        rw [← hix] at hmem
        split at hmem
        · nomatch hmem
        · next hne =>
          obtain rfl := Option.some.inj hmem
          exact ⟨hne, _, rfl⟩
      split at hok
      · obtain ⟨d, htake, rfl⟩ := finish_ok hok
        refine ⟨_, rfl, from_of_base_index hc (.inl rfl) hindex, fun reg => ?_⟩
        have := hwide htake
        rw [length_memBytes, List.length_cons]
        cases index with
        | none => dsimp only; split <;> omega
        | some ix => dsimp only; omega
      · next hbase =>
        obtain ⟨d, htake, rfl⟩ := finish_ok hok
        refine ⟨_, rfl, from_of_base_index hc (.inr (.inr ⟨_, rfl⟩)) hindex, fun reg => ?_⟩
        have := length_dispSpelling_le_taken hc.scale hmod hbase htake
        rw [length_memBytes, List.length_cons]
        cases index with
        | none => simp only [(gregOf_bits _ _).1]; split <;> omega
        | some ix => simp only [(gregOf_bits _ _).1]; omega
  next hrm =>
  split at hok
  · obtain ⟨d, htake, rfl⟩ := finish_ok hok
    have := hwide htake
    cases hm : c.m64
    · refine ⟨_, rfl, from_of_base_index hc (.inl (by simp)) nofun, fun reg => ?_⟩
      rw [length_memBytes]
      simp
      omega
    · refine ⟨_, rfl, from_of_base_index hc (.inr (.inl ⟨by simp, hm, rfl⟩)) nofun,
        fun reg => ?_⟩
      rw [length_memBytes]
      simp
      omega
  next hbase =>
  obtain ⟨d, htake, rfl⟩ := finish_ok hok
  refine ⟨_, rfl, from_of_base_index hc (.inr (.inr ⟨_, rfl⟩)) nofun, fun reg => ?_⟩
  have := length_dispSpelling_le_taken hc.scale hmod hbase htake
  rw [length_memBytes]
  simp only [(gregOf_bits _ _).1, if_neg hrm]
  omega

/-- Operand `r/m` as the decoder gives it in a context. -/
def RmOperand.From (c : RmContext) : RmOperand → Prop
  | .reg _ => True
  | .mem m => c.addr16 = false ∧ m.From c

/-- Operand `r/m` is a register or a memory operand of the context, from at least the bytes of its
shortest spelling. -/
theorem parseModRM_ok {c : RmContext} (hc : c.Ok) {bs rest : List Byte} {reg : BitVec 3}
    {op : RmOperand} (hok : parseModRM c bs = .ok (reg, op, rest)) :
    op.From c ∧ (op.bytes c.m64 c.scale reg).length + rest.length ≤ bs.length := by
  cases bs with
  | nil => nomatch hok
  | cons modrm bs =>
    simp only [parseModRM] at hok
    split at hok
    · obtain ⟨-, rfl, rfl⟩ := hok
      exact ⟨trivial, by simp [RmOperand.bytes]; omega⟩
    next hmod =>
    split at hok
    · nomatch hok
    next h16 =>
    split at hok
    · nomatch hok
    next op' rest' hmem =>
    obtain ⟨rfl, rfl, rfl⟩ := hok
    obtain ⟨m, rfl, hfrom, hlen⟩ := parseMem_ok hc hmod hmem
    exact ⟨⟨by simpa using h16, hfrom⟩, hlen _⟩

/-! ### The instruction that a header and an operand make -/

theorem VReg.ok_vregOf {m64 h4 h3 : Bool} {e : Encoding} (hout : m64 = false → h4 = false ∧ h3 = false)
    (he : e ≠ .evex → h4 = false) (r : BitVec 3) : VReg.ok m64 e (vregOf h4 h3 r) = true := by
  have h64 : ∀ (h3 : Bool) (r : BitVec 3), VReg.ok true .legacy (vregOf false h3 r) = true ∧
      VReg.ok true .vex (vregOf false h3 r) = true := by decide
  have hevex : ∀ (h4 h3 : Bool) (r : BitVec 3), VReg.ok true .evex (vregOf h4 h3 r) = true := by
    decide
  cases m64
  · obtain ⟨rfl, rfl⟩ := hout rfl
    simp [VReg.ok, Config.nvec, (val_vregOf_lt false r).2]
  · cases e with
    | evex => exact hevex h4 h3 r
    | legacy => rw [he nofun]; exact (h64 h3 r).1
    | vex => rw [he nofun]; exact (h64 h3 r).2

theorem Header.Ok.vreg_ok {m64 : Bool} {h : Header} (hok : h.Ok m64) (reg : BitVec 3) :
    VReg.ok m64 h.form.encoding (vregOf h.r' h.r reg) = true := by
  refine VReg.ok_vregOf (fun hm => ?_) (fun he => (hok.notEvex he).1) reg
  obtain ⟨hr', hr, -⟩ := hok.outside64 hm
  exact ⟨hr', hr⟩

theorem Header.Ok.s1_ok {m64 : Bool} {h : Header} (hok : h.Ok m64) :
    VReg.ok m64 h.form.encoding h.s1 = true := by
  cases hm : m64
  · obtain ⟨-, -, -, -, hs1⟩ := hok.outside64 hm
    exact decide_eq_true hs1
  · cases he : h.form.encoding with
    | evex => simp [VReg.ok, Config.nvec]
    | legacy | vex => simp [VReg.ok, Config.nvec, (hok.notEvex (by simp [he])).2.1]

theorem Header.Ok.src_ok {m64 code16 : Bool} {p : Prefixes} {h : Header} (hok : h.Ok m64)
    {op : RmOperand} (hop : op.From (rmContext m64 code16 p h)) :
    (h.src op).ok m64 h.form.encoding = true := by
  cases op with
  | mem m => exact hop.2.ok
  | reg rm =>
    refine VReg.ok_vregOf (fun hm => ?_) (fun he => ?_) rm
    · obtain ⟨-, -, hx, hb, -⟩ := hok.outside64 hm
      exact ⟨by simp [hx], hb⟩
    · simp [he]

/-- The operands of a decoded instruction are ones its form has in the mode. -/
theorem operandsOk_instr {m64 code16 : Bool} {p : Prefixes} {h : Header} (hok : h.Ok m64)
    {op : RmOperand} (hop : op.From (rmContext m64 code16 p h)) (reg : BitVec 3) (len : Nat) :
    (h.instr reg op len).operandsOk m64 = true := by
  have hd := hok.vreg_ok reg
  have hs1 := hok.s1_ok
  have hs2 := hok.src_ok hop
  have hk := hok.masking
  cases hf : h.form with
  | mmx64 =>
    simp only [Header.instr, hf, Instr.operandsOk]
    cases op with
    | reg rm => rfl
    | mem m => exact hop.2.ok
  | sse128 | vex128 | vex256 | evex128 | evex256 | evex512 =>
    simp only [hf, Form.encoding] at hd hs1 hs2
    simp [Header.instr, hf, Instr.operandsOk, hd, hs1, hs2, hk]

/-- The parts of a vector register number (R79). -/
theorem vregOf_bits : ∀ (h4 h3 : Bool) (r : BitVec 3),
    low3 (vregOf h4 h3 r) = r ∧ hi3 (vregOf h4 h3 r) = h3 ∧ hi4 (vregOf h4 h3 r) = h4 := by decide

theorem low3_reg3Of : ∀ r : BitVec 3, low3 (reg3Of r) = r := by decide

@[simp] theorem Header.regField_instr (h : Header) (reg : BitVec 3) (op : RmOperand) (len : Nat) :
    (h.instr reg op len).regField = reg := by
  unfold Header.instr
  dsimp only
  split <;> simp [Instr.regField, vregOf_bits, low3_reg3Of]

@[simp] theorem Header.rm_instr (h : Header) (reg : BitVec 3) (op : RmOperand) (len : Nat) :
    (h.instr reg op len).rm = op := by
  unfold Header.instr
  dsimp only
  split <;> cases op <;> simp [Instr.rm, Header.src, Src.rm, mmxSrcOf, vregOf_bits, low3_reg3Of]

@[simp] theorem Header.form_instr (h : Header) (reg : BitVec 3) (op : RmOperand) (len : Nat) :
    (h.instr reg op len).form = h.form := by
  unfold Header.instr
  dsimp only
  split <;> simp_all [Instr.form]

/-- An instruction's own spelling needs no extension bit that the decoded header lacks. -/
theorem Header.bits_instr {c : RmContext} {h : Header} {op : RmOperand} (hx : c.x = h.x)
    (hb : c.b = h.b) (hop : op.From c) (reg : BitVec 3) (len : Nat) :
    ((h.instr reg op len).header.r = true → h.r = true) ∧
      ((h.instr reg op len).header.x = true → h.x = true) ∧
      ((h.instr reg op len).header.b = true → h.b = true) := by
  have hsrc : ((h.src op).xBit = true → h.x = true) ∧ ((h.src op).bBit = true → h.b = true) := by
    cases op with
    | reg rm => simp +contextual [Header.src, Src.xBit, Src.bBit, vregOf_bits]
    | mem m => exact ⟨fun hm => hx ▸ hop.2.x hm, fun hm => hb ▸ hop.2.b hm⟩
  cases hf : h.form with
  | mmx64 =>
    simp only [Header.instr, hf]
    cases op with
    | reg rm => exact ⟨nofun, nofun, nofun⟩
    | mem m => exact ⟨nofun, hsrc.1, hsrc.2⟩
  | sse128 | vex128 | vex256 | evex128 | evex256 | evex512 =>
    simp only [Header.instr, hf, Instr.header, vregOf_bits]
    exact ⟨id, hsrc.1, hsrc.2⟩

theorem ite_le_ite_of_imp {a b : Bool} {m n : Nat} (hab : a = true → b = true) (hnm : n ≤ m) :
    (if a then m else n) ≤ if b then m else n := by
  by_cases ha : a = true
  · rw [if_pos ha, if_pos (hab ha)]
  · rw [if_neg ha]
    split
    · exact hnm
    · exact Nat.le_refl n

/-- A header with more extension bits has no shorter spelling. -/
theorem Header.length_bytes_mono {h h' : Header} (hf : h'.form = h.form)
    (hr : h'.r = true → h.r = true) (hx : h'.x = true → h.x = true) (hb : h'.b = true → h.b = true) :
    h'.bytes.length ≤ h.bytes.length := by
  rw [Header.length_bytes, Header.length_bytes, hf]
  cases h.form.encoding with
  | evex => exact Nat.le_refl _
  | legacy =>
    have himp : (h'.r || h'.x || h'.b) = true → (h.r || h.x || h.b) = true := by
      simp only [Bool.or_eq_true]
      exact Or.imp (Or.imp hr hx) hb
    exact Nat.add_le_add_right (ite_le_ite_of_imp himp (Nat.zero_le 1)) 2
  | vex =>
    have himp : (h'.x || h'.b) = true → (h.x || h.b) = true := by
      simp only [Bool.or_eq_true]
      exact Or.imp hx hb
    exact ite_le_ite_of_imp himp (Nat.le_succ 3)

/-! ### The legacy prefixes -/

/-- Operand-size byte, address-size byte and overrides are different bytes. -/
theorem prefixesOf_length (ps : List Byte) :
    (prefixesOf ps).opSize.toNat + (prefixesOf ps).addrSize.toNat + (prefixesOf ps).segs.length ≤
      ps.length := by
  have hone : ∀ b : Byte, (prefixesOf [b]).opSize.toNat + (prefixesOf [b]).addrSize.toNat +
      (prefixesOf [b]).segs.length ≤ 1 := by decide
  have hor : ∀ x y : Bool, (x || y).toNat ≤ x.toNat + y.toNat := by decide
  induction ps with
  | nil => exact Nat.le_refl 0
  | cons b ps ih =>
    have hb := hone b
    have hop := hor (prefixesOf [b]).opSize (prefixesOf ps).opSize
    have haddr := hor (prefixesOf [b]).addrSize (prefixesOf ps).addrSize
    rw [← List.singleton_append, prefixesOf_append]
    simp only [Prefixes.merge, List.length_append, List.length_singleton]
    omega

/-- A memory operand whose segment is not the default one took an override. -/
theorem overrideNeeded_le {m64 : Bool} {p : Prefixes} {i : Instr}
    (h : ∀ m, i.memOperand = some m → m.seg = (p.override m64).getD m.base.defaultSeg) :
    overrideNeeded i ≤ p.segs.length := by
  unfold overrideNeeded
  split
  · next m hm =>
    split
    · exact Nat.zero_le _
    · next hseg =>
      cases ho : p.override m64 with
      | none => simp [h m hm, ho] at hseg
      | some sg => exact List.length_pos_of_mem (mem_countingSegs (override_mem ho))
  · exact Nat.zero_le _

/-- The prefixes of an instruction's own spelling are no more than those it was decoded from. -/
theorem length_prefixBytes_le {m64 code16 : Bool} {ps : List Byte} {h : Header} {i : Instr}
    (hform : i.form = h.form) (hallow : (prefixesOf ps).Allow h)
    (hmem : ∀ m, i.memOperand = some m → m.From (rmContext m64 code16 (prefixesOf ps) h)) :
    (i.prefixBytes m64).length + overrideNeeded i ≤ ps.length := by
  have hover : overrideNeeded i ≤ (prefixesOf ps).segs.length :=
    overrideNeeded_le fun m hm => (hmem m hm).seg
  have haddr : (addrSizeBytes m64 i.memOperand).length ≤ (prefixesOf ps).addrSize.toNat := by
    cases hm : i.memOperand with
    | none => exact Nat.zero_le _
    | some m =>
      have : m.addr32 = (!m64 || (prefixesOf ps).addrSize) := (hmem m hm).addr32
      cases m64 <;> cases ha : (prefixesOf ps).addrSize <;> simp_all [addrSizeBytes]
  have hop : (if i.form = .sse128 then [0x66#8] else []).length ≤ (prefixesOf ps).opSize.toNat := by
    rw [hallow.opSize, hform]
    by_cases hf : h.form = .sse128 <;> simp [hf]
  have := prefixesOf_length ps
  rw [Instr.prefixBytes, List.length_append]
  omega

/-! ### The whole instruction -/

/-- What `parse` gives: a header and an operand that the mode has, from at least the bytes of their
shortest spelling. -/
theorem parseBody_ok {m64 code16 : Bool} {p : Prefixes} {bs rest : List Byte} {h : Header}
    {reg : BitVec 3} {op : RmOperand} (hok : parseBody m64 code16 p bs = .ok ((h, reg, op), rest)) :
    h.Ok m64 ∧ p.Allow h ∧ op.From (rmContext m64 code16 p h) ∧
      h.bytes.length + (op.bytes m64 h.form.dispScale reg).length + rest.length ≤ bs.length := by
  unfold parseBody parseOperand at hok
  split at hok
  · nomatch hok
  next h' bs' hopc =>
  split at hok
  · nomatch hok
  next reg' op' rest' hrm =>
  obtain ⟨⟨rfl, rfl, rfl⟩, rfl⟩ := hok
  obtain ⟨n, hlen, hh, hallow, hshort⟩ := parseOpcode_ok hopc
  have hc : (rmContext m64 code16 p h).Ok := by
    refine ⟨?_, dispScale_mem_scales _⟩
    rintro rfl
    obtain ⟨-, -, hx, hb, -⟩ := hh.outside64 rfl
    exact ⟨hx, hb, rfl⟩
  obtain ⟨hfrom, hbytes⟩ := parseModRM_ok hc hrm
  exact ⟨hh, hallow, hfrom, by simp only [rmContext] at hbytes; omega⟩

/-- The decoder takes legacy prefixes, then what `parseBody` reads, at most 15 bytes in all. -/
theorem decode_ok {m64 code16 : Bool} {bs : List Byte} {i : Instr}
    (h : decode m64 code16 bs = .ok i) :
    ∃ ps body x rest, bs = ps ++ body ∧ (∀ p ∈ ps, isLegacyPrefix p = true) ∧ NoPrefixFirst body ∧
      parseBody m64 code16 (prefixesOf ps) body = .ok (x, rest) ∧
      i = x.instr (bs.length - rest.length) ∧ bs.length - rest.length ≤ 15 := by
  obtain ⟨ps, body, rfl, hps, hbody⟩ := exists_prefixes_append bs
  rw [decode_eq, parse_append hps hbody] at h
  split at h
  · nomatch h
  next x rest hx =>
  split at h
  · nomatch h
  next hle =>
  obtain rfl := Except.ok.inj h
  exact ⟨ps, body, x, rest, rfl, hps, hbody, hx, rfl, Nat.le_of_not_lt hle⟩

/-- Settles O39: the operands come from a header and an operand that the mode has, and each part of
the bytes read is at least as long as its part of the shortest spelling. -/
theorem decodedInstructionsAreWellFormed : Obligations.DecodedInstructionsAreWellFormed := by
  intro m64 code16 bs i h
  obtain ⟨ps, body, ⟨hd, reg, op⟩, rest, rfl, -, -, hbody, rfl, hle⟩ := decode_ok h
  obtain ⟨hok, hallow, hop, hlen⟩ := parseBody_ok hbody
  generalize hn : (ps ++ body).length - rest.length = n at hle
  have hoperands := operandsOk_instr hok hop reg n
  obtain ⟨hr, hx, hb⟩ := Header.bits_instr rfl rfl hop reg n
  have hheader : (hd.instr reg op n).header.bytes.length ≤ hd.bytes.length :=
    Header.length_bytes_mono (by simp) hr hx hb
  have hprefix : ((hd.instr reg op n).prefixBytes m64).length +
      overrideNeeded (hd.instr reg op n) ≤ ps.length := by
    refine length_prefixBytes_le (code16 := code16) (Header.form_instr ..) hallow fun m hm => ?_
    rw [← Instr.rm_eq_mem, Header.rm_instr] at hm
    subst hm
    exact hop.2
  have hmin : minLen m64 (hd.instr reg op n) ≤ n := by
    rw [minLen, encodeBody_eq hoperands]
    simp only [List.length_append, Header.rm_instr, Header.form_instr, Header.regField_instr] at hn ⊢
    omega
  show (Instr.operandsOk m64 (hd.instr reg op n) && Instr.lenOk m64 (hd.instr reg op n)) = true
  rw [hoperands, Instr.lenOk, Header.len_instr]
  simp [hmin, hle]

end Sys2Proof
end

section
/-!
PROOFS. The decoder depends on its bytes alone (O40): each of its parts takes some bytes, gives the
same whatever follows them, and reports fewer of them as cut off. Parts with this property compose.
-/

namespace Sys2Proof

open Machine (isLegacyPrefix)

/-! ### Parts of a decoder that depend on their bytes alone -/

/-- A part of a decoder: from bytes to a value and the bytes left. -/
abbrev ByteReader (α : Type) := List Byte → Except DecodeError (α × List Byte)

/-- The part reads the value from exactly these bytes, and from fewer of them nothing yet. -/
structure ByteReader.Reads {α : Type} (P : ByteReader α) (c : List Byte) (a : α) : Prop where
  append : ∀ rest, P (c ++ rest) = .ok (a, rest)
  take : ∀ k < c.length, P (c.take k) = .error .truncated

/-- Whatever the part gives it reads from the bytes it took. -/
def ByteReader.Local {α : Type} (P : ByteReader α) : Prop :=
  ∀ bs a rest, P bs = .ok (a, rest) → ∃ c, bs = c ++ rest ∧ P.Reads c a

namespace ByteReader

variable {α β : Type}

theorem local_error (e : DecodeError) : Local (fun _ => .error e : ByteReader α) := nofun

theorem local_ok (a : α) : Local fun bs => .ok (a, bs) := by
  intro bs b rest h
  obtain ⟨rfl, rfl⟩ := h
  exact ⟨[], rfl, fun _ => rfl, nofun⟩

theorem Local.ite {c : Prop} [Decidable c] {P Q : ByteReader α} (hP : Local P) (hQ : Local Q) :
    Local fun bs => if c then P bs else Q bs := by
  by_cases h : c
  · simpa only [if_pos h] using hP
  · simpa only [if_neg h] using hQ

/-- A part that needs a byte and goes on with the bytes after it. -/
theorem local_of_cons {P : ByteReader α} (hnil : P [] = .error .truncated)
    (hcons : ∀ b, Local fun bs => P (b :: bs)) : Local P := by
  intro bs a rest h
  cases bs with
  | nil => simp [hnil] at h
  | cons b bs =>
    obtain ⟨c, rfl, hc⟩ := hcons b bs a rest h
    refine ⟨b :: c, rfl, hc.append, fun k hk => ?_⟩
    cases k with
    | zero => exact hnil
    | succ k => exact hc.take k (Nat.lt_of_succ_lt_succ hk)

/-- One part after another. -/
theorem Reads.bind {P : ByteReader α} {Q : α → ByteReader β} {R : ByteReader β} {c d : List Byte} {a : α} {b : β}
    (hR : ∀ bs, R bs = match P bs with
      | .error e => .error e
      | .ok (a, bs') => Q a bs')
    (hP : P.Reads c a) (hQ : (Q a).Reads d b) : R.Reads (c ++ d) b := by
  constructor
  · intro rest
    rw [hR, List.append_assoc, hP.append]
    exact hQ.append rest
  · intro k hk
    rw [List.length_append] at hk
    rw [hR, List.take_append]
    by_cases hkc : k < c.length
    · rw [show k - c.length = 0 by omega, List.take_zero, List.append_nil, hP.take k hkc]
    · rw [List.take_of_length_le (by omega), hP.append]
      exact hQ.take _ (by omega)

theorem Local.bind {P : ByteReader α} {Q : α → ByteReader β} {R : ByteReader β}
    (hR : ∀ bs, R bs = match P bs with
      | .error e => .error e
      | .ok (a, bs') => Q a bs')
    (hP : Local P) (hQ : ∀ a, Local (Q a)) : Local R := by
  intro bs b rest h
  rw [hR] at h
  split at h
  · nomatch h
  next a bs' hPa =>
  obtain ⟨c, rfl, hc⟩ := hP _ _ _ hPa
  obtain ⟨d, rfl, hd⟩ := hQ a _ _ _ h
  exact ⟨c ++ d, by rw [List.append_assoc], hc.bind hR hd⟩

end ByteReader

open ByteReader

/-! ### The parts of the decoder -/

theorem parseLegacy_local (p : Prefixes) (rex : Option Rex) : Local (parseLegacy p rex) :=
  local_of_cons rfl fun _ => .ite (local_error _) (.ite (local_error _) (.ite (local_error _)
    (local_ok _)))

theorem parseVexTail_local (m64 r x b : Bool) (q : Byte) :
    Local fun bs => parseVexTail m64 r x b (q :: bs) :=
  local_of_cons rfl fun _ => .ite (local_error _) (.ite (local_error _) (local_ok _))

theorem parseVex3_local (m64 : Bool) (q : Byte) : Local fun bs => parseVex3 m64 (q :: bs) := by
  simp only [parseVex3]
  exact .ite (local_error _) (local_of_cons rfl fun q' => parseVexTail_local _ _ _ _ q')

theorem parseEvex_local (m64 : Bool) (q : Byte) : Local fun bs => parseEvex m64 (q :: bs) := by
  refine local_of_cons rfl fun p1 => local_of_cons rfl fun p2 => local_of_cons rfl fun op => ?_
  simp only [parseEvex]
  refine .ite (local_error _) (.ite (local_error _) (.ite (local_error _) (.ite (local_error _) ?_)))
  cases evexForm (field p2 5 2) with
  | none => exact local_error _
  | some f => exact local_ok _

/-- `C4`, `C5` or `62`, after prefixes that may stand before it, where it begins VEX or EVEX by
the next byte. -/
theorem parseHeader_vexFirst_local {b : Byte} (hb : b ∈ vexBytesFirst) (m64 : Bool) (p : Prefixes)
    (rex : Option Rex) : Local fun bs => parseHeader m64 p rex (b :: bs) := by
  have hnext (q : Byte) : Local fun bs =>
      if b = 0xC5#8 then parseVex2 m64 (q :: bs)
      else if b = 0xC4#8 then parseVex3 m64 (q :: bs)
      else parseEvex m64 (q :: bs) :=
    .ite (parseVexTail_local _ _ _ _ q) (.ite (parseVex3_local m64 q) (parseEvex_local m64 q))
  simp only [parseHeader_vexFirst hb]
  cases m64 with
  | true =>
    refine .ite (local_error _) (local_of_cons ?_ hnext)
    split_ifs <;> rfl
  | false =>
    refine local_of_cons rfl fun q => ?_
    simp only [prefixSelected_cons]
    cases field q 6 2 == 3#2 with
    | false => exact local_error _
    | true => exact .ite (local_error _) (hnext q)

theorem parseHeader_cons_local (m64 : Bool) (p : Prefixes) (rex : Option Rex) (b : Byte) :
    Local fun bs => parseHeader m64 p rex (b :: bs) := by
  by_cases h0F : b = 0x0F#8
  · subst h0F
    exact parseLegacy_local p rex
  by_cases hb : b ∈ vexBytesFirst
  · exact parseHeader_vexFirst_local hb m64 p rex
  · simp only [vexBytesFirst, List.mem_cons, List.not_mem_nil, or_false, not_or] at hb
    simp only [parseHeader, h0F, hb, if_false, or_self]
    exact local_error _

theorem parseOpcode_local (m64 : Bool) (p : Prefixes) : Local (parseOpcode m64 p) := by
  refine local_of_cons (by cases m64 <;> rfl) fun b => ?_
  by_cases hrex : (m64 && field b 4 4 == 4#4) = true
  · simp only [parseOpcode, takeRex, if_pos hrex]
    exact local_of_cons rfl (parseHeader_cons_local m64 p _)
  · simp only [parseOpcode, takeRex, if_neg hrex]
    exact parseHeader_cons_local m64 p none b

theorem takeDisp_local (mod : BitVec 2) (wide : Bool) (n : Nat) : Local (takeDisp mod wide n) :=
  .ite (local_of_cons rfl fun _ => local_of_cons rfl fun _ => local_of_cons rfl fun _ =>
    local_of_cons rfl fun _ => local_ok _) (.ite (local_of_cons rfl fun _ => local_ok _) (local_ok _))

theorem finish_local (c : RmContext) (mod : BitVec 2) (wide : Bool) (base : Base)
    (index : Option Index) : Local (c.finish mod wide base index) := by
  refine .bind (Q := fun d bs =>
    .ok (.mem ⟨c.addr32, c.override.getD base.defaultSeg, base, index, d⟩, bs)) (fun bs => ?_)
    (takeDisp_local mod wide c.scale) fun _ => local_ok _
  unfold RmContext.finish
  cases takeDisp mod wide c.scale bs <;> rfl

theorem parseMem_local (c : RmContext) (mod : BitVec 2) (rm : BitVec 3) :
    Local (parseMem c mod rm) :=
  .ite (local_of_cons rfl fun _ => .ite (finish_local _ _ _ _ _) (finish_local _ _ _ _ _))
    (.ite (finish_local _ _ _ _ _) (finish_local _ _ _ _ _))

theorem parseOperand_local (m64 code16 : Bool) (p : Prefixes) (h : Header) :
    Local (parseOperand m64 code16 p h) := by
  refine local_of_cons rfl fun modrm => ?_
  simp only [parseOperand, parseModRM]
  by_cases hmod : field modrm 6 2 = 3#2
  · simp only [if_pos hmod]
    exact local_ok _
  by_cases h16 : (rmContext m64 code16 p h).addr16 = true
  · simp only [if_neg hmod, if_pos h16]
    exact local_error _
  · simp only [if_neg hmod, if_neg h16]
    refine .bind (Q := fun op bs => .ok ((h, field modrm 3 3, op), bs)) (fun bs => ?_)
      (parseMem_local (rmContext m64 code16 p h) (field modrm 6 2) (field modrm 0 3))
      fun _ => local_ok _
    cases parseMem (rmContext m64 code16 p h) (field modrm 6 2) (field modrm 0 3) bs <;> rfl

theorem parseBody_local (m64 code16 : Bool) (p : Prefixes) : Local (parseBody m64 code16 p) := by
  refine .bind (fun bs => ?_) (parseOpcode_local m64 p) (parseOperand_local m64 code16 p)
  unfold parseBody
  cases parseOpcode m64 p bs <;> rfl

/-! ### The whole decoder -/

theorem parseBody_nil (m64 code16 : Bool) (p : Prefixes) :
    parseBody m64 code16 p [] = .error .truncated := by cases m64 <;> rfl

/-- The decoder but for the limit of 15 bytes depends on its bytes alone: bytes cut off among the
legacy prefixes have no opcode part yet. -/
theorem parse_local (m64 code16 : Bool) : Local (parse m64 code16) := by
  intro bs x rest h
  obtain ⟨ps, body, rfl, hps, hbody⟩ := exists_prefixes_append bs
  rw [parse_append hps hbody] at h
  obtain ⟨c, rfl, hc⟩ := parseBody_local m64 code16 (prefixesOf ps) body x rest h
  have hnil : c ≠ [] := by
    rintro rfl
    have := hc.append []
    simp [parseBody_nil] at this
  have hfirst (rest' : List Byte) : NoPrefixFirst (c ++ rest') := by
    cases c with
    | nil => exact absurd rfl hnil
    | cons b c => exact (noPrefixFirst_cons _ _).mpr ((noPrefixFirst_cons _ _).mp hbody)
  refine ⟨ps ++ c, by rw [List.append_assoc], fun rest' => ?_, fun k hk => ?_⟩
  · rw [List.append_assoc, parse_append hps (hfirst rest')]
    exact hc.append rest'
  · have hfirst' : NoPrefixFirst c := by simpa using hfirst []
    rw [List.length_append] at hk
    rw [List.take_append, parse_append (fun p hp => hps p (List.mem_of_mem_take hp)) (hfirst'.take _)]
    by_cases hkp : k < ps.length
    · rw [show k - ps.length = 0 by omega, List.take_zero, parseBody_nil]
    · rw [List.take_of_length_le (by omega)]
      exact hc.take _ (by omega)

/-- What the decoder gives it reads from `i.len` bytes, at most 15. -/
theorem decode_reads {m64 code16 : Bool} {bs : List Byte} {i : Instr}
    (h : decode m64 code16 bs = .ok i) :
    ∃ (c rest : List Byte) (x : Parsed), bs = c ++ rest ∧ Reads (parse m64 code16) c x ∧
      i = x.instr c.length ∧ c.length ≤ 15 := by
  rw [decode_eq] at h
  split at h
  · nomatch h
  next x rest hx =>
  obtain ⟨c, rfl, hc⟩ := parse_local m64 code16 bs x rest hx
  simp only [List.length_append, Nat.add_sub_cancel] at h
  split at h
  · nomatch h
  next hle =>
  exact ⟨c, rest, x, rfl, hc, (Except.ok.inj h).symm, Nat.le_of_not_lt hle⟩

/-- Settles O40: the bytes that the parts of the decoder took are the instruction's `len` bytes. -/
theorem decodeDependsOnlyOnItsBytes : Obligations.DecodeDependsOnlyOnItsBytes := by
  intro m64 code16 bs i h
  obtain ⟨c, rest, x, rfl, hc, rfl, hle⟩ := decode_reads h
  have hlen : (x.instr c.length).len = c.length := Header.len_instr ..
  have htake (k : Nat) (hk : k ≤ c.length) : (c ++ rest).take k = c.take k :=
    List.take_append_of_le_length hk
  rw [hlen]
  refine ⟨by simp, fun rest' => ?_, fun k hk => ?_⟩
  · rw [htake _ (Nat.le_refl _), List.take_length, decode_of_parse (hc.append rest'), if_pos hle]
  · rw [htake k hk.le, decode_of_parse_error (hc.take k hk)]

end Sys2Proof
end

section
/-!
PROOFS. What prefixes before an instruction do: redundant ones only add to the length (O41, O50),
others make the encoding illegal or another instruction (O44 to O46), and FS and GS overrides count in
64-bit mode (O52).
-/

namespace Sys2Proof

open Machine (isLegacyPrefix neutralPrefixes RedundantBefore)

/-! ### Decoding after legacy prefixes -/

/-- An instruction after legacy prefixes. -/
theorem decode_of_parseBody {m64 code16 : Bool} {ps c rest : List Byte} {x : Parsed}
    (hps : ∀ p ∈ ps, isLegacyPrefix p = true) (hfirst : NoPrefixFirst (c ++ rest))
    (h : parseBody m64 code16 (prefixesOf ps) (c ++ rest) = .ok (x, rest)) :
    decode m64 code16 (ps ++ (c ++ rest)) =
      if ps.length + c.length ≤ 15 then .ok (x.instr (ps.length + c.length))
      else .error .tooLong := by
  rw [← List.length_append, ← List.append_assoc]
  exact decode_of_parse (by rw [List.append_assoc, parse_append hps hfirst, h])

/-- An error of the opcode part after legacy prefixes. -/
theorem decode_of_parseOpcode_error {m64 code16 : Bool} {ps body : List Byte} {e : DecodeError}
    (hps : ∀ p ∈ ps, isLegacyPrefix p = true) (hfirst : NoPrefixFirst body)
    (h : parseOpcode m64 (prefixesOf ps) body = .error e) :
    decode m64 code16 (ps ++ body) = .error e := by
  refine decode_of_parse_error ?_
  rw [parse_append hps hfirst, parseBody, h]

theorem parseBody_of_parseOpcode {m64 code16 : Bool} {p : Prefixes} {bs bs' : List Byte} {h : Header}
    (hok : parseOpcode m64 p bs = .ok (h, bs')) :
    parseBody m64 code16 p bs = parseOperand m64 code16 p h bs' := by
  rw [parseBody, hok]

/-- The opcode part looks at the prefixes `66`, `F0`, `F2` and `F3` alone. -/
theorem parseOpcode_congr {p q : Prefixes} (hop : q.opSize = p.opSize) (hlock : q.lock = p.lock)
    (hrepne : q.repne = p.repne) (hrep : q.rep = p.rep) (m64 : Bool) :
    parseOpcode m64 q = parseOpcode m64 p := by
  have hlegacy : parseLegacy q = parseLegacy p := by
    funext rex bs
    cases bs with
    | nil => rfl
    | cons op bs => simp only [parseLegacy, hop, hlock, hrepne, hrep]
  have hforbids : forbidsVex q = forbidsVex p := by
    funext rex
    simp only [forbidsVex, hop, hlock, hrepne, hrep]
  have hheader : parseHeader m64 q = parseHeader m64 p := by
    funext rex bs
    cases bs with
    | nil => rfl
    | cons b bs => simp only [parseHeader, hlegacy, hforbids]
  funext bs
  simp only [parseOpcode, hheader]

theorem parseMem_mem {c : RmContext} {mod : BitVec 2} {rm : BitVec 3} {bs rest : List Byte}
    {op : RmOperand} (hok : parseMem c mod rm bs = .ok (op, rest)) : ∃ m, op = .mem m := by
  have hfinish {wide base index bs} (h : c.finish mod wide base index bs = .ok (op, rest)) :
      ∃ m, op = .mem m := by
    obtain ⟨d, -, hop⟩ := finish_ok h
    exact ⟨_, hop⟩
  unfold parseMem at hok
  split at hok
  · cases bs with
    | nil => nomatch hok
    | cons sib bs =>
      dsimp only at hok
      split at hok <;> exact hfinish hok
  · split at hok <;> exact hfinish hok

/-- A register operand is a ModRM byte with `mod` = 11, whatever stands around it (R77). -/
theorem parseModRM_eq_reg_iff (c : RmContext) (bs rest : List Byte) (reg rm : BitVec 3) :
    parseModRM c bs = .ok (reg, .reg rm, rest) ↔
      ∃ modrm, bs = modrm :: rest ∧ field modrm 6 2 = 3#2 ∧ reg = field modrm 3 3 ∧
        rm = field modrm 0 3 := by
  constructor
  · intro hok
    cases bs with
    | nil => nomatch hok
    | cons modrm bs =>
      simp only [parseModRM] at hok
      split at hok
      · next hmod =>
        obtain ⟨rfl, rfl, rfl⟩ := hok
        exact ⟨modrm, rfl, hmod, rfl, rfl⟩
      split at hok
      · nomatch hok
      split at hok
      · nomatch hok
      next hmem =>
      obtain ⟨m, rfl⟩ := parseMem_mem hmem
      nomatch hok
  · rintro ⟨modrm, rfl, hmod, rfl, rfl⟩
    simp [parseModRM, hmod]

/-- With a register operand, segment overrides, `67` and the size of the code segment have no effect
(R87, last sentence). -/
theorem parseBody_reg_congr {m64 code16 code16' : Bool} {p q : Prefixes} {bs rest : List Byte}
    {h : Header} {reg rm : BitVec 3} (hop : q.opSize = p.opSize) (hlock : q.lock = p.lock)
    (hrepne : q.repne = p.repne) (hrep : q.rep = p.rep)
    (hok : parseBody m64 code16 p bs = .ok ((h, reg, .reg rm), rest)) :
    parseBody m64 code16' q bs = .ok ((h, reg, .reg rm), rest) := by
  unfold parseBody parseOperand at hok ⊢
  rw [parseOpcode_congr hop hlock hrepne hrep m64]
  split at hok
  · nomatch hok
  next h' bs' _ =>
  split at hok
  · nomatch hok
  next hmodrm =>
  obtain ⟨⟨rfl, rfl, rfl⟩, rfl⟩ := hok
  rw [parseModRM_eq_reg_iff] at hmodrm
  rw [(parseModRM_eq_reg_iff (rmContext m64 code16' q h) _ _ _ _).mpr hmodrm]

/-! ### Redundant prefixes -/

theorem isLegacyPrefix_of_neutral : ∀ p ∈ neutralPrefixes, isLegacyPrefix p = true := by decide

/-- Segment overrides and `67` say nothing to the opcode part. -/
theorem prefixesOf_neutral {ps : List Byte} (h : ∀ p ∈ ps, p ∈ neutralPrefixes) :
    (prefixesOf ps).opSize = false ∧ (prefixesOf ps).lock = false ∧
      (prefixesOf ps).repne = false ∧ (prefixesOf ps).rep = false := by
  have hnot (b : Byte) (hb : b ∉ neutralPrefixes) : ps.contains b = false := by
    rw [List.contains_eq_mem, decide_eq_false_iff_not]
    exact fun hmem => hb (h b hmem)
  exact ⟨hnot _ (by decide), hnot _ (by decide), hnot _ (by decide), hnot _ (by decide)⟩

/-- Segment overrides and `67` in front of an instruction with a register operand. -/
theorem parse_neutral_append {m64 code16 code16' : Bool} {ps bs rest : List Byte} {h : Header}
    {reg rm : BitVec 3} (hps : ∀ p ∈ ps, p ∈ neutralPrefixes)
    (hok : parse m64 code16 bs = .ok ((h, reg, .reg rm), rest)) :
    parse m64 code16' (ps ++ bs) = .ok ((h, reg, .reg rm), rest) := by
  obtain ⟨qs, body, rfl, hqs, hbody⟩ := exists_prefixes_append bs
  obtain ⟨hop, hlock, hrepne, hrep⟩ := prefixesOf_neutral hps
  rw [parse_append hqs hbody] at hok
  have hall : ∀ p ∈ ps ++ qs, isLegacyPrefix p = true := by
    intro p hp
    exact (List.mem_append.mp hp).elim (fun hp => isLegacyPrefix_of_neutral p (hps p hp)) (hqs p)
  rw [← List.append_assoc, parse_append hall hbody, prefixesOf_append]
  exact parseBody_reg_congr (by simp [Prefixes.merge, hop]) (by simp [Prefixes.merge, hlock])
    (by simp [Prefixes.merge, hrepne]) (by simp [Prefixes.merge, hrep]) hok

/-- More operand-size bytes in front of the legacy 128-bit form, which has one. -/
theorem parse_opSize_append {m64 code16 : Bool} {bs rest : List Byte} {x : Parsed} {n : Nat}
    (hform : x.1.form = .sse128) (hok : parse m64 code16 bs = .ok (x, rest)) :
    parse m64 code16 (List.replicate n 0x66#8 ++ bs) = .ok (x, rest) := by
  obtain ⟨qs, body, rfl, hqs, hbody⟩ := exists_prefixes_append bs
  rw [parse_append hqs hbody] at hok
  have hop : (prefixesOf qs).opSize = true := by
    obtain ⟨-, hallow, -⟩ := parseBody_ok hok
    rw [hallow.opSize, hform]
    rfl
  have hsame : prefixesOf (List.replicate n 0x66#8 ++ qs) = prefixesOf qs := by
    rw [prefixesOf_append]
    have hsize : prefixesOf (List.replicate n 0x66#8) =
        { Prefixes.empty with opSize := (List.replicate n 0x66#8).contains 0x66#8 } := by
      simp [prefixesOf, Prefixes.empty, overrideSeg]
    rw [hsize]
    generalize prefixesOf qs = q at hop
    obtain ⟨op, addr, lock, repne, rep, segs⟩ := q
    obtain rfl : op = true := hop
    simp [Prefixes.merge, Prefixes.empty]
  have hall : ∀ p ∈ List.replicate n 0x66#8 ++ qs, isLegacyPrefix p = true := by
    intro p hp
    exact (List.mem_append.mp hp).elim (fun hp => List.eq_of_mem_replicate hp ▸ rfl) (hqs p)
  rw [← List.append_assoc, parse_append hall hbody, hsame, hok]

/-- Redundant prefixes are read without a trace. -/
theorem parse_redundant_append {m64 code16 : Bool} {bs rest : List Byte} {x : Parsed} {p : Byte}
    {len : Nat} (n : Nat) (hp : RedundantBefore (x.instr len) p)
    (hok : parse m64 code16 bs = .ok (x, rest)) :
    parse m64 code16 (List.replicate n p ++ bs) = .ok (x, rest) := by
  obtain ⟨h, reg, op⟩ := x
  rcases hp with ⟨hnone, hp⟩ | ⟨hform, rfl⟩
  · cases op with
    | mem m =>
      have : ((Parsed.instr (h, reg, .mem m) len)).memOperand = some m :=
        (Instr.rm_eq_mem _ m).mp (Header.rm_instr ..)
      simp [this] at hnone
    | reg rm => exact parse_neutral_append (fun q hq => List.eq_of_mem_replicate hq ▸ hp) hok
  · exact parse_opSize_append (by rw [← hform]; exact (Header.form_instr ..).symm) hok

/-- Settles O41: redundant prefixes are read without a trace, so only the length grows. -/
theorem redundantPrefixesOnlyAddLength : Obligations.RedundantPrefixesOnlyAddLength := by
  intro m64 code16 bs i p n h hp
  obtain ⟨c, rest, x, rfl, hc, rfl, -⟩ := decode_reads h
  have hlen : (x.instr c.length).len = c.length := Header.len_instr ..
  have hwith : (x.instr c.length).withLen (c.length + n) = x.instr (n + c.length) := by
    rw [Nat.add_comm n]
    exact Header.withLen_instr ..
  have hparse := parse_redundant_append n hp (hc.append rest)
  rw [← List.append_assoc] at hparse ⊢
  rw [decode_of_parse hparse, hlen, hwith, List.length_append, List.length_replicate,
    Nat.add_comm c.length]

/-! ### Prefixes that make the encoding illegal or another instruction -/

/-- A byte `40` to `4F` is REX in 64-bit mode and not among the legacy prefixes (R85.2). -/
theorem parseOpcode_rexLow (low : BitVec 4) (p : Prefixes) (bs : List Byte) :
    ∃ rex, parseOpcode true p ((4#4 ++ low : BitVec 8) :: bs) = parseHeader true p (some rex) bs := by
  have hrex : ∀ low : BitVec 4, field (4#4 ++ low : BitVec 8) 4 4 = 4#4 := by decide
  exact ⟨_, by simp only [parseOpcode, takeRex, hrex]; rfl⟩

theorem isLegacyPrefix_rexLow : ∀ low : BitVec 4, isLegacyPrefix (4#4 ++ low : BitVec 8) = false := by
  decide

theorem parseOpcode_0F (m64 : Bool) (p : Prefixes) (bs : List Byte) :
    parseOpcode m64 p (0x0F#8 :: bs) = parseLegacy p none bs := by
  rw [parseOpcode, takeRex_of_not_rex (by decide), parseHeader_0F]

/-- An error that `0F D5` has after the legacy prefixes, with or without REX, is the decoder's. -/
theorem decode_legacy_error {m64 code16 : Bool} {ps rest : List Byte} {e : DecodeError}
    (hps : ∀ p ∈ ps, isLegacyPrefix p = true)
    (h : ∀ rex, parseLegacy (prefixesOf ps) rex (0xD5#8 :: rest) = .error e) :
    decode m64 code16 (ps ++ 0x0F :: 0xD5 :: rest) = .error e ∧
      ∀ low : BitVec 4,
        decode true code16 (ps ++ (4#4 ++ low : BitVec 8) :: 0x0F :: 0xD5 :: rest) = .error e := by
  constructor
  · refine decode_of_parseOpcode_error hps ((noPrefixFirst_cons _ _).mpr rfl) ?_
    exact (parseOpcode_0F ..).trans (h none)
  · intro low
    refine decode_of_parseOpcode_error hps
      ((noPrefixFirst_cons _ _).mpr (isLegacyPrefix_rexLow low)) ?_
    obtain ⟨rex, hrex⟩ := parseOpcode_rexLow low (prefixesOf ps) (0x0F :: 0xD5 :: rest)
    rw [hrex]
    exact h (some rex)

/-- Settles O44: after the repeat prefixes the decoder looks at LOCK, before the operand and the
length. -/
theorem lockedLegacyFormIsUD : Obligations.LockedLegacyFormIsUD := by
  intro m64 code16 ps rest hps hF0 hF2 hF3
  refine decode_legacy_error hps fun rex => ?_
  simp [parseLegacy, prefixesOf, hF0, hF2, hF3]

/-- Settles O45: the decoder looks at the repeat prefixes first. -/
theorem repeatPrefixIsRefused : Obligations.RepeatPrefixIsRefused := by
  intro m64 code16 ps rest hps hrep
  refine decode_legacy_error hps fun rex => ?_
  simp [parseLegacy, prefixesOf, hrep]

/-- `C4`, `C5` or `62` after legacy prefixes. -/
theorem parseOpcode_vexFirst {b : Byte} (hb : b ∈ vexBytesFirst) (m64 : Bool) (p : Prefixes)
    (bs : List Byte) : parseOpcode m64 p (b :: bs) = parseHeader m64 p none (b :: bs) := by
  rw [parseOpcode, takeRex_of_not_rex (field_of_mem_vexBytesFirst b hb)]

/-- Settles O46: where `C4`, `C5` or `62` begins VEX or EVEX, the prefixes before it are looked
at first. -/
theorem prefixBeforeVexIsUD : Obligations.PrefixBeforeVexIsUD := by
  intro code16 ps rest b hps hb
  have hfirst (bs : List Byte) : NoPrefixFirst (b :: bs) :=
    (noPrefixFirst_cons _ _).mpr (isLegacyPrefix_of_mem_vexBytesFirst b hb)
  have hplain {m64 : Bool} {bs : List Byte} {e : DecodeError}
      (h : parseHeader m64 (prefixesOf ps) none (b :: bs) = .error e) :
      decode m64 code16 (ps ++ b :: bs) = .error e :=
    decode_of_parseOpcode_error hps (hfirst bs) ((parseOpcode_vexFirst hb ..).trans h)
  refine ⟨fun hbad => ?_, fun low => ?_, fun next hnext => ?_, ?_⟩
  · have hforbids : forbidsVex (prefixesOf ps) none = true := by
      simpa [forbidsVex, prefixesOf, or_assoc] using hbad
    refine ⟨hplain ?_, fun next hnext => hplain ?_⟩
    · rw [parseHeader_vexFirst hb]
      simp [hforbids]
    · rw [parseHeader_vexFirst hb, prefixSelected_of_bits fun _ => hnext]
      simp [hforbids]
  · refine decode_of_parseOpcode_error hps
      ((noPrefixFirst_cons _ _).mpr (isLegacyPrefix_rexLow low)) ?_
    obtain ⟨rex, hrex⟩ := parseOpcode_rexLow low (prefixesOf ps) (b :: rest)
    rw [hrex, parseHeader_vexFirst hb]
    simp [forbidsVex]
  · refine hplain ?_
    have hsel : (field next 6 2 == 3#2) = false := beq_eq_false_iff_ne.mpr hnext
    rw [parseHeader_vexFirst hb, prefixSelected_cons, hsel]
  · refine hplain ?_
    rw [parseHeader_vexFirst hb, prefixSelected_nil]

/-! ### 16-bit addressing -/

/-- The opcode bytes of a form outside 64-bit mode: what of them are legacy prefixes, and the
header that the rest reads as, after any segment overrides and `67`. -/
theorem opcodeOutside64_parts {head : List Byte} (h : Machine.OpcodeOutside64 head) :
    ∃ qs c, head = qs ++ c ∧ (∀ q ∈ qs, isLegacyPrefix q = true) ∧
      (∀ bs, NoPrefixFirst (c ++ bs)) ∧
      ∀ ps : List Byte, (∀ p ∈ ps, p ∈ neutralPrefixes) →
        ∃ hd, ∀ bs, parseOpcode false (prefixesOf (ps ++ qs)) (c ++ bs) = .ok (hd, bs) := by
  have hvex {ps : List Byte} (hps : ∀ p ∈ ps, p ∈ neutralPrefixes) :
      forbidsVex (prefixesOf (ps ++ [])) none = false := by
    obtain ⟨hop, hlock, hrepne, hrep⟩ := prefixesOf_neutral hps
    simp [forbidsVex, hop, hlock, hrepne, hrep]
  rcases h with rfl | rfl | ⟨p, hsel, hpp, rfl⟩ | ⟨p, hv3, hpp, rfl⟩ |
    ⟨p1, p2, hv3, hfix, hpp, hv4, hb, hll, hz, rfl⟩
  · refine ⟨[], _, rfl, nofun, fun _ => (noPrefixFirst_cons _ _).mpr rfl, fun ps hps => ?_⟩
    obtain ⟨-, hlock, hrepne, hrep⟩ := prefixesOf_neutral hps
    exact ⟨_, fun bs => parseOpcode_legacy (r := false) (x := false) (b := false)
      (by simpa using hlock) (by simpa using hrepne) (by simpa using hrep) (fun _ => ⟨rfl, rfl, rfl⟩) bs⟩
  · refine ⟨[0x66#8], [0x0F#8, 0xD5#8], rfl, by simp [isLegacyPrefix],
      fun _ => (noPrefixFirst_cons _ _).mpr rfl, fun ps hps => ?_⟩
    obtain ⟨-, hlock, hrepne, hrep⟩ := prefixesOf_neutral hps
    have h66 : (prefixesOf [0x66#8]).lock = false ∧ (prefixesOf [0x66#8]).repne = false ∧
        (prefixesOf [0x66#8]).rep = false := by decide
    rw [prefixesOf_append]
    exact ⟨_, fun bs => parseOpcode_legacy (r := false) (x := false) (b := false)
      (by simp [Prefixes.merge, hlock, h66]) (by simp [Prefixes.merge, hrepne, h66])
      (by simp [Prefixes.merge, hrep, h66]) (fun _ => ⟨rfl, rfl, rfl⟩) bs⟩
  · refine ⟨[], _, rfl, nofun, fun _ => (noPrefixFirst_cons _ _).mpr rfl, fun ps hps => ?_⟩
    have hbits : ∀ p : Byte, field p 6 2 = 3#2 → bit p 6 = true := by decide
    have hpp' : field p 0 2 = 1#2 := hpp
    refine ⟨⟨if bit p 2 then .vex256 else .vex128, false, !bit p 7, false, false,
      vregOf false (!bit p 6) (~~~field p 3 3), 0, false⟩, fun bs => ?_⟩
    simp only [List.cons_append, List.nil_append]
    rw [parseOpcode_vexFirst (by decide), parseHeader_vexFirst (by decide),
      prefixSelected_of_bits fun _ => hsel, hvex hps]
    simp [parseVex2, parseVexTail, hpp', hbits p hsel]
  · refine ⟨[], _, rfl, nofun, fun _ => (noPrefixFirst_cons _ _).mpr rfl, fun ps hps => ?_⟩
    have hpp' : field p 0 2 = 1#2 := hpp
    have hv3' : bit p 6 = true := hv3
    have hE1 : field 0xE1#8 0 5 = 1#5 ∧ bit 0xE1#8 7 = true ∧ bit 0xE1#8 6 = true ∧
        bit 0xE1#8 5 = true := by decide
    refine ⟨⟨if bit p 2 then .vex256 else .vex128, false, false, false, false,
      vregOf false (!bit p 6) (~~~field p 3 3), 0, false⟩, fun bs => ?_⟩
    simp only [List.cons_append, List.nil_append]
    rw [parseOpcode_vexFirst (by decide), parseHeader_vexFirst (by decide),
      prefixSelected_of_bits fun _ => by decide, hvex hps]
    simp [parseVex3, parseVexTail, hE1, hpp', hv3']
  · refine ⟨[], _, rfl, nofun, fun _ => (noPrefixFirst_cons _ _).mpr rfl, fun ps hps => ?_⟩
    have hfix' : bit p1 2 = true := hfix
    have hpp' : field p1 0 2 = 1#2 := hpp
    have hv3' : bit p1 6 = true := hv3
    have hv4' : bit p2 3 = true := hv4
    have hmask : (bit p2 4 || (bit p2 7 && field p2 0 3 == 0#3)) = false := by
      have hb' : bit p2 4 = false := hb
      cases h7 : bit p2 7
      · simp [hb']
      · have hk : ¬ field p2 0 3 = 0#3 := hz h7
        simp [hb', hk]
    have hF1 : bit 0xF1#8 3 = false ∧ field 0xF1#8 0 3 = 1#3 ∧ bit 0xF1#8 4 = true ∧
        bit 0xF1#8 5 = true := by decide
    obtain ⟨f, hf⟩ : ∃ f, evexForm (field p2 5 2) = some f := by
      have : ∀ ll : BitVec 2, ll ≠ 3 → (evexForm ll).isSome = true := by decide
      exact Option.isSome_iff_exists.mp (this _ hll)
    refine ⟨⟨f, false, !bit 0xF1#8 7, !bit 0xF1#8 6, false,
      vregOf false false (~~~field p1 3 3), reg3Of (field p2 0 3), bit p2 7⟩, fun bs => ?_⟩
    simp only [List.cons_append, List.nil_append]
    rw [parseOpcode_vexFirst (by decide), parseHeader_vexFirst (by decide),
      prefixSelected_of_bits fun _ => by decide, hvex hps]
    simp [parseEvex, hF1, hfix', hpp', hv3', hv4', hmask, hf]

/-- Outside 64-bit mode a memory operand with `67` or in a 16-bit code segment is refused. -/
theorem parseOperand_address16 {code16 : Bool} {p : Prefixes} {h : Header} {mod : BitVec 2}
    (hmod : mod ≠ 3) (h16 : p.addrSize = true ∨ code16 = true) (reg rm : BitVec 3)
    (bs : List Byte) :
    parseOperand false code16 p h (modrmByte mod reg rm :: bs) = .error .address16 := by
  have haddr : (rmContext false code16 p h).addr16 = true := by
    simpa [rmContext, or_comm] using h16
  have hmod' : mod ≠ 3#2 := hmod
  simp [parseOperand, parseModRM, haddr, hmod']

/-- A register operand reads back in every context. -/
theorem parseOperand_reg (m64 code16 : Bool) (p : Prefixes) (h : Header) (reg rm : BitVec 3)
    (bs : List Byte) :
    parseOperand m64 code16 p h (modrmByte 3 reg rm :: bs) = .ok ((h, reg, .reg rm), bs) := by
  have hmodrm := parseModRM_reg (rmContext m64 code16 p h) reg rm bs
  rw [parseOperand, show (3 : BitVec 2) = 3#2 from rfl, hmodrm]

/-- A legacy form with a register operand, after legacy prefixes without LOCK and repeat prefixes
and with REX where an extension bit is set. -/
theorem decode_legacy_reg {m64 code16 r x b : Bool} {ps rest : List Byte} {reg rm : BitVec 3}
    (hps : ∀ p ∈ ps, isLegacyPrefix p = true) (hlock : (prefixesOf ps).lock = false)
    (hrepne : (prefixesOf ps).repne = false) (hrep : (prefixesOf ps).rep = false)
    (hout : m64 = false → r = false ∧ x = false ∧ b = false)
    (hlen : ps.length + (rexBytes r x b).length + 3 ≤ 15) :
    decode m64 code16 (ps ++ (rexBytes r x b ++ 0x0F :: 0xD5 :: modrmByte 3 reg rm :: rest)) =
      .ok (Header.instr ⟨if (prefixesOf ps).opSize then .sse128 else .mmx64, false, r, x, b, 0, 0, false⟩
        reg (.reg rm) (ps.length + (rexBytes r x b).length + 3)) := by
  have hfirst : NoPrefixFirst ((rexBytes r x b ++ [0x0F, 0xD5, modrmByte 3 reg rm]) ++ rest) := by
    simpa [Header.bytes] using noPrefixFirst_bytes ⟨.mmx64, false, r, x, b, 0, 0, false⟩
      (modrmByte 3 reg rm :: rest)
  have hbody : parseBody m64 code16 (prefixesOf ps)
      ((rexBytes r x b ++ [0x0F, 0xD5, modrmByte 3 reg rm]) ++ rest) =
        .ok ((⟨if (prefixesOf ps).opSize then .sse128 else .mmx64, false, r, x, b, 0, 0, false⟩,
          reg, .reg rm), rest) := by
    rw [List.append_assoc]
    exact (parseBody_of_parseOpcode (parseOpcode_legacy hlock hrepne hrep hout _)).trans
      (parseOperand_reg ..)
  have hdecode := decode_of_parseBody hps hfirst hbody
  rw [List.append_assoc, List.length_append, List.length_cons, ← Nat.add_assoc] at hdecode
  exact hdecode.trans (if_pos hlen)

theorem vregOf_low : ∀ r : BitVec 3, vregOf false false r = Fin.ofNat 32 r.toNat := by decide

/-- Settles O50: the opcode part reads as without segment overrides and `67`, and only a memory
operand asks for the address size. -/
theorem sixteenBitAddressingIsRefused : Obligations.SixteenBitAddressingIsRefused := by
  intro code16 mod reg rm rest
  constructor
  · intro ps head hps hhead
    obtain ⟨qs, c, rfl, hqs, hfirst, hopcode⟩ := opcodeOutside64_parts hhead
    have hall : ∀ p ∈ ps ++ qs, isLegacyPrefix p = true := by
      intro p hp
      exact (List.mem_append.mp hp).elim (fun hp => isLegacyPrefix_of_neutral p (hps p hp)) (hqs p)
    constructor
    · intro hmod h16
      obtain ⟨hd, hhd⟩ := hopcode ps hps
      have haddr : (prefixesOf (ps ++ qs)).addrSize = true ∨ code16 = true := by
        refine h16.imp_left fun h67 => ?_
        simp [prefixesOf, h67]
      refine decode_of_parse_error ?_
      rw [← List.append_assoc, List.append_assoc (ps ++ qs), parse_append hall (hfirst _), parseBody,
        hhd]
      exact parseOperand_address16 hmod haddr reg rm rest
    · intro hle
      obtain ⟨hd, hhd⟩ := hopcode [] nofun
      rw [List.nil_append] at hhd
      have hparse : parse false false (qs ++ c ++ modrmByte 3 reg rm :: rest) =
          .ok ((hd, reg, .reg rm), rest) := by
        rw [List.append_assoc, parse_append hqs (hfirst _), parseBody, hhd]
        exact parseOperand_reg ..
      have hdecode {code16 : Bool} {xs : List Byte} (hxs : xs.length ≤ ps.length)
          (hp : parse false code16 (xs ++ (qs ++ c ++ modrmByte 3 reg rm :: rest)) =
            .ok ((hd, reg, .reg rm), rest)) :
          decode false code16 (xs ++ (qs ++ c ++ modrmByte 3 reg rm :: rest)) =
            .ok (hd.instr reg (.reg rm) (xs.length + ((qs ++ c).length + 1))) := by
        have hsplit : xs ++ (qs ++ c ++ modrmByte 3 reg rm :: rest) =
            (xs ++ (qs ++ c ++ [modrmByte 3 reg rm])) ++ rest := by simp
        rw [hsplit] at hp ⊢
        rw [decode_of_parse hp, if_pos (by simp at hle ⊢; omega)]
        simp [Parsed.instr, Nat.add_assoc]
      have hshort := hdecode (xs := []) (Nat.zero_le _) hparse
      rw [List.nil_append, List.length_nil, Nat.zero_add] at hshort
      refine ⟨_, hshort, ?_, Header.len_instr .., ?_⟩
      · refine Option.eq_none_iff_forall_ne_some.mpr fun m hm => ?_
        rw [← Instr.rm_eq_mem, Header.rm_instr] at hm
        nomatch hm
      · rw [List.append_assoc, hdecode (Nat.le_refl _) (parse_neutral_append hps hparse),
          Header.withLen_instr, Header.len_instr]
  · have h := decode_legacy_reg (m64 := false) (code16 := code16) (r := false) (x := false)
      (b := false) (ps := [0x67#8, 0x66#8]) (rest := rest) (reg := reg) (rm := rm) (by decide) rfl rfl
      rfl (fun _ => ⟨rfl, rfl, rfl⟩) (by decide)
    rw [← vregOf_low, ← vregOf_low]
    exact h

/-! ### Segment overrides in 64-bit mode -/

theorem segs_prefixesOf_map (segs : List SReg) (ps : List Byte) :
    (prefixesOf (segs.map overrideByte ++ ps)).segs = segs ++ (prefixesOf ps).segs := by
  induction segs with
  | nil => rfl
  | cons sg segs ih => simp [prefixesOf]

/-- Where overrides count, one of them is in force (R78.5). -/
theorem exists_override {m64 : Bool} {p : Prefixes} (h : p.countingSegs m64 ≠ []) :
    ∃ sg ∈ p.countingSegs m64, p.override m64 = some sg := by
  suffices hsome : ∃ sg, p.override m64 = some sg by
    obtain ⟨sg, hsg⟩ := hsome
    exact ⟨sg, override_mem hsg, hsg⟩
  unfold Prefixes.override
  split
  · contradiction
  · next sg rest _ =>
    split
    · exact ⟨sg, rfl⟩
    · exact ⟨_, List.getElem?_eq_getElem (Nat.mod_lt _ (by simp))⟩

/-- In 64-bit mode the overrides of FS and GS are those that count, where there are any (R78.5). -/
theorem mem_countingSegs_true {p : Prefixes} {sg : SReg} (hany : .fs ∈ p.segs ∨ .gs ∈ p.segs) :
    sg ∈ p.countingSegs true ↔ sg ∈ p.segs ∧ (sg = .fs ∨ sg = .gs) := by
  have : p.segs.any SReg.isFsGs = true := by
    rw [List.any_eq_true]
    exact hany.elim (fun h => ⟨_, h, rfl⟩) (fun h => ⟨_, h, rfl⟩)
  rw [Prefixes.countingSegs, this, Bool.and_self, if_pos rfl, List.mem_filter]
  simp [SReg.isFsGs]

theorem countingSegs_of_no_fsgs {m64 : Bool} {p : Prefixes} (hfs : .fs ∉ p.segs)
    (hgs : .gs ∉ p.segs) : p.countingSegs m64 = p.segs := by
  have : p.segs.any SReg.isFsGs = false := by
    rw [List.any_eq_false]
    intro sg hsg
    simp only [SReg.isFsGs, Bool.or_eq_true, beq_iff_eq, not_or]
    exact ⟨fun h => hfs (h ▸ hsg), fun h => hgs (h ▸ hsg)⟩
  rw [Prefixes.countingSegs, this, Bool.and_false]
  rfl

/-- An operand `[rax]` without index, `mod` = 00 or 01 (R77, R78). -/
theorem parseOperand_rax {m64 code16 : Bool} {p : Prefixes} {h : Header} {mod : BitVec 2} {d : BitVec 32}
    {bs rest : List Byte} (hm : m64 = true) (hb : h.b = false) (hmod : mod ≠ 3#2)
    (hdisp : takeDisp mod false h.form.dispScale bs = .ok (d, rest)) (reg : BitVec 3) :
    parseOperand m64 code16 p h (modrmByte mod reg 0#3 :: bs) =
      .ok ((h, reg, .mem ⟨p.addrSize, (p.override true).getD .ds, .reg 0, none, d⟩), rest) := by
  have hbase : gregOf false 0#3 = 0 := by decide
  have hseg : (Base.reg 0).defaultSeg = .ds := by decide
  subst hm
  simp [parseOperand, parseModRM, hmod, rmContext, parseMem, RmContext.finish, hb, hdisp, hbase, hseg]

/-- `66 0F D5 08` after segment overrides in 64-bit mode: the override in force, DS without one. -/
theorem decode_sse128_overrides (code16 : Bool) {segs : List SReg} (hle : segs.length ≤ 11)
    (rest : List Byte) :
    decode true code16 (segs.map overrideByte ++ 0x66 :: 0x0F :: 0xD5 :: 0x08 :: rest) =
      .ok (.pmullwSse128 1 (.mem ⟨false,
        ((prefixesOf (segs.map overrideByte ++ [0x66])).override true).getD .ds, .reg 0, none, 0⟩)
        (segs.length + 4)) := by
  have hps : ∀ p ∈ segs.map overrideByte ++ [0x66], isLegacyPrefix p = true := by
    intro p hp
    rcases List.mem_append.mp hp with hp | hp
    · obtain ⟨sg, -, rfl⟩ := List.mem_map.mp hp
      exact isLegacyPrefix_overrideByte sg
    · rw [List.mem_singleton.mp hp]; rfl
  have hflags : (prefixesOf (segs.map overrideByte ++ [0x66])).opSize = true ∧
      (prefixesOf (segs.map overrideByte ++ [0x66])).addrSize = false ∧
      (prefixesOf (segs.map overrideByte ++ [0x66])).lock = false ∧
      (prefixesOf (segs.map overrideByte ++ [0x66])).repne = false ∧
      (prefixesOf (segs.map overrideByte ++ [0x66])).rep = false := by
    have hne : ∀ b ∈ [0x67#8, 0xF0#8, 0xF2#8, 0xF3#8], ∀ sg, overrideByte sg ≠ b := by
      intro b hb sg
      revert b
      cases sg <;> decide
    simp only [List.forall_mem_cons] at hne
    simp [prefixesOf, hne]
  have hsplit : segs.map overrideByte ++ 0x66 :: 0x0F :: 0xD5 :: 0x08 :: rest =
      (segs.map overrideByte ++ [0x66]) ++ ([0x0F, 0xD5, 0x08] ++ rest) := by simp
  have hlen : (segs.map overrideByte ++ [0x66#8]).length = segs.length + 1 := by simp
  generalize segs.map overrideByte ++ [0x66] = ps at *
  obtain ⟨hop, haddr, hlock, hrepne, hrep⟩ := hflags
  have hopcode : parseOpcode true (prefixesOf ps) (0x0F :: 0xD5 :: 0x08 :: rest) =
      .ok (⟨.sse128, false, false, false, false, 0, 0, false⟩, 0x08 :: rest) := by
    have h := parseOpcode_legacy (m64 := true) (r := false) (x := false) (b := false) hlock hrepne
      hrep nofun (0x08 :: rest)
    rw [hop] at h
    exact h
  have hbody : parseBody true code16 (prefixesOf ps) ([0x0F, 0xD5, 0x08] ++ rest) =
      .ok ((⟨.sse128, false, false, false, false, 0, 0, false⟩, 1, .mem ⟨(prefixesOf ps).addrSize,
        ((prefixesOf ps).override true).getD .ds, .reg 0, none, 0⟩), rest) :=
    (parseBody_of_parseOpcode hopcode).trans
      (parseOperand_rax (mod := 0#2) rfl rfl (by decide) rfl 1#3)
  rw [hsplit, decode_of_parseBody hps ((noPrefixFirst_cons _ _).mpr rfl) hbody, haddr, hlen]
  have hd : vregOf false false 1#3 = 1 := by decide
  refine (if_pos (show segs.length + 1 + 3 ≤ 15 by omega)).trans ?_
  simp [Parsed.instr, Header.instr, Header.src, hd, Nat.add_assoc]

/-- Settles O52: FS and GS overrides push the others aside, and one that counts is in force. -/
theorem fsGsOverrideCountsIn64BitMode : Obligations.FsGsOverrideCountsIn64BitMode := by
  intro code16 segs rest hle
  have hdecode := decode_sse128_overrides code16 hle rest
  have hsegs : (prefixesOf (segs.map overrideByte ++ [0x66])).segs = segs := by
    rw [segs_prefixesOf_map]
    exact List.append_nil segs
  generalize prefixesOf (segs.map overrideByte ++ [0x66]) = p at hdecode hsegs
  subst hsegs
  have hforce (hany : .fs ∈ p.segs ∨ .gs ∈ p.segs) :
      ∃ sg ∈ p.segs, (sg = .fs ∨ sg = .gs) ∧ p.override true = some sg := by
    have hne : p.countingSegs true ≠ [] := by
      refine hany.elim (fun h => ?_) fun h => ?_
      · exact List.ne_nil_of_mem ((mem_countingSegs_true hany).mpr ⟨h, .inl rfl⟩)
      · exact List.ne_nil_of_mem ((mem_countingSegs_true hany).mpr ⟨h, .inr rfl⟩)
    obtain ⟨sg, hmem, hsg⟩ := exists_override hne
    obtain ⟨hin, hfg⟩ := (mem_countingSegs_true hany).mp hmem
    exact ⟨sg, hin, hfg, hsg⟩
  dsimp only
  refine ⟨fun hfs hgs => ?_, fun hgs hfs => ?_, fun hfs hgs => ?_, fun hfs hgs => ?_⟩
  · obtain ⟨sg, hin, rfl | rfl, hsg⟩ := hforce (.inl hfs)
    · rw [hdecode, hsg]; rfl
    · exact absurd hin hgs
  · obtain ⟨sg, hin, rfl | rfl, hsg⟩ := hforce (.inr hgs)
    · exact absurd hin hfs
    · rw [hdecode, hsg]; rfl
  · obtain ⟨sg, hin, rfl | rfl, hsg⟩ := hforce (.inl hfs)
    · left; rw [hdecode, hsg]; rfl
    · right; rw [hdecode, hsg]; rfl
  · have hbase (sg : SReg) (h1 : sg ≠ .fs) (h2 : sg ≠ .gs) (s : Machine.State)
        (hm : s.mode64 = true) : Machine.segmentBase sg s = 0 := by
      simp [Machine.segmentBase, hm, h1, h2]
    have hds : SReg.ds ≠ .fs ∧ SReg.ds ≠ .gs := by decide
    cases ho : p.override true with
    | none =>
      rw [ho] at hdecode
      exact ⟨.ds, hds.1, hds.2, hdecode, hbase .ds hds.1 hds.2⟩
    | some sg =>
      have hin : sg ∈ p.segs := mem_countingSegs (override_mem ho)
      have h1 : sg ≠ .fs := fun h => hfs (h ▸ hin)
      have h2 : sg ≠ .gs := fun h => hgs (h ▸ hin)
      rw [ho] at hdecode
      exact ⟨sg, h1, h2, hdecode, hbase sg h1 h2⟩

end Sys2Proof
end

section
/-!
PROOFS. Single encodings and fields (O42, O43, O47 to O49, O51).
-/

namespace Sys2Proof

open Machine (isLegacyPrefix)

/-- Settles O42, by evaluating the decoder on the nine words. -/
theorem writtenOutWordsDecode : Obligations.WrittenOutWordsDecode := by
  unfold Obligations.WrittenOutWordsDecode
  decide

/-! ### REX.R -/

theorem vregOf_low_high : ∀ r : BitVec 3, vregOf false false r = Fin.ofNat 32 r.toNat ∧
    vregOf false true r = Fin.ofNat 32 (8 + r.toNat) := by decide

/-- Settles O43: REX.R is bit 3 of the destination's number, and `44` is REX in 64-bit mode only. -/
theorem rexRReachesUpperRegisters : Obligations.RexRReachesUpperRegisters := by
  intro code16 reg rm rest
  have h66 : ∀ p ∈ [0x66#8], isLegacyPrefix p = true := by decide
  have hdest := vregOf_low_high reg
  have hsrc := vregOf_low_high rm
  refine ⟨?_, ?_, ?_, fun b hb => ?_⟩
  · have h := decode_legacy_reg (m64 := true) (code16 := code16) (r := true) (x := false) (b := false)
      (rest := rest) (reg := reg) (rm := rm) h66 rfl rfl rfl nofun (by decide)
    rw [← hdest.2, ← hsrc.1]
    exact h
  · have h := decode_legacy_reg (m64 := true) (code16 := code16) (r := false) (x := false) (b := false)
      (rest := rest) (reg := reg) (rm := rm) h66 rfl rfl rfl nofun (by decide)
    rw [← hdest.1, ← hsrc.1]
    exact h
  · refine decode_of_parseOpcode_error (ps := [0x66#8]) h66 ((noPrefixFirst_cons _ _).mpr rfl) ?_
    rw [parseOpcode, takeRex_false]
    rfl
  · obtain ⟨-, hrex, -⟩ := prefixBeforeVexIsUD code16 [] rest b nofun hb
    exact hrex 4#4

/-! ### Fields of the VEX and EVEX prefixes -/

/-- VEX or EVEX where no legacy prefixes stand before it. -/
theorem parse_vexFirst {b next : Byte} (hb : b ∈ vexBytesFirst) {m64 : Bool}
    (hsel : m64 = false → field next 6 2 = 3#2) (bs : List Byte) :
    parseOpcode m64 (prefixesOf []) (b :: next :: bs) =
      if b = 0xC5#8 then parseVex2 m64 (next :: bs)
      else if b = 0xC4#8 then parseVex3 m64 (next :: bs)
      else parseEvex m64 (next :: bs) := by
  rw [parseOpcode_vexFirst hb, parseHeader_vexFirst hb, prefixSelected_of_bits hsel]
  rfl

theorem decode_vexFirst_error {b : Byte} (hb : b ∈ vexBytesFirst) {m64 code16 : Bool}
    {bs : List Byte} {e : DecodeError} (h : parseOpcode m64 (prefixesOf []) (b :: bs) = .error e) :
    decode m64 code16 (b :: bs) = .error e :=
  decode_of_parseOpcode_error (ps := []) nofun
    ((noPrefixFirst_cons _ _).mpr (isLegacyPrefix_of_mem_vexBytesFirst b hb)) h

/-- Settles O47: the extension bits are looked at after map, `pp` and opcode, before the settings of
EVEX that are illegal. -/
theorem extensionBitsOutside64AreRefused : Obligations.ExtensionBitsOutside64AreRefused := by
  intro code16 b p p0 p1 p2 rest
  constructor
  · intro hsel hmap hpp hext
    refine decode_vexFirst_error (by decide) ?_
    have hmap' : field b 0 5 = 1#5 := hmap
    have hpp' : field p 0 2 = 1#2 := hpp
    have hext' : bit b 5 = false ∨ bit p 6 = false := hext
    rw [parse_vexFirst (by decide) fun _ => hsel]
    simp [parseVex3, parseVexTail, hmap', hpp', hext']
  · intro hsel hfix0 hmap hfix1 hpp hext
    refine decode_vexFirst_error (by decide) ?_
    have hfix0' : bit p0 3 = false := hfix0
    have hmap' : field p0 0 3 = 1#3 := hmap
    have hfix1' : bit p1 2 = true := hfix1
    have hpp' : field p1 0 2 = 1#2 := hpp
    have hext' : (!(bit p0 5 && bit p0 4 && bit p2 3 && bit p1 6)) = true := by
      simpa [bit, or_assoc, ← Bool.not_eq_true, imp_iff_not_or] using hext
    rw [parse_vexFirst (by decide) fun _ => hsel]
    simp only [parseEvex, hfix0', hfix1', hmap', hpp', hext']
    simp

/-- Settles O48: the fixed bits are looked at first, then map, `pp` and opcode, then `b`, `z` and
`L'L`. -/
theorem illegalEvexSettings : Obligations.IllegalEvexSettings := by
  intro code16 p0 p1 p2 rest
  constructor
  · intro hfix0 hfix1 hmap hpp hbad
    refine decode_vexFirst_error (by decide) ?_
    have hfix0' : bit p0 3 = false := hfix0
    have hmap' : field p0 0 3 = 1#3 := hmap
    have hfix1' : bit p1 2 = true := hfix1
    have hpp' : field p1 0 2 = 1#2 := hpp
    rw [parse_vexFirst (m64 := true) (by decide) nofun]
    by_cases hbz : (bit p2 4 || (bit p2 7 && field p2 0 3 == 0#3)) = true
    · simp [parseEvex, hfix0', hfix1', hmap', hpp', hbz]
    · have hll : field p2 5 2 = 3#2 := by
        rcases hbad with h | ⟨h7, hk⟩ | h
        · exact absurd (by simp [bit, h]) hbz
        · exact absurd (by simp [bit, field, h7, hk]) hbz
        · exact h
      have hnone : evexForm 3#2 = none := by decide
      simp only [parseEvex, hfix0', hfix1', hmap', hpp', hbz, hll, hnone]
      simp
  · intro hfix
    refine decode_vexFirst_error (by decide) ?_
    have hfix' : (bit p0 3 || !bit p1 2) = true := by simpa [bit] using hfix
    rw [parse_vexFirst (m64 := true) (by decide) nofun]
    simp [parseEvex, hfix']

/-! ### The W bit -/

/-- The W bit is in no field that the decoder reads. -/
theorem fields_flip_W : ∀ p : Byte,
    field (p ^^^ 0x80) 0 2 = field p 0 2 ∧ field (p ^^^ 0x80) 3 3 = field p 3 3 ∧
      bit (p ^^^ 0x80) 2 = bit p 2 ∧ bit (p ^^^ 0x80) 6 = bit p 6 := by decide

theorem parseVexTail_flip_W (m64 r x b : Bool) (p : Byte) (bs : List Byte) :
    parseVexTail m64 r x b ((p ^^^ 0x80) :: bs) = parseVexTail m64 r x b (p :: bs) := by
  obtain ⟨hpp, hv, hl, hv3⟩ := fields_flip_W p
  cases bs with
  | nil => rfl
  | cons op bs => simp only [parseVexTail, hpp, hv, hl, hv3]

theorem parseEvex_flip_W (m64 : Bool) (p0 p p2 : Byte) (bs : List Byte) :
    parseEvex m64 (p0 :: (p ^^^ 0x80) :: p2 :: bs) = parseEvex m64 (p0 :: p :: p2 :: bs) := by
  obtain ⟨hpp, hv, hl, hv3⟩ := fields_flip_W p
  cases bs with
  | nil => rfl
  | cons op bs => simp only [parseEvex, hpp, hv, hl, hv3]

/-- The decoder agrees on two byte strings of one length that read alike as VEX or EVEX. -/
theorem decode_vexFirst_congr {b next : Byte} (hb : b ∈ vexBytesFirst) {m64 code16 : Bool}
    {xs ys : List Byte} (hlen : xs.length = ys.length)
    (h : (if b = 0xC5#8 then parseVex2 m64 (next :: xs)
        else if b = 0xC4#8 then parseVex3 m64 (next :: xs) else parseEvex m64 (next :: xs)) =
      if b = 0xC5#8 then parseVex2 m64 (next :: ys)
        else if b = 0xC4#8 then parseVex3 m64 (next :: ys) else parseEvex m64 (next :: ys)) :
    decode m64 code16 (b :: next :: xs) = decode m64 code16 (b :: next :: ys) := by
  have hsel : prefixSelected m64 (next :: xs) = prefixSelected m64 (next :: ys) := by
    cases m64 <;> rfl
  have hheader : parseHeader m64 (prefixesOf []) none (b :: next :: xs) =
      parseHeader m64 (prefixesOf []) none (b :: next :: ys) := by
    rw [parseHeader_vexFirst hb, parseHeader_vexFirst hb, hsel, h]
  have hparse (zs : List Byte) : parse m64 code16 (b :: zs) =
      parseBody m64 code16 (prefixesOf []) (b :: zs) :=
    parse_append (ps := []) nofun
      ((noPrefixFirst_cons _ _).mpr (isLegacyPrefix_of_mem_vexBytesFirst b hb))
  rw [decode_eq, decode_eq, hparse, hparse, parseBody, parseBody, parseOpcode_vexFirst hb,
    parseOpcode_vexFirst hb, hheader]
  simp only [List.length_cons, hlen]

/-- Settles O49: no part of the decoder reads the W bit. -/
theorem wBitHasNoEffect : Obligations.WBitHasNoEffect := by
  intro m64 code16 b p0 p p2 rest
  constructor
  · have hvex3 : parseVex3 m64 (b :: (p ^^^ 0x80) :: rest) = parseVex3 m64 (b :: p :: rest) := by
      rw [parseVex3, parseVex3, parseVexTail_flip_W]
    exact decode_vexFirst_congr (b := 0xC4#8) (by decide) rfl hvex3
  · exact decode_vexFirst_congr (b := 0x62#8) (by decide) rfl (parseEvex_flip_W m64 p0 p p2 rest)

/-! ### The scaled displacement -/

/-- A scaled 8-bit displacement as a number (R83). -/
theorem scaled_disp8 (d8 : Byte) (n : Nat) :
    d8.signExtend 32 * BitVec.ofNat 32 n = BitVec.ofInt 32 (d8.toInt * n) := by
  rw [BitVec.ofInt_mul, BitVec.ofInt_natCast]
  rfl

/-- The operand `[rax + d]` in 64-bit mode. -/
def raxPlus (d : BitVec 32) : MemOperand := ⟨false, .ds, .reg 0, none, d⟩

/-- A header without extension bits and masking. -/
def plainHeader (f : Form) (s1 : VReg) : Header := ⟨f, false, false, false, false, s1, 0, false⟩

/-- Every form with the operand `[rax + disp8]` in 64-bit mode, `c` being its bytes up to the opcode
after `66`, where it has that. -/
theorem decode_rax_disp8 {code16 : Bool} {f : Form} {s1 : VReg} {ps c : List Byte}
    (hps : ps = if f = .sse128 then [0x66] else []) (hs1 : s1.val < 16)
    (hlegacy : f.encoding = .legacy → s1 = 0) (hc : (plainHeader f s1).bytes = c) (d8 : Byte)
    (rest : List Byte) :
    decode true code16 (ps ++ (c ++ 0x48 :: d8 :: rest)) =
      .ok ((plainHeader f s1).instr 1#3 (.mem (raxPlus (BitVec.ofInt 32 (d8.toInt * f.dispScale))))
        (ps.length + (c.length + 2))) := by
  have hprefixes : (∀ p ∈ ps, isLegacyPrefix p = true) ∧ ps.length ≤ 1 ∧
      prefixesOf ps = { Prefixes.empty with opSize := f == .sse128 } := by
    subst hps
    cases f <;> decide
  obtain ⟨hps, hle, hpsof⟩ := hprefixes
  have hok : (plainHeader f s1).Ok true := ⟨nofun, fun _ => ⟨rfl, hs1, rfl, rfl⟩, hlegacy, rfl⟩
  have hallow : (prefixesOf ps).Allow (plainHeader f s1) := by
    rw [hpsof]; exact ⟨rfl, rfl, rfl, rfl⟩
  have hoperand : parseOperand true code16 (prefixesOf ps) (plainHeader f s1) (0x48 :: d8 :: rest) =
      .ok ((plainHeader f s1, 1#3, .mem (raxPlus (BitVec.ofInt 32 (d8.toInt * f.dispScale)))),
        rest) := by
    rw [← scaled_disp8, hpsof]
    exact parseOperand_rax (mod := 1#2) rfl rfl (by decide) rfl 1#3
  have hbody : parseBody true code16 (prefixesOf ps) ((c ++ [0x48, d8]) ++ rest) =
      .ok ((plainHeader f s1, 1#3, .mem (raxPlus (BitVec.ofInt 32 (d8.toInt * f.dispScale)))),
        rest) := by
    rw [List.append_assoc, ← hc]
    exact (parseBody_of_parseOpcode (parseOpcode_bytes hok hallow _)).trans hoperand
  have hfirst : NoPrefixFirst ((c ++ [0x48, d8]) ++ rest) := by
    rw [List.append_assoc, ← hc]
    exact noPrefixFirst_bytes _ _
  have hshort : c.length ≤ 5 := by
    rw [← hc, Header.length_bytes]
    cases f <;> simp [plainHeader, Form.encoding]
  have hdecode := decode_of_parseBody hps hfirst hbody
  rw [List.append_assoc, List.length_append] at hdecode
  exact hdecode.trans (if_pos (show ps.length + (c.length + 2) ≤ 15 by omega))

/-- Settles O51: the factor of each form is its `dispScale`. -/
theorem disp8IsScaledInEvexForms : Obligations.Disp8IsScaledInEvexForms := by
  intro code16 d8 rest
  have hreg : vregOf false false 1#3 = 1 ∧ reg3Of 1#3 = 1 := by decide
  dsimp only
  refine ⟨?evex128, ?evex256, ?evex512, ?vex128, ?vex256, ?sse128, ?mmx64⟩
  case evex128 =>
    refine (decode_rax_disp8 (f := .evex128) (s1 := 2) (ps := []) (c := [0x62, 0xF1, 0x6D, 0x08, 0xD5])
      rfl (by decide) nofun (by decide) d8 rest).trans ?_
    simp [Header.instr, plainHeader, Header.src, hreg, raxPlus, Form.dispScale, Form.encoding, Form.vl]
  case evex256 =>
    refine (decode_rax_disp8 (f := .evex256) (s1 := 2) (ps := []) (c := [0x62, 0xF1, 0x6D, 0x28, 0xD5])
      rfl (by decide) nofun (by decide) d8 rest).trans ?_
    simp [Header.instr, plainHeader, Header.src, hreg, raxPlus, Form.dispScale, Form.encoding, Form.vl]
  case evex512 =>
    refine (decode_rax_disp8 (f := .evex512) (s1 := 2) (ps := []) (c := [0x62, 0xF1, 0x6D, 0x48, 0xD5])
      rfl (by decide) nofun (by decide) d8 rest).trans ?_
    simp [Header.instr, plainHeader, Header.src, hreg, raxPlus, Form.dispScale, Form.encoding, Form.vl]
  case vex128 =>
    refine (decode_rax_disp8 (f := .vex128) (s1 := 2) (ps := []) (c := [0xC5, 0xE9, 0xD5])
      rfl (by decide) nofun (by decide) d8 rest).trans ?_
    simp [Header.instr, plainHeader, Header.src, hreg, raxPlus, Form.dispScale, Form.encoding]
  case vex256 =>
    refine (decode_rax_disp8 (f := .vex256) (s1 := 2) (ps := []) (c := [0xC5, 0xED, 0xD5])
      rfl (by decide) nofun (by decide) d8 rest).trans ?_
    simp [Header.instr, plainHeader, Header.src, hreg, raxPlus, Form.dispScale, Form.encoding]
  case sse128 =>
    refine (decode_rax_disp8 (f := .sse128) (s1 := 0) (ps := [0x66]) (c := [0x0F, 0xD5])
      rfl (by decide) (fun _ => rfl) (by decide) d8 rest).trans ?_
    simp [Header.instr, plainHeader, Header.src, hreg, raxPlus, Form.dispScale, Form.encoding]
  case mmx64 =>
    refine (decode_rax_disp8 (f := .mmx64) (s1 := 0) (ps := []) (c := [0x0F, 0xD5])
      rfl (by decide) (fun _ => rfl) (by decide) d8 rest).trans ?_
    simp [Header.instr, plainHeader, mmxSrcOf, hreg, raxPlus, Form.dispScale, Form.encoding]

end Sys2Proof
end

section
/-!
PROOFS. Lanes and packed operands (O6, O7), addresses and the memory operand (O34 to O37), and the
state at the start of a run (O59, O60).
-/

namespace Sys2Proof.Machine

/-! ### The packed product -/

/-- Settles O6: a packed value has the lanes it was packed from. -/
theorem packedProductIsLanewise : Obligations.PackedProductIsLanewise := by
  intro w x y j hj
  exact lane_packLanes _ hj (Nat.mul_div_le w 16)

/-- A lane of a concatenation at a lane boundary. -/
theorem lane_append {k1 k0 : Nat} (x1 : BitVec (16 * k1)) (x0 : BitVec (16 * k0)) (j : Nat) :
    lane (x1 ++ x0) j = if j < k0 then lane x0 j else lane x1 (j - k0) := by
  apply BitVec.eq_of_getLsbD_eq
  intro i hi
  simp only [lane, BitVec.getLsbD_extractLsb', hi, decide_true, Bool.true_and,
    BitVec.getLsbD_append]
  by_cases hj : j < k0
  · have hlt : 16 * j + i < 16 * k0 := by omega
    simp [hj, hlt, hi]
  · have hge : ¬ 16 * j + i < 16 * k0 := by omega
    have heq : 16 * j + i - 16 * k0 = 16 * (j - k0) + i := by omega
    simp [hj, hge, heq, hi]

/-- A value of whole lanes is its lanes. -/
theorem eq_of_lane_eq {w : Nat} {x y : BitVec w} (hw : w % 16 = 0)
    (h : ∀ j < w / 16, lane x j = lane y j) : x = y := by
  apply BitVec.eq_of_getLsbD_eq
  intro i hi
  have hlane := congrArg (fun l : Word => l.getLsbD (i % 16)) (h (i / 16) (by omega))
  have hmod : i % 16 < 16 := Nat.mod_lt i (by decide)
  simpa [lane, BitVec.getLsbD_extractLsb', hmod, Nat.div_add_mod] using hlane

/-- Settles O7: both sides have the same lanes. -/
theorem packedProductSplitsAtLanes : Obligations.PackedProductSplitsAtLanes := by
  intro k1 k0 x1 y1 x0 y0
  refine eq_of_lane_eq (by omega) fun j hj => ?_
  rw [packedProductIsLanewise _ _ _ j hj, lane_append, lane_append, lane_append]
  split
  · next hlow => rw [packedProductIsLanewise _ x0 y0 j (by omega)]
  · rw [packedProductIsLanewise _ x1 y1 (j - k0) (by omega)]

/-! ### The memory operand -/

/-- Settles O34: without `FaultSuppression` every byte is accessed, with it those of selected
lanes. -/
theorem faultSuppressionSelectsTheBytes : Obligations.FaultSuppressionSelectsTheBytes := by
  intro f mask s k
  unfold accessedBytes
  split
  · next hs => simp [allBytes, Form.bytes, laneSelected, hs]
  · next hs => simp [allBytes, Form.bytes, hs]

/-- Settles O35: the table of R154, row by row. -/
theorem exceptionNumbers : Obligations.ExceptionNumbers :=
  ⟨⟨rfl, rfl⟩, ⟨rfl, rfl⟩, ⟨rfl, rfl⟩, ⟨rfl, rfl⟩, fun _ _ => ⟨rfl, rfl⟩, ⟨rfl, rfl⟩, ⟨rfl, rfl⟩⟩

/-- A byte of a value packed from bytes (20_memory.md R53). -/
theorem byte_packBytes {w : Nat} (f : Nat → Byte) {n k : Nat} (hk : k < n) (hw : 8 * n ≤ w) :
    (packBytes w f n).extractLsb' (8 * k) 8 = f k := by
  apply BitVec.eq_of_getLsbD_eq
  intro i hi
  have h1 : 8 * k + i < w := by omega
  have h2 : 8 * k + i < 8 * n := by omega
  have hd : (8 * k + i) / 8 = k := by omega
  have hm : (8 * k + i) % 8 = i := by omega
  simp only [BitVec.getLsbD_extractLsb', getLsbD_packBytes, hd, hm]
  simp [hi, h1, h2]

/-- Settles O37: a value packed from bytes has them at their places. -/
theorem memoryOperandIsLittleEndian : Obligations.MemoryOperandIsLittleEndian := by
  intro f m len s v h k hk
  obtain ⟨-, -, rfl⟩ := loadOperand_ok h
  have hacc : k ∈ allBytes f := List.mem_range.mpr hk
  rw [byte_packBytes _ (show k < f.bytes from hk) (by simp only [Form.bytes]; omega), if_pos hacc]
  rfl

/-! ### Addresses as numbers -/

/-- The low 32 bits of an address as a number. -/
theorem toNat_low32 (a : Addr) : (low32 a).toNat = a.toNat % 2 ^ 32 := by
  simp only [low32, BitVec.toNat_setWidth]
  omega

/-- An address cut to the address width, as a number. -/
theorem toNat_linear (s : State) (a : Addr) : (s.linear a).toNat = a.toNat % 2 ^ s.addrBits := by
  unfold State.linear State.addrBits
  split
  · exact (Nat.mod_eq_of_lt a.isLt).symm
  · exact toNat_low32 a

/-- A register of a scaled index as a number. -/
theorem shiftLeft_eq_ofInt (x : Addr) (n : Nat) :
    x <<< n = BitVec.ofInt 64 (x.toNat * 2 ^ n) := by
  have hcast : (x.toNat * 2 ^ n : Int) = ((x.toNat * 2 ^ n : Nat) : Int) := by push_cast; rfl
  rw [hcast, BitVec.ofInt_natCast]
  exact BitVec.eq_of_toNat_eq (by simp [Nat.shiftLeft_eq])

/-- An address is the wrapping of its number. -/
theorem eq_ofInt_toNat (x : Addr) : x = BitVec.ofInt 64 x.toNat := by
  rw [BitVec.ofInt_natCast, BitVec.ofNat_toNat, BitVec.setWidth_eq]

/-- A wrapped number is its remainder modulo `2^64`. -/
theorem toNat_ofInt_addr (n : Int) : ((BitVec.ofInt 64 n).toNat : Int) = n % 2 ^ 64 := by
  rw [BitVec.toNat_ofInt]
  exact Int.toNat_of_nonneg (Int.emod_nonneg _ (by decide))

/-- Settles O36: every operation of the address computation is one modulo `2^64`, which the address
size and the address width divide. -/
theorem effectiveAddressFormula : Obligations.EffectiveAddressFormula := by
  intro m len s base index segment offset
  have hbase : baseValue m.base len s = BitVec.ofInt 64 base := by
    simp only [base]
    cases m.base with
    | none => rfl
    | rip =>
      simp only [baseValue]
      rw [BitVec.ofInt_add, ← eq_ofInt_toNat, BitVec.ofInt_natCast]
    | reg r => exact eq_ofInt_toNat _
  have hindex : indexValue m.index s = BitVec.ofInt 64 index := by
    simp only [index]
    cases m.index with
    | none => rfl
    | some ix => exact shiftLeft_eq_ofInt _ _
  have hsum : baseValue m.base len s + indexValue m.index s + m.disp.signExtend 64 =
      BitVec.ofInt 64 (base + index + m.disp.toInt) := by
    rw [hbase, hindex, BitVec.ofInt_add, BitVec.ofInt_add]
    rfl
  have hoffset : ((memOffset m len s).toNat : Int) = offset := by
    simp only [memOffset, hsum, offset]
    split
    · rw [toNat_low32, Int.natCast_emod, toNat_ofInt_addr]
      exact Int.emod_emod_of_dvd _ (by decide)
    · exact toNat_ofInt_addr _
  have hsegment : ((segmentBase m.seg s).toNat : Int) = segment := by
    simp only [segmentBase, segment]
    split <;> split <;> simp_all
  have hdvd : ((2 ^ s.addrBits : Nat) : Int) ∣ 2 ^ 64 := by
    unfold State.addrBits
    split <;> decide
  refine ⟨hoffset, ?_⟩
  rw [effAddr, toNat_linear, ← hoffset, ← hsegment, BitVec.toNat_add]
  push_cast at hdvd ⊢
  exact Int.emod_emod_of_dvd _ hdvd

/-! ### The state at the start of a run -/

/-- Settles O59: `MAXVL` is 512 there. -/
theorem resetSatisfiesTheInvariant : Obligations.ResetSatisfiesTheInvariant :=
  ⟨rfl, State.getV_lt_of_w512 _ rfl, nofun⟩

/-- Settles O60, by evaluating the state. -/
theorem resetStateAsChosen : Obligations.ResetStateAsChosen := by
  refine ⟨rfl, rfl, rfl, rfl, rfl, rfl, rfl, fun n => ?_, fun n => ?_, fun n => ?_, fun n => ?_,
    fun _ => rfl, fun f => ?_⟩
  case refine_5 => cases f <;> decide
  all_goals simp [State.reset, State.getV, State.getMM, State.getK, State.getG]

end Sys2Proof.Machine
end

section
/-!
PROOFS. What every execution and every step keeps (O18, O20, O21, O58). A state after a step is one of
the three writes of `exec_next`, so each statement is about these writes.
-/

namespace Sys2Proof.Machine

/-! ### The invariant -/

/-- A register is below `2^n` when no bit from `n` up is set. -/
theorem toNat_lt_of_getLsbD {w n : Nat} {x : BitVec w} (h : ∀ i, n ≤ i → x.getLsbD i = false) :
    x.toNat < 2 ^ n :=
  Nat.lt_pow_two_of_testBit _ h

theorem getLsbD_of_toNat_lt {w n i : Nat} {x : BitVec w} (h : x.toNat < 2 ^ n) (hi : n ≤ i) :
    x.getLsbD i = false :=
  Nat.testBit_lt_two_pow (Nat.lt_of_lt_of_le h (Nat.pow_le_pow_right (by decide) hi))

theorem MaxVL.le_bits (m : MaxVL) : 128 ≤ m.bits := by cases m <;> decide

/-- A vector form that is present is no wider than `MAXVL` (00_scope.md R6). -/
theorem vl_le_of_present {f : Form} {c : Config} (h : Present f c) : f.vl ≤ c.maxvl.bits := by
  have hav := (available_iff f c).mpr h
  have hmm : f = .mmx64 → f.vl ≤ c.maxvl.bits := by
    rintro rfl
    exact Nat.le_trans (by decide) (MaxVL.le_bits _)
  simp only [available, Bool.and_eq_true, Bool.or_eq_true, beq_iff_eq, decide_eq_true_eq] at hav
  exact hav.2.elim hmm id

/-- Every vector register is within `MAXVL` (10_state.md R20). -/
abbrev VecWithin (s : State) : Prop := ∀ n : VReg, (s.getV n).toNat < 2 ^ s.cfg.maxvl.bits

/-- A zeroing write of at most `MAXVL` bits keeps the registers within `MAXVL`. -/
theorem vecWithin_writeZeroing {s : State} (h : VecWithin s) (d : VReg) {w : Nat} (v : BitVec w)
    (hw : w ≤ s.cfg.maxvl.bits) : VecWithin (s.writeZeroing d v) := by
  intro n
  by_cases hn : n = d
  · subst hn
    rw [State.writeZeroing_eq, State.getV_setV_self, BitVec.toNat_setWidth]
    exact Nat.lt_of_le_of_lt (Nat.mod_le _ _)
      (Nat.lt_of_lt_of_le v.isLt (Nat.pow_le_pow_right (by decide) hw))
  · rw [getV_writeZeroing_ne s v hn]
    exact h n

/-- A legacy write keeps the registers within `MAXVL`, which is 128 bits or more. -/
theorem vecWithin_writeLow {s : State} (h : VecWithin s) (d : VReg) (v : BitVec 128) :
    VecWithin (s.writeLow d v) := by
  intro n
  by_cases hn : n = d
  · subst hn
    refine toNat_lt_of_getLsbD fun i hi => ?_
    have hge : ¬ i < 128 := Nat.not_lt.mpr (Nat.le_trans (MaxVL.le_bits _) hi)
    rw [getLsbD_writeLow, if_neg hge]
    exact getLsbD_of_toNat_lt (h n) hi
  · rw [getV_writeLow_ne s v hn]
    exact h n

/-- Settles O58: memory is never written, the three writes keep the registers within `MAXVL`, and the
program counter is cut to the address width. -/
theorem stepKeepsTheInvariant : Obligations.StepKeepsTheInvariant := by
  rintro s t ⟨hmem, hvec, -⟩ h
  obtain ⟨i, -, hexec⟩ := step_next h
  obtain ⟨⟨hpresent, -⟩, hwrite⟩ := exec_next hexec
  rcases hwrite with ⟨d, v, rfl, -⟩ | ⟨d, v, rfl, -⟩ | ⟨d, v, rfl, -, -⟩
  · exact ⟨hmem, hvec, fun hm => State.linear_lt s hm _⟩
  · exact ⟨hmem, vecWithin_writeLow hvec d v, fun hm => State.linear_lt s hm _⟩
  · exact ⟨hmem, vecWithin_writeZeroing hvec d v (vl_le_of_present hpresent),
      fun hm => State.linear_lt s hm _⟩

/-! ### Frames -/

/-- A write of a vector register and the program counter changes nothing else (10_state.md R32). -/
theorem onlyVectorChanged_setV (s : State) (d : VReg) (v : BitVec 512) (len : Nat) :
    OnlyVectorChanged d s ((s.setV d v).advance len) :=
  ⟨fun _ hn => State.getV_setV_ne s v hn, rfl, fun _ => rfl⟩

/-- A write of an MMX register draws the x87 fields, and changes nothing else but the program
counter (10_state.md R23, R32). -/
theorem onlyMmxChanged_setMM (s : State) (d : MReg) (v : BitVec 64) (len : Nat) :
    OnlyMmxChanged d s (((s.setMM d v).drawX87 d).advance len) := by
  refine ⟨fun _ hn => State.getMM_setMM_ne s v hn, rfl, rfl, fun n hn => ?_, fun _ => rfl⟩
  have hne : d.val ≠ n.val := fun h => hn (Fin.ext h.symm)
  simp [hne]

/-- Settles O18: each form writes its destination and advances the program counter. -/
theorem execChangesOnlyItsDestination : Obligations.ExecChangesOnlyItsDestination := by
  intro i s t h
  cases i with
  | pmullwMmx64 d s2 len =>
    obtain ⟨-, y, -, rfl⟩ := execute_next h
    exact ⟨rfl, onlyMmxChanged_setMM s d _ len⟩
  | pmullwSse128 d s2 len | vpmullwVex128 d s1 s2 len | vpmullwVex256 d s1 s2 len =>
    obtain ⟨-, y, -, rfl⟩ := execute_next h
    exact ⟨rfl, onlyVectorChanged_setV s d _ len⟩
  | vpmullwEvex128 d s1 s2 k z len | vpmullwEvex256 d s1 s2 k z len
  | vpmullwEvex512 d s1 s2 k z len =>
    obtain ⟨-, -, y, -, rfl⟩ := evexPmullw_next h
    exact ⟨rfl, onlyVectorChanged_setV s d _ len⟩

/-- Settles O20: none of the three writes touches these fields. -/
theorem stepWritesNoMemoryAndNoControlState : Obligations.StepWritesNoMemoryAndNoControlState := by
  intro s t h
  obtain ⟨i, -, hexec⟩ := step_next h
  obtain ⟨-, ⟨d, v, rfl, -⟩ | ⟨d, v, rfl, -⟩ | ⟨d, v, rfl, -⟩⟩ := exec_next hexec
  all_goals exact ⟨fun _ => rfl, rfl, rfl, rfl, rfl, rfl, rfl, rfl, rfl, rfl, rfl, rfl, rfl, rfl, rfl, rfl⟩

/-! ### The program counter -/

/-- ModRM is one byte at least. -/
theorem length_rmBytes_pos (m64 : Bool) (n : Nat) (reg : BitVec 3) (op : RmOperand) :
    0 < (op.bytes m64 n reg).length := by
  cases op with
  | reg rm => exact Nat.succ_pos 0
  | mem m =>
    rw [RmOperand.bytes, length_memBytes]
    split
    · omega
    · split <;> omega
    · omega
    · split <;> omega
    · omega

/-- No form is spelled in fewer than three bytes (30_encoding.md R86): two up to the opcode and
ModRM. -/
theorem three_le_minLen {m64 : Bool} {i : Instr} (h : i.operandsOk m64 = true) :
    3 ≤ minLen m64 i := by
  have hopcode : 2 ≤ i.header.bytes.length := by
    rw [Header.length_bytes]
    split
    · omega
    · split <;> omega
    · omega
  have hrm := length_rmBytes_pos m64 i.form.dispScale i.regField i.rm
  rw [minLen, encodeBody_eq h]
  simp only [List.length_append]
  omega

/-- Settles O21: the fetched instruction ends below the top, so the address of the next one does not
wrap. -/
theorem stepAdvancesPcByTheLength : Obligations.StepAdvancesPcByTheLength := by
  intro s t h
  obtain ⟨i, hfetch, hexec⟩ := step_next h
  obtain ⟨hdecode, htop⟩ := fetch_ok hfetch
  have hwf := decodedInstructionsAreWellFormed _ _ _ _ hdecode
  simp only [Instr.wellFormed, Instr.lenOk, Bool.and_eq_true, decide_eq_true_eq] at hwf
  obtain ⟨hoperands, hmin, hmax⟩ := hwf
  have hbits : 2 ^ s.addrBits ≤ 2 ^ 64 := by
    unfold State.addrBits
    split <;> decide
  have hpc := (execChangesOnlyItsDestination i s t hexec).1
  refine ⟨i, hdecode, (three_le_minLen hoperands).trans hmin, hmax, ?_, htop⟩
  rw [hpc, toNat_linear, BitVec.toNat_add, BitVec.toNat_ofNat]
  rw [Nat.mod_eq_of_lt (a := i.len) (by omega), Nat.mod_eq_of_lt (b := 2 ^ 64) (by omega),
    Nat.mod_eq_of_lt htop]

end Sys2Proof.Machine
end

section
/-!
PROOFS. The seven forms complete (O8 to O14): with the conditions before the operand met and the
operand read, `execute` writes the destination, whose lanes are those it was packed from.
-/

namespace Sys2Proof.Machine

/-- The lane result is the low half of the signed product (40_lane_arithmetic.md R111). -/
theorem mullo16_eq_lowProduct (a b : Word) : mullo16 a b = lowProduct a b :=
  (mullo16IgnoresSignedness a b).2

/-- A lane of the packed product, its first factor read from a register and its second one from
operand `r/m` (R117). -/
theorem lane_pmullw {w v : Nat} (x : BitVec v) {y : BitVec w} {j : Nat} {b : Word} (hj : j < w / 16)
    (hy : lane y j = b) : lane (pmullw (x.setWidth w) y) j = lowProduct (lane x j) b := by
  rw [packedProductIsLanewise _ _ _ j hj, lane_setWidth x (by omega), hy, mullo16_eq_lowProduct]

/-- Settles O8. -/
theorem mmxFormCompletes : Obligations.MmxFormCompletes := by
  intro d s2 len s hready hsrc
  obtain ⟨y, hy, hlane⟩ := readMmxSrc_of_ready hsrc
  refine ⟨_, execute_of_ready ((excCond_eq_none _ _).mpr hready) hy, fun j hj => ?_,
    onlyMmxChanged_setMM s d _ len, rfl⟩
  rw [State.getMM_advance, State.getMM_drawX87, State.getMM_setMM_self, ← hlane j hj,
    ← mullo16_eq_lowProduct]
  exact packedProductIsLanewise 64 _ y j hj

/-- The bytes of every lane of a form are accessed where all bytes are. -/
theorem mem_allBytes_of_lane {f : Form} {j : Nat} (hj : j < f.vl / 16) :
    2 * j ∈ allBytes f ∧ 2 * j + 1 ∈ allBytes f := by
  simp only [allBytes, Form.bytes, List.mem_range]
  omega

/-- Settles O9: a legacy write keeps the bits above 127. -/
theorem sse128FormCompletes : Obligations.Sse128FormCompletes := by
  intro d s2 len s hready hsrc
  obtain ⟨y, hy, hlane⟩ := readSrc_of_ready (w := 128) hsrc (by decide) rfl
  refine ⟨_, execute_of_ready ((excCond_eq_none _ _).mpr hready) hy, fun j hj => ?_, ?_,
    onlyVectorChanged_setV s d _ len, rfl⟩
  · obtain ⟨h0, h1⟩ := mem_allBytes_of_lane (f := .sse128) hj
    rw [State.getV_advance, lane_writeLow s d _ hj]
    exact lane_pmullw _ hj (hlane j hj h0 h1)
  · rw [State.getV_advance, upper_writeLow]

/-- A VEX form completes (42_vpmullw_vex.md R130, R131). -/
theorem vexCompletes {f : Form} {mk : VReg → VReg → Src → Nat → Instr}
    (hexec : ∀ d s1 s2 len s, exec (mk d s1 s2 len) s = vexPmullw f.vl f d s1 s2 len s)
    (hf : f ≠ .sse128) (hvl : f.vl = 8 * f.bytes) (hle : f.vl ≤ 512) : VexCompletes f.vl f mk := by
  intro d s1 s2 len s hready hsrc
  obtain ⟨y, hy, hlane⟩ := readSrc_of_ready hsrc (fun h => absurd h hf) hvl
  refine ⟨_, (hexec ..).trans (execute_of_ready ((excCond_eq_none _ _).mpr hready) hy),
    fun j hj => ?_, ?_, onlyVectorChanged_setV s d _ len, rfl⟩
  · obtain ⟨h0, h1⟩ := mem_allBytes_of_lane hj
    rw [State.getV_advance, lane_writeZeroing s d _ hle (by omega)]
    exact lane_pmullw _ hj (hlane j hj h0 h1)
  · rw [State.getV_advance]
    exact upper_writeZeroing s d _ _

/-- Settles O10. -/
theorem vex128FormCompletes : Obligations.Vex128FormCompletes :=
  vexCompletes (f := .vex128) (fun _ _ _ _ _ => rfl) nofun rfl (by decide)

/-- Settles O11. -/
theorem vex256FormCompletes : Obligations.Vex256FormCompletes :=
  vexCompletes (f := .vex256) (fun _ _ _ _ _ => rfl) nofun rfl (by decide)

theorem laneSelected_iff (mask : KReg) (s : State) (j : Nat) :
    laneSelected mask s j = true ↔ mask = 0 ∨ (s.getK mask).getLsbD j = true := by
  simp [laneSelected]

theorem maskingOk_iff (mask : KReg) (z : Bool) : maskingOk mask z = true ↔ (z = true → mask ≠ 0) := by
  cases z <;> simp [maskingOk]

/-- A lane of the masked product (43_vpmullw_evex.md R140). -/
theorem lane_pmullwMasked {w : Nat} (sel : Nat → Bool) (z : Bool) (old x y : BitVec w) {j : Nat}
    (hj : j < w / 16) : lane (pmullwMasked sel z old x y) j =
      if sel j = true then mullo16 (lane x j) (lane y j) else if z = true then 0 else lane old j :=
  lane_packLanes _ hj (Nat.mul_div_le w 16)

/-- The bytes of a selected lane are accessed (43_vpmullw_evex.md R141). -/
theorem mem_accessedBytes_of_lane {f : Form} {mask : KReg} {s : State} {j : Nat}
    (hj : j < f.vl / 16) (hsel : laneSelected mask s j = true) :
    2 * j ∈ accessedBytes f mask s ∧ 2 * j + 1 ∈ accessedBytes f mask s := by
  have hbytes : 2 * j + 1 < f.bytes := by simp only [Form.bytes]; omega
  refine ⟨mem_accessedBytes (by omega) ?_, mem_accessedBytes hbytes ?_⟩
  · rwa [show 2 * j / 2 = j by omega]
  · rwa [show (2 * j + 1) / 2 = j by omega]

/-- An EVEX form completes (43_vpmullw_evex.md R140). -/
theorem evexCompletes {f : Form} {mk : VReg → VReg → Src → KReg → Bool → Nat → Instr}
    (hexec : ∀ d s1 s2 mask z len s,
      exec (mk d s1 s2 mask z len) s = evexPmullw f.vl f d s1 s2 mask z len s)
    (hf : f ≠ .sse128) (hvl : f.vl = 8 * f.bytes) (hle : f.vl ≤ 512) : EvexCompletes f.vl f mk := by
  intro d s1 s2 mask z len s hready hmask hsrc
  obtain ⟨y, hy, hlane⟩ := readSrc_of_ready hsrc (fun h => absurd h hf) hvl
  refine ⟨_, (hexec ..).trans <| (evexPmullw_of_maskingOk ((maskingOk_iff mask z).mpr hmask)).trans
    (execute_of_ready ((excCond_eq_none _ _).mpr hready) hy), fun j hj => ?_, ?_,
    onlyVectorChanged_setV s d _ len, rfl⟩
  · have hx (n : VReg) : lane (s.readV f.vl n) j = lane (s.getV n) j := lane_setWidth _ (by omega)
    rw [State.getV_advance, lane_writeZeroing s d _ hle (by omega), lane_pmullwMasked _ _ _ _ _ hj,
      hx, hx]
    by_cases hsel : laneSelected mask s j = true
    · obtain ⟨h0, h1⟩ := mem_accessedBytes_of_lane hj hsel
      rw [if_pos hsel, if_pos ((laneSelected_iff mask s j).mp hsel), hlane j hj h0 h1,
        mullo16_eq_lowProduct]
    · rw [if_neg hsel, if_neg (mt (laneSelected_iff mask s j).mpr hsel)]
  · rw [State.getV_advance]
    exact upper_writeZeroing s d _ _

/-- Settles O12. -/
theorem evex128FormCompletes : Obligations.Evex128FormCompletes :=
  evexCompletes (f := .evex128) (fun _ _ _ _ _ _ _ => rfl) nofun rfl (by decide)

/-- Settles O13. -/
theorem evex256FormCompletes : Obligations.Evex256FormCompletes :=
  evexCompletes (f := .evex256) (fun _ _ _ _ _ _ _ => rfl) nofun rfl (by decide)

/-- Settles O14. -/
theorem evex512FormCompletes : Obligations.Evex512FormCompletes :=
  evexCompletes (f := .evex512) (fun _ _ _ _ _ _ _ => rfl) nofun rfl (by decide)

end Sys2Proof.Machine
end

section
/-!
PROOFS. What does not enter a result: mask bits above the lanes, memory of unselected lanes, the
flags (O16, O17, O19); and without a write-mask EVEX does what VEX does (O15).
-/

namespace Sys2Proof.Machine

/-! ### The masked product depends on the lanes alone -/

theorem packLanes_congr {w : Nat} {f g : Nat → Word} {n : Nat} (h : ∀ j < n, f j = g j) :
    packLanes w f n = packLanes w g n := by
  induction n with
  | zero => rfl
  | succ n ih =>
    rw [packLanes, packLanes, ih fun j hj => h j (Nat.lt_succ_of_lt hj), h n (Nat.lt_succ_self n)]

/-- The masked product depends on which lanes are selected and on the selected lanes of the second
source (43_vpmullw_evex.md R140). -/
theorem pmullwMasked_congr {w : Nat} {sel sel' : Nat → Bool} {z : Bool} {old x y y' : BitVec w}
    (hsel : ∀ j < w / 16, sel' j = sel j) (hy : ∀ j < w / 16, sel j = true → lane y' j = lane y j) :
    pmullwMasked sel' z old x y' = pmullwMasked sel z old x y := by
  refine packLanes_congr fun j hj => ?_
  rw [hsel j hj]
  split
  · next h => rw [hy j hj h]
  · rfl

/-- With every lane selected the masked product is the packed product. -/
theorem pmullwMasked_of_all {w : Nat} {sel : Nat → Bool} (h : ∀ j, sel j = true) (z : Bool)
    (old x y : BitVec w) : pmullwMasked sel z old x y = pmullw x y :=
  packLanes_congr fun j _ => if_pos (h j)

/-! ### Without a write-mask (O15) -/

theorem laneSelected_zero (s : State) (j : Nat) : laneSelected 0 s j = true := rfl

theorem accessedBytes_zero (f : Form) (s : State) : accessedBytes f 0 s = allBytes f := by
  unfold accessedBytes
  split
  · exact List.filter_eq_self.mpr fun i _ => laneSelected_zero s (i / 2)
  · rfl

/-- Two forms other than the legacy 128-bit one, of one size and with one `#AC` alignment, read
their memory operand alike. -/
theorem loadOperand_form_congr {w : Nat} {f g : Form} (hf : f ≠ .sse128) (hg : g ≠ .sse128)
    (hvl : g.vl = f.vl) {s : State} (hac : acAlignment g s.cfg = acAlignment f s.cfg)
    (m : MemOperand) (len : Nat) (acc : List Nat) :
    loadOperand w g m len s acc = loadOperand w f m len s acc := by
  have hmis : misaligned16 g m len s = misaligned16 f m len s := by
    rw [misaligned16, misaligned16, beq_eq_false_iff_ne.mpr hf, beq_eq_false_iff_ne.mpr hg]
  simp only [loadOperand, memFault, segmentFault, alignmentFault, misalignedAC, operandInDevice,
    allBytes, Form.bytes, hvl, hac, hmis]
  rfl

/-- An EVEX form without write-mask is the VEX form of its width, where both are ready. -/
theorem evexPmullw_unmasked {f g : Form} (hf : f ≠ .sse128) (hg : g ≠ .sse128)
    (hvl : g.vl = f.vl) {s : State} (hac : acAlignment g s.cfg = acAlignment f s.cfg)
    (hrf : Ready f s) (hrg : Ready g s) (d s1 : VReg) (s2 : Src) (len : Nat) :
    evexPmullw f.vl g d s1 s2 0 false len s = vexPmullw f.vl f d s1 s2 len s := by
  have hsrc : readSrc f.vl g s2 len s (accessedBytes g 0 s) = readSrc f.vl f s2 len s (allBytes f) := by
    have hall : allBytes g = allBytes f := by simp only [allBytes, Form.bytes, hvl]
    rw [accessedBytes_zero, hall]
    cases s2 with
    | reg n => rfl
    | mem m => exact loadOperand_form_congr hf hg hvl hac m len _
  have hprod (y : BitVec f.vl) := pmullwMasked_of_all (laneSelected_zero s) false (s.readV f.vl d)
    (s.readV f.vl s1) y
  rw [evexPmullw_of_maskingOk rfl, vexPmullw, hsrc]
  simp only [hprod, execute, (excCond_eq_none _ _).mpr hrf, (excCond_eq_none _ _).mpr hrg]

/-- Settles O15. -/
theorem unmaskedEvexActsAsVex : Obligations.UnmaskedEvexActsAsVex := by
  intro d s1 s2 len s hac
  exact ⟨fun hv he => evexPmullw_unmasked (f := .vex128) (g := .evex128) nofun nofun rfl hac.symm hv he d s1 s2 len,
    fun hv he => evexPmullw_unmasked (f := .vex256) (g := .evex256) nofun nofun rfl hac.symm hv he d s1 s2 len⟩

/-! ### Mask bits above the lanes (O16) -/

/-- An EVEX form looks at the mask bits of its lanes alone. -/
theorem evexPmullw_kmask {f : Form} (hvl : f.bytes = 2 * (f.vl / 16)) {d s1 : VReg} {s2 : Src} {mask : KReg}
    {z : Bool} {len : Nat} {s t : State} {km : Vector (BitVec 64) 8}
    (hkm : ∀ j < f.vl / 16, km[mask].getLsbD j = (s.getK mask).getLsbD j)
    (h : evexPmullw f.vl f d s1 s2 mask z len s = .next t) :
    evexPmullw f.vl f d s1 s2 mask z len { s with kmask := km } = .next { t with kmask := km } := by
  obtain ⟨hz, hc, y, hy, rfl⟩ := evexPmullw_next h
  have hsel : ∀ j < f.vl / 16, laneSelected mask { s with kmask := km } j = laneSelected mask s j := by
    intro j hj
    exact congrArg (mask == 0 || ·) (hkm j hj)
  have hacc : accessedBytes f mask { s with kmask := km } = accessedBytes f mask s := by
    have hfilter : ((allBytes f).filter fun i => laneSelected mask { s with kmask := km } (i / 2)) =
        (allBytes f).filter fun i => laneSelected mask s (i / 2) :=
      List.filter_congr fun i hi => hsel _ (by
        have := List.mem_range.mp hi
        omega)
    simp only [accessedBytes, hfilter]
  have hsrc : readSrc f.vl f s2 len { s with kmask := km }
      (accessedBytes f mask { s with kmask := km }) = .ok y := by
    rw [hacc]
    exact hy
  rw [evexPmullw, if_neg (by simp [hz])]
  refine (execute_of_ready hc hsrc).trans ?_
  rw [pmullwMasked_congr hsel fun _ _ _ => rfl]
  rfl

/-- Settles O16. -/
theorem onlyLowMaskBitsCount : Obligations.OnlyLowMaskBitsCount := by
  intro d s1 s2 mask z len s t km
  exact ⟨evexPmullw_kmask (f := .evex128) rfl, evexPmullw_kmask (f := .evex256) rfl,
    evexPmullw_kmask (f := .evex512) rfl⟩

/-! ### Memory of unselected lanes (O17) -/

/-- No check of a memory operand looks at memory. -/
theorem loadOperand_mem {w : Nat} {f : Form} {m : MemOperand} {len : Nat} {s : State}
    {acc : List Nat} {y : BitVec w} (mem' : Memory) (h : loadOperand w f m len s acc = .ok y) :
    loadOperand w f m len { s with mem := mem' } acc = .ok (packBytes w
      (fun i => if i ∈ acc then byteAt { s with mem := mem' } (byteAddr s (effAddr m len s) i)
        else unlistedByte) f.bytes) := by
  obtain ⟨hfault, hdevice, -⟩ := loadOperand_ok h
  have hfault' : memFault f m len { s with mem := mem' } acc = none := hfault
  have hdevice' : operandInDevice f m len { s with mem := mem' } = false :=
    (operandInDevice_eq_false f m len _).mpr hdevice
  simp only [loadOperand, hfault', hdevice']
  rfl

/-- An EVEX form looks at the memory bytes of its selected lanes alone. -/
theorem evexPmullw_mem {f : Form} (hvl : f.vl = 8 * f.bytes) {d s1 : VReg} {m : MemOperand}
    {mask : KReg} {z : Bool} {len : Nat} {s t : State} {mem' : Memory}
    (hmem : ∀ j < f.vl / 16, laneSelected mask s j = true → ∀ k, k / 2 = j →
      byteAt { s with mem := mem' } (byteAddr s (effAddr m len s) k) =
        byteAt s (byteAddr s (effAddr m len s) k))
    (h : evexPmullw f.vl f d s1 (.mem m) mask z len s = .next t) :
    evexPmullw f.vl f d s1 (.mem m) mask z len { s with mem := mem' } =
      .next { t with mem := mem' } := by
  obtain ⟨hz, hc, y, hy, rfl⟩ := evexPmullw_next h
  have hload : loadOperand f.vl f m len s (accessedBytes f mask s) = .ok y := hy
  have hload' := loadOperand_mem mem' hload
  obtain ⟨-, -, rfl⟩ := loadOperand_ok hload
  rw [evexPmullw, if_neg (by simp [hz])]
  refine (execute_of_ready hc hload').trans ?_
  rw [pmullwMasked_congr (sel' := laneSelected mask { s with mem := mem' }) (fun _ _ => rfl)
    fun j hj hsel => ?_]
  · rfl
  · have hbytes : 2 * j + 1 < f.bytes := by omega
    rw [lane_packBytes _ hbytes (by omega), lane_packBytes _ hbytes (by omega),
      hmem j hj hsel (2 * j) (by omega), hmem j hj hsel (2 * j + 1) (by omega)]

/-- Settles O17. -/
theorem unselectedLanesOfMemoryDoNotMatter : Obligations.UnselectedLanesOfMemoryDoNotMatter := by
  intro d s1 m mask z len s t mem'
  exact ⟨evexPmullw_mem (f := .evex128) rfl, evexPmullw_mem (f := .evex256) rfl,
    evexPmullw_mem (f := .evex512) rfl⟩

/-! ### The flags (O19) -/

/-- EFLAGS.AC is the only flag that the checks of a memory operand look at. -/
theorem loadOperand_rflags {w : Nat} (f : Form) (m : MemOperand) (len : Nat) {s : State}
    (acc : List Nat) {fl : BitVec 64} (hfl : fl.getLsbD 18 = s.rflags.getLsbD 18) :
    loadOperand w f m len { s with rflags := fl } acc = loadOperand w f m len s acc := by
  have hac : State.alignmentChecking { s with rflags := fl } = s.alignmentChecking := by
    have hflag : State.flagAC { s with rflags := fl } = s.flagAC := hfl
    rw [State.alignmentChecking, hflag]
    rfl
  have hmis : misalignedAC f m len { s with rflags := fl } = misalignedAC f m len s := by
    rw [misalignedAC, hac]
    rfl
  have halign : alignmentFault f m len { s with rflags := fl } acc = alignmentFault f m len s acc := by
    rw [alignmentFault, hmis]
    rfl
  have hfault : memFault f m len { s with rflags := fl } acc = memFault f m len s acc := by
    rw [memFault, halign]
    rfl
  rw [loadOperand, hfault]
  rfl

theorem readSrc_rflags {w : Nat} (f : Form) (src : Src) (len : Nat) {s : State} (acc : List Nat)
    {fl : BitVec 64} (hfl : fl.getLsbD 18 = s.rflags.getLsbD 18) :
    readSrc w f src len { s with rflags := fl } acc = readSrc w f src len s acc := by
  cases src with
  | reg n => rfl
  | mem m => exact loadOperand_rflags f m len acc hfl

/-- With another RFLAGS of the same AC bit an execution does the same. -/
theorem exec_rflags {i : Instr} {s t : State} (h : exec i s = .next t) {fl : BitVec 64}
    (hfl : fl.getLsbD 18 = s.rflags.getLsbD 18) :
    exec i { s with rflags := fl } = .next { t with rflags := fl } := by
  cases i with
  | pmullwMmx64 d s2 len =>
    obtain ⟨hc, y, hy, rfl⟩ := execute_next h
    have hy' : readMmxSrc s2 len { s with rflags := fl } = .ok y := by
      cases s2 with
      | reg n => exact hy
      | mem m => exact (loadOperand_rflags .mmx64 m len _ hfl).trans hy
    exact execute_of_ready hc hy'
  | pmullwSse128 d s2 len | vpmullwVex128 d s1 s2 len | vpmullwVex256 d s1 s2 len =>
    obtain ⟨hc, y, hy, rfl⟩ := execute_next h
    exact execute_of_ready hc ((readSrc_rflags _ s2 len _ hfl).trans hy)
  | vpmullwEvex128 d s1 s2 k z len | vpmullwEvex256 d s1 s2 k z len
  | vpmullwEvex512 d s1 s2 k z len =>
    obtain ⟨hz, hc, y, hy, rfl⟩ := evexPmullw_next h
    refine (if_neg (by simp [hz])).trans ?_
    exact execute_of_ready hc ((readSrc_rflags _ s2 len _ hfl).trans hy)

/-- With another MXCSR an execution does the same: nothing reads it. -/
theorem exec_mxcsr {i : Instr} {s t : State} (h : exec i s = .next t) (mx : BitVec 32) :
    exec i { s with mxcsr := mx } = .next { t with mxcsr := mx } := by
  cases i with
  | pmullwMmx64 d s2 len =>
    obtain ⟨hc, y, hy, rfl⟩ := execute_next h
    have hy' : readMmxSrc s2 len { s with mxcsr := mx } = .ok y := by cases s2 <;> exact hy
    exact execute_of_ready hc hy'
  | pmullwSse128 d s2 len | vpmullwVex128 d s1 s2 len | vpmullwVex256 d s1 s2 len =>
    obtain ⟨hc, y, hy, rfl⟩ := execute_next h
    exact execute_of_ready hc (by cases s2 <;> exact hy)
  | vpmullwEvex128 d s1 s2 k z len | vpmullwEvex256 d s1 s2 k z len
  | vpmullwEvex512 d s1 s2 k z len =>
    obtain ⟨hz, hc, y, hy, rfl⟩ := evexPmullw_next h
    refine (if_neg (by simp [hz])).trans ?_
    exact execute_of_ready hc (by cases s2 <;> exact hy)

/-- Settles O19. -/
theorem flagsAreNeitherWrittenNorRead : Obligations.FlagsAreNeitherWrittenNorRead := by
  intro i s t h
  have hkeep : t.rflags = s.rflags ∧ t.mxcsr = s.mxcsr := by
    obtain ⟨-, ⟨d, v, rfl, -⟩ | ⟨d, v, rfl, -⟩ | ⟨d, v, rfl, -⟩⟩ := exec_next h
    all_goals exact ⟨rfl, rfl⟩
  exact ⟨hkeep.1, hkeep.2, exec_mxcsr h, fun fl hfl => exec_rflags h hfl⟩

end Sys2Proof.Machine
end

section
/-!
PROOFS. The exceptions and their priority (60_exceptions.md section 3): classes 1 to 3 before the
operand (O22 to O26), then the checks of the memory operand (O27 to O33).
-/

namespace Sys2Proof.Machine

/-! ### Classes 1 to 3 (O22 to O26) -/

/-- Zeroing without a write-mask comes before everything else. -/
theorem exec_of_not_maskOk {i : Instr} {s : State} (h : i.maskOk = false) :
    exec i s = .fault .invalidOpcode := by
  cases i with
  | pmullwMmx64 | pmullwSse128 | vpmullwVex128 | vpmullwVex256 => nomatch h
  | vpmullwEvex128 d s1 s2 k z len | vpmullwEvex256 d s1 s2 k z len
  | vpmullwEvex512 d s1 s2 k z len =>
    have hz : (z && k == 0) = true := by simpa [Instr.maskOk, maskingOk] using h
    exact if_pos hz

theorem exec_of_excCond_invalidOpcode {i : Instr} {s : State}
    (h : excCond i.form s = some .invalidOpcode) : exec i s = .fault .invalidOpcode := by
  cases hm : i.maskOk with
  | false => exact exec_of_not_maskOk hm
  | true => exact exec_of_excCond h hm

theorem excCond_of_not_present {f : Form} {s : State} (h : ¬ Present f s.cfg) :
    excCond f s = some .invalidOpcode := by
  have ha : available f s.cfg = false :=
    Bool.eq_false_iff.mpr fun ha => h ((available_iff _ _).mp ha)
  simp [excCond, ha]

theorem excCond_of_not_enabled {f : Form} {s : State} (h : ¬ Enabled f s) :
    excCond f s = some .invalidOpcode := by
  have hc : controlUD f s = true :=
    Bool.eq_true_of_not_eq_false fun hc => h ((controlUD_iff _ _).mp hc)
  simp [excCond, hc]

/-- Where no `#UD` applies, `#NM` comes before `#MF`. -/
theorem excCond_of_enabled {f : Form} {s : State} (hp : Present f s.cfg) (he : Enabled f s) :
    excCond f s = if s.cr0TS then some .deviceNotAvailable
      else if f == .mmx64 && s.x87.pending then some .x87FloatingPoint else none := by
  simp [excCond, (available_iff _ _).mpr hp, (controlUD_iff _ _).mpr he]

/-- Settles O22. -/
theorem absentFormRaisesUD : Obligations.AbsentFormRaisesUD := fun _ _ h =>
  exec_of_excCond_invalidOpcode (excCond_of_not_present h)

/-- Settles O23. -/
theorem disabledFormRaisesUD : Obligations.DisabledFormRaisesUD := fun _ _ h =>
  exec_of_excCond_invalidOpcode (excCond_of_not_enabled h)

/-- Settles O24. -/
theorem zeroingWithoutMaskRaisesUD : Obligations.ZeroingWithoutMaskRaisesUD := fun _ _ h =>
  exec_of_not_maskOk h

/-- Settles O25. -/
theorem taskSwitchedRaisesNM : Obligations.TaskSwitchedRaisesNM := fun _ _ hp he hm hts =>
  exec_of_excCond ((excCond_of_enabled hp he).trans (if_pos hts)) hm

/-- Settles O26. -/
theorem pendingX87RaisesMF : Obligations.PendingX87RaisesMF := by
  intro d s2 len s hp he hts hx
  have hc : excCond .mmx64 s = some .x87FloatingPoint := by
    rw [excCond_of_enabled hp he, hts, hx]
    rfl
  exact execute_of_excCond hc

/-! ### The first byte with an exception -/

/-- In an increasing list the first hit is at the least element that gives one. -/
theorem findSome?_eq_of_least {β : Type} {g : Nat → Option β} {l : List Nat} {k : Nat} {e : β}
    (hl : l.Pairwise (· < ·)) (hk : k ∈ l) (he : g k = some e)
    (hless : ∀ j ∈ l, j < k → g j = none) : l.findSome? g = some e := by
  obtain ⟨before, after, rfl⟩ := List.append_of_mem hk
  have hlt : ∀ j ∈ before, j < k := fun j hj =>
    (List.pairwise_append.mp hl).2.2 j hj k List.mem_cons_self
  have hbefore : before.findSome? g = none :=
    List.findSome?_eq_none_iff.mpr fun j hj =>
      hless j (List.mem_append_left _ hj) (hlt j hj)
  rw [List.findSome?_append, hbefore, Option.none_or, List.findSome?_cons, he]

theorem xlateAddressFault_eq_none {s : State} {a : Addr} (hss : translateByte s a ≠ .faulting .ss)
    (hgp : translateByte s a ≠ .faulting .gp) : xlateAddressFault s a = none := by
  unfold xlateAddressFault
  split
  · next h => exact absurd h hss
  · next h => exact absurd h hgp
  · rfl

theorem xlatePageFault_eq_none {s : State} {a : Addr}
    (hpf : ∀ code, translateByte s a ≠ .faulting (.pf code)) : xlatePageFault s a = none := by
  unfold xlatePageFault
  split
  · next code h => exact absurd h (hpf code)
  · rfl

/-! ### The checks of a memory operand, class by class -/

section Checks
variable {f : Form} {m : MemOperand} {len : Nat} {s : State} {acc : List Nat} {k : Nat}

theorem segmentFault_of_illegal (hk : k ∈ acc) (h : byteIllegal m len s k = true) :
    segmentFault f m len s acc = some (addressFault m) :=
  if_pos (List.any_eq_true.mpr ⟨k, hk, h⟩)

theorem segmentFault_of_no_illegal (h : ∀ j ∈ acc, byteIllegal m len s j = false) :
    segmentFault f m len s acc =
      if acc.any (byteBeyond64K m len s) then some .generalProtection
      else if misaligned16 f m len s then some .generalProtection
      else acc.findSome? fun i => xlateAddressFault s (byteAddr s (effAddr m len s) i) := by
  have hany : ¬ acc.any (byteIllegal m len s) = true := by
    rw [List.any_eq_true]
    rintro ⟨j, hj, hbad⟩
    exact Bool.false_ne_true ((h j hj).symm.trans hbad)
  exact if_neg hany

theorem segmentFault_of_legal (h : ∀ j ∈ acc, ByteLegal m len s j) :
    segmentFault f m len s acc =
      if misaligned16 f m len s then some .generalProtection
      else acc.findSome? fun i => xlateAddressFault s (byteAddr s (effAddr m len s) i) := by
  have hany : ¬ acc.any (byteBeyond64K m len s) = true := by
    rw [List.any_eq_true]
    rintro ⟨j, hj, hbad⟩
    exact Bool.false_ne_true ((h j hj).2.symm.trans hbad)
  exact (segmentFault_of_no_illegal fun j hj => (h j hj).1).trans (if_neg hany)

theorem misaligned16_eq_false (h : f = .sse128 → (effAddr m len s).toNat % 16 = 0) :
    misaligned16 f m len s = false := by
  by_cases hf : f = .sse128
  · simp [misaligned16, h hf]
  · simp [misaligned16, hf]

theorem misalignedAC_eq_false (h : Aligned f m len s) : misalignedAC f m len s = false := by
  unfold misalignedAC
  split
  · rfl
  · next n hn =>
    cases hac : s.alignmentChecking with
    | false => rfl
    | true => simp [h.2 hac n hn]

theorem pageFaultOf_eq_none (h : ∀ j ∈ acc, ∀ code,
      translateByte s (byteAddr s (effAddr m len s) j) ≠ .faulting (.pf code)) :
    pageFaultOf m len s acc = none :=
  List.findSome?_eq_none_iff.mpr fun j hj => xlatePageFault_eq_none (h j hj)

theorem alignmentFault_eq_none (ha : acc = [] ∨ Aligned f m len s)
    (h : ∀ j ∈ acc, translateByte s (byteAddr s (effAddr m len s) j) ≠ .faulting .ac) :
    alignmentFault f m len s acc = none := by
  have hop : (misalignedAC f m len s && !acc.isEmpty) = false := by
    rcases ha with rfl | ha
    · exact Bool.and_false _
    · rw [misalignedAC_eq_false ha, Bool.false_and]
  have hxlate : acc.any (fun i => xlateAlignmentFault s (byteAddr s (effAddr m len s) i)) = false :=
    List.any_eq_false.mpr fun j hj => by simpa [xlateAlignmentFault] using h j hj
  simp [alignmentFault, hop, hxlate]

theorem memFault_of_segmentFault {e : Fault} (h : segmentFault f m len s acc = some e) :
    memFault f m len s acc = some e := by
  rw [memFault, h]

theorem memFault_of_pageFaultOf {e : Fault} (hseg : segmentFault f m len s acc = none)
    (h : pageFaultOf m len s acc = some e) : memFault f m len s acc = some e := by
  rw [memFault, hseg, h]

theorem memFault_of_no_pageFault (hseg : segmentFault f m len s acc = none)
    (hpage : pageFaultOf m len s acc = none) :
    memFault f m len s acc = alignmentFault f m len s acc := by
  rw [memFault, hseg, hpage]

end Checks

theorem exec_of_memFault {i : Instr} {s : State} {m : MemOperand} {e : Fault}
    (hr : Ready i.form s) (hm : i.maskOk = true) (hmem : i.memOperand = some m)
    (h : memFault i.form m i.len s (accessed i s) = some e) : exec i s = .fault e := by
  refine exec_of_loadOperand (st := .fault e) hr hm hmem ?_
  rw [loadOperand, h]
  rfl

/-! ### Bad addresses (O27, O28, O29) -/

/-- Settles O27. -/
theorem badAddressRaisesSSOrGP : Obligations.BadAddressRaisesSSOrGP := by
  intro i s m k hr hm hmem hk hbad
  have hillegal : byteIllegal m i.len s k = true := by
    rw [byteIllegal, Bool.or_eq_true]
    rcases hbad with hoff | ⟨h64, hcanon⟩
    · exact .inl hoff
    · exact .inr (by rw [h64, hcanon]; rfl)
  exact exec_of_memFault hr hm hmem (memFault_of_segmentFault (segmentFault_of_illegal hk hillegal))

/-- The EVEX forms are `#UD` in real-address and virtual-8086 mode, so no masking can be illegal
there. -/
theorem maskOk_of_real {i : Instr} {s : State} (he : Enabled i.form s) (hreal : s.real = true) :
    i.maskOk = true := by
  cases i with
  | pmullwMmx64 | pmullwSse128 | vpmullwVex128 | vpmullwVex256 => rfl
  | vpmullwEvex128 | vpmullwEvex256 | vpmullwEvex512 =>
    exact absurd (he.1.symm.trans hreal) Bool.false_ne_true

/-- Settles O28. -/
theorem beyondOffset64KRaisesGP : Obligations.BeyondOffset64KRaisesGP := by
  intro i s m k hr hmem hreal hk hlegal hoff
  have hm : i.maskOk = true := maskOk_of_real hr.2.1 hreal
  have hbeyond : byteBeyond64K m i.len s k = true := by simp [byteBeyond64K, hreal, hoff]
  refine exec_of_memFault hr hm hmem (memFault_of_segmentFault ?_)
  exact (segmentFault_of_no_illegal hlegal).trans
    (if_pos (List.any_eq_true.mpr ⟨k, hk, hbeyond⟩))

/-- Settles O29. -/
theorem misalignedSse128RaisesGP : Obligations.MisalignedSse128RaisesGP := by
  intro d m len s hr hlegal hmis
  have hmis' : misaligned16 .sse128 m len s = true := by simp [misaligned16, hmis]
  have hlegal' : ∀ j ∈ allBytes .sse128, ByteLegal m len s j := fun j hj =>
    hlegal j (List.mem_range.mp hj)
  exact exec_of_memFault (m := m) hr rfl rfl
    (memFault_of_segmentFault ((segmentFault_of_legal hlegal').trans (if_pos hmis')))

/-! ### What `Translate` names (O30, O31) -/

/-- Settles O30. -/
theorem pageFaultIsRaised : Obligations.PageFaultIsRaised := by
  intro i s m k code hr hm hmem hlegal halign hk hpf hless
  refine exec_of_memFault hr hm hmem
    (memFault_of_pageFaultOf (segmentFault_eq_none hlegal halign) ?_)
  refine findSome?_eq_of_least (accessed_pairwise_lt i s) hk ?_ fun j hj hlt =>
    xlatePageFault_eq_none (hless j hj hlt)
  rw [xlatePageFault, hpf]

/-- Where no byte is illegal or misaligned, the lowest `#SS(0)` or `#GP(0)` of `Translate` is
raised. -/
theorem exec_of_xlateAddressFault {i : Instr} {s : State} {m : MemOperand} {k : Nat} {e : Fault}
    (hr : Ready i.form s) (hm : i.maskOk = true) (hmem : i.memOperand = some m)
    (hlegal : ∀ j ∈ accessed i s, ByteLegal m i.len s j)
    (halign : i.form = .sse128 → (effAddr m i.len s).toNat % 16 = 0) (hk : k ∈ accessed i s)
    (hless : ∀ j ∈ accessed i s, j < k →
      translateByte s (byteAddr s (effAddr m i.len s) j) ≠ .faulting .ss ∧
        translateByte s (byteAddr s (effAddr m i.len s) j) ≠ .faulting .gp)
    (he : xlateAddressFault s (byteAddr s (effAddr m i.len s) k) = some e) :
    exec i s = .fault e := by
  refine exec_of_memFault hr hm hmem (memFault_of_segmentFault ?_)
  rw [segmentFault_of_legal hlegal, misaligned16_eq_false halign, if_neg Bool.false_ne_true]
  refine findSome?_eq_of_least (accessed_pairwise_lt i s) hk he fun j hj hlt => ?_
  obtain ⟨hss, hgp⟩ := hless j hj hlt
  exact xlateAddressFault_eq_none hss hgp

/-- Settles O31. -/
theorem translateExceptionsAreRaised : Obligations.TranslateExceptionsAreRaised := by
  intro i s m k hr hm hmem hlegal halign hk said
  refine ⟨fun hless => ⟨fun hss => ?_, fun hgp => ?_⟩, fun hnone hac => ?_⟩
  · have he : xlateAddressFault s (byteAddr s (effAddr m i.len s) k) = some .stackSegment := by
      rw [xlateAddressFault, show translateByte _ _ = _ from hss]
    exact exec_of_xlateAddressFault hr hm hmem hlegal halign hk hless he
  · have he : xlateAddressFault s (byteAddr s (effAddr m i.len s) k) = some .generalProtection := by
      rw [xlateAddressFault, show translateByte _ _ = _ from hgp]
    exact exec_of_xlateAddressFault hr hm hmem hlegal halign hk hless he
  · have hseg := segmentFault_eq_none
      (fun j hj => ⟨hlegal j hj, (hnone j hj).1, (hnone j hj).2.1⟩) halign
    have hpage := pageFaultOf_eq_none fun j hj => (hnone j hj).2.2
    refine exec_of_memFault hr hm hmem ((memFault_of_no_pageFault hseg hpage).trans (if_pos ?_))
    refine Bool.or_eq_true_iff.mpr (.inr (List.any_eq_true.mpr ⟨k, hk, ?_⟩))
    exact beq_iff_eq.mpr hac

/-! ### The alignment of the MMX form (O32) -/

theorem ne_faulting_of_isLocation {b : ByteAccess} (h : b.isLocation = true) (x : XlateFault) :
    b ≠ .faulting x := by
  obtain ⟨loc, rfl⟩ := isLocation_cases h
  nofun

/-- Settles O32. -/
theorem misalignedMmxRaisesAC : Obligations.MisalignedMmxRaisesAC := by
  intro d m len s hr hreadable ham hac hcpl hmis
  have hread : ∀ j ∈ allBytes .mmx64, ByteReadable m len s j := fun j hj =>
    hreadable j (List.mem_range.mp hj)
  have hfault : ∀ j ∈ allBytes .mmx64, ∀ x,
      translateByte s (byteAddr s (effAddr m len s) j) ≠ .faulting x := fun j hj =>
    ne_faulting_of_isLocation (hread j hj).2
  have hseg : segmentFault .mmx64 m len s (allBytes .mmx64) = none :=
    segmentFault_eq_none (fun j hj => ⟨(hread j hj).1, hfault j hj _, hfault j hj _⟩) nofun
  have hpage : pageFaultOf m len s (allBytes .mmx64) = none :=
    pageFaultOf_eq_none fun j hj _ => hfault j hj _
  have hcheck : s.alignmentChecking = true := by
    simp [State.alignmentChecking, State.cr0AM, State.flagAC, ham, hac, hcpl]
  have hmisAC : misalignedAC .mmx64 m len s = true := by
    simp [misalignedAC, acAlignment, hcheck, hmis]
  refine exec_of_memFault (m := m) hr rfl rfl
    ((memFault_of_no_pageFault hseg hpage).trans (if_pos ?_))
  rw [hmisAC]
  rfl

/-! ### Memory with side effects (O33) -/

theorem accessed_ne_nil_of_sse128 {i : Instr} (s : State) (h : i.form = .sse128) :
    accessed i s ≠ [] := by
  cases i with
  | pmullwSse128 =>
    have hbytes : Form.sse128.bytes ≠ 0 := by decide
    exact List.range_eq_nil.not.mpr hbytes
  | pmullwMmx64 | vpmullwVex128 | vpmullwVex256 | vpmullwEvex128 | vpmullwEvex256
  | vpmullwEvex512 => nomatch h

/-- Settles O33. -/
theorem sideEffectMemoryIsRefused : Obligations.SideEffectMemoryIsRefused := by
  intro i s m k hr hm hmem hacc halign hk hdev
  have halign16 : i.form = .sse128 → (effAddr m i.len s).toNat % 16 = 0 := fun hf =>
    (halign.resolve_left (accessed_ne_nil_of_sse128 s hf)).1 hf
  have hseg := segmentFault_eq_none
    (fun j hj => ⟨(hacc j hj).1, (hacc j hj).2 _, (hacc j hj).2 _⟩) halign16
  have hpage := pageFaultOf_eq_none fun j hj _ => (hacc j hj).2 _
  have hnone : memFault i.form m i.len s (accessed i s) = none :=
    (memFault_of_no_pageFault hseg hpage).trans
      (alignmentFault_eq_none halign fun j hj => (hacc j hj).2 _)
  have hdevice : operandInDevice i.form m i.len s = true :=
    Bool.eq_true_of_not_eq_false fun h => (operandInDevice_eq_false _ _ _ _).mp h k hk hdev
  refine exec_of_loadOperand (st := .refuse .sideEffectMemory) hr hm hmem ?_
  rw [loadOperand, hnone]
  exact if_pos hdevice

end Sys2Proof.Machine
end

section
/-!
PROOFS. What a step does with the bytes at the program counter (O53 to O57).
-/

namespace Sys2Proof.Machine

/-! ### A step after its fetch -/

theorem step_of_fetch_ok {s : State} {i : Instr} (h : fetch s = .ok i) : step s = exec i s := by
  rw [step, h]

theorem step_of_fetch_error {s : State} {st : Stop} (h : fetch s = .error st) :
    step s = outcome (.error st) := by
  rw [step, h]

theorem step_of_decode_error {s : State} {e : DecodeError}
    (h : decode s.mode64 s.code16 (fetchWindow s) = .error e) :
    step s = outcome (.error (decodeStop (windowSize s) e)) :=
  step_of_fetch_error (by rw [fetch, h])

/-- Settles O53. -/
theorem stepRunsTheDecodedInstruction : Obligations.StepRunsTheDecodedInstruction := by
  intro s i hdecode hroom
  refine step_of_fetch_ok ?_
  rw [fetch, hdecode]
  exact if_neg (Nat.not_le.mpr hroom)

/-! ### The window (O56) -/

/-- With 15 bytes of room the decoder sees 15 bytes. -/
theorem windowSize_eq_of_room {s : State} (h : s.pc.toNat + 15 ≤ 2 ^ s.addrBits) :
    windowSize s = 15 :=
  Nat.min_eq_left (Nat.le_sub_of_add_le' h)

theorem windowSize_lt_of_no_room {s : State} (h : 2 ^ s.addrBits < s.pc.toNat + 15) :
    windowSize s < 15 := by
  have hleft : 2 ^ s.addrBits - s.pc.toNat < 15 := by omega
  exact Nat.lt_of_le_of_lt (Nat.min_le_right ..) hleft

/-- Settles O56: the step's outcome is that of the decoding error, and the room at the program
counter tells bytes cut off by the limit from bytes cut off by the top of the address space. -/
theorem stepStopsAsTheDecoderSays : Obligations.StepStopsAsTheDecoderSays := by
  intro s decoded
  refine ⟨fun i hdecode htop => ?_, step_of_decode_error, step_of_decode_error,
    step_of_decode_error, step_of_decode_error, step_of_decode_error, step_of_decode_error, ?_,
    fun hcut hroom => ?_⟩
  · have hfetch : fetch s = .error (.refuse .pcWraps) := by
      rw [fetch, show decode _ _ _ = _ from hdecode]
      exact if_pos htop
    exact step_of_fetch_error hfetch
  · rintro (hlong | ⟨hcut, hroom⟩)
    · exact step_of_decode_error hlong
    · rw [step_of_decode_error hcut, windowSize_eq_of_room hroom]
      rfl
  · rw [step_of_decode_error hcut, decodeStop, if_pos (windowSize_lt_of_no_room hroom)]
    rfl

/-! ### Bytes that stand at the program counter (O54, O55, O57) -/

theorem length_fetchWindow (s : State) : (fetchWindow s).length = windowSize s := by
  simp [fetchWindow]

/-- Bytes that stand at the program counter, no more than the decoder may look at, are the first
ones it sees. -/
theorem take_fetchWindow {s : State} {bs : List Byte} (hle : bs.length ≤ windowSize s)
    (h : ∀ k < bs.length, s.mem.read (s.pc.toNat + k) = bs.getD k 0) :
    (fetchWindow s).take bs.length = bs := by
  refine List.ext_getElem (by simp [length_fetchWindow, hle]) fun k _ hk => ?_
  simp [fetchWindow, h k hk, hk]

theorem fetchWindow_eq_of_length {s : State} {bs : List Byte} (hlen : bs.length = windowSize s)
    (h : ∀ k < bs.length, s.mem.read (s.pc.toNat + k) = bs.getD k 0) : fetchWindow s = bs := by
  rw [← take_fetchWindow hlen.le h, hlen, ← length_fetchWindow, List.take_length]

/-- Settles O54. -/
theorem stepRunsTheEncodedInstruction : Obligations.StepRunsTheEncodedInstruction := by
  intro s i hwf hmode hroom hbytes
  have hlenOk : i.lenOk s.mode64 = true := (Bool.and_eq_true_iff.mp hwf).2
  obtain ⟨hlength, hle⟩ := Laws.EncodeLength.of_lenOk i s.mode64 hlenOk
  have hwindow : (encode s.mode64 i).length ≤ windowSize s := by
    rw [windowSize, hlength]
    exact Nat.le_min.mpr ⟨hlength ▸ hle, Nat.le_sub_of_add_le' hroom.le⟩
  have htake := take_fetchWindow hwindow fun k hk => hbytes k (hlength ▸ hk)
  refine stepRunsTheDecodedInstruction s i ?_ hroom
  rw [← List.take_append_drop (encode s.mode64 i).length (fetchWindow s), htake]
  exact decodeOfEncodeIsIdentity _ _ i _ hwf hmode

/-- In 64-bit mode the size of the code segment has no part in decoding (30_encoding.md R78). -/
theorem decode_code16_of_mode64 (code16 : Bool) (bs : List Byte) :
    decode true code16 bs = decode true false bs := rfl

theorem decode_of_decodeTableWord {nbits w : Nat} {i : Instr} (h : decodeTableWord nbits w = some i) :
    decode true false (tableBytes nbits w) = .ok i := by
  unfold decodeTableWord at h
  split at h
  · next j hj => exact hj.trans (congrArg _ (Option.some.inj h))
  · nomatch h

theorem length_tableBytes (nbits w : Nat) : (tableBytes nbits w).length = 15 := by
  simp [tableBytes]

/-- Where there is room, a fetch after `withFetchWord` sees the word's bytes. -/
theorem fetchWindow_withFetchWord {s : State} (nbits w : Nat) (hwf : s.mem.wf = true)
    (hm : s.mode64 = true) (hroom : s.pc.toNat + 15 < 2 ^ 64) :
    fetchWindow (s.withFetchWord nbits w) = tableBytes nbits w := by
  have haddr : s.addrBits = 64 := if_pos hm
  have hsize : windowSize s = 15 := windowSize_eq_of_room (by rw [haddr]; exact hroom.le)
  have hlen := length_tableBytes nbits w
  refine fetchWindow_eq_of_length (hlen.trans hsize.symm) fun k hk => ?_
  have hmem : (s.withFetchWord nbits w).mem = s.mem.writeBytes s.pc.toNat (tableBytes nbits w) := by
    rw [State.withFetchWord, hsize, List.take_of_length_le hlen.le]
  have hpc : (s.withFetchWord nbits w).pc = s.pc := rfl
  rw [hmem, hpc, Memory.read_writeBytes _ (hlen.symm ▸ hroom.le) hwf, Nat.add_sub_cancel_left]
  exact if_pos ⟨Nat.le_add_right .., Nat.add_lt_add_left hk _⟩

/-- Settles O55. -/
theorem stepRunsTheFetchWord : Obligations.StepRunsTheFetchWord := by
  intro s nbits w i hwf hm hroom hword
  have hdecode := decode_of_decodeTableWord hword
  have hlen : i.len ≤ 15 :=
    length_tableBytes nbits w ▸ (decodeDependsOnlyOnItsBytes _ _ _ i hdecode).1
  have hm' : (s.withFetchWord nbits w).mode64 = true := hm
  have haddr : (s.withFetchWord nbits w).addrBits = 64 := if_pos hm
  refine stepRunsTheDecodedInstruction _ i ?_ ?_
  · rw [hm', fetchWindow_withFetchWord nbits w hwf hm hroom, decode_code16_of_mode64]
    exact hdecode
  · rw [haddr]
    exact Nat.lt_of_le_of_lt (Nat.add_le_add_left hlen _) hroom

/-- Of an instruction that redundant prefixes make longer than 15 bytes the first 15 are cut off. -/
theorem decode_take_redundant {m64 code16 : Bool} {bs : List Byte} {i : Instr} {p : Byte} {n : Nat}
    (h : decode m64 code16 bs = .ok i) (hp : RedundantBefore i p) (hlong : 15 < i.len + n) :
    decode m64 code16 ((List.replicate n p ++ bs).take 15) = .error .truncated := by
  obtain ⟨c, rest, x, rfl, hc, rfl, -⟩ := decode_reads h
  have hlen : (x.instr c.length).len = c.length := Header.len_instr ..
  have hparse := parse_redundant_append n hp (hc.append rest)
  obtain ⟨c', heq, hc'⟩ := parse_local _ _ _ _ _ hparse
  have hc'len : 15 < c'.length := by
    have := congrArg List.length heq
    simp only [List.length_append, List.length_replicate] at this
    omega
  rw [heq, List.take_append_of_le_length hc'len.le]
  exact decode_of_parse_error (hc'.take 15 hc'len)

/-- Settles O57. -/
theorem stepRefusesLongInstructions : Obligations.StepRefusesLongInstructions := by
  intro s bs i p n hdecode hp hlong hroom hbytes
  have henough : 15 ≤ (List.replicate n p ++ bs).length := by
    have := (decodeDependsOnlyOnItsBytes _ _ _ i hdecode).1
    simp only [List.length_append, List.length_replicate]
    omega
  have hlen : ((List.replicate n p ++ bs).take 15).length = 15 :=
    List.length_take_of_le henough
  have hwindow : fetchWindow s = (List.replicate n p ++ bs).take 15 := by
    refine fetchWindow_eq_of_length (hlen.trans (windowSize_eq_of_room hroom).symm) fun k hk => ?_
    have hk15 : k < 15 := hlen ▸ hk
    rw [hbytes k hk15, List.getD_eq_getElem?_getD, List.getD_eq_getElem?_getD,
      List.getElem?_take_of_lt hk15]
  have hcut := hwindow ▸ decode_take_redundant hdecode hp hlong
  obtain ⟨-, -, -, -, -, -, -, hstop, -⟩ := stepStopsAsTheDecoderSays s
  exact hstop (.inr ⟨hcut, hroom⟩)

end Sys2Proof.Machine
end
